-- ==== Sys2Proof/Word.lean ====
section
/-! DEFINITION. The two data widths of the CPU (spec/00_scope.md R5): the 16-bit word and the 8-bit byte. -/

namespace Sys2Proof

/-- A word: 16 bits, the width of every register, of the program counter and of an address (R5, R6, R50). -/
abbrev Word := BitVec 16

/-- A byte: 8 bits, what one address names (R5, R51). -/
abbrev Byte := BitVec 8

end Sys2Proof
end

