-- ==== Sys2Proof/Syntax.lean ====
section
/-! DEFINITION. The instructions as syntax: one constructor for each row of spec/opcode_table.json, in the table's order
(spec/30_encoding.md R80, R97). -/

namespace Sys2Proof

/-- The eight general registers (R20 to R23, R88). `r6` is also called FP, `r7` is the stack pointer SP. -/
inductive Reg where
  | r0 | r1 | r2 | r3 | r4 | r5 | r6 | r7
  deriving DecidableEq, Repr

/-- The eight condition codes, in the order of R89. -/
inductive Cond where
  | z | nz | c | nc | n | nn | v | nv
  deriving DecidableEq, Repr

/-- The 73 mnemonic forms of R80. In the one-operand arithmetic forms (`addReg` to `cmpReg` and their byte twins) R0 is the
first source and, but for the comparisons, the destination (R21, R130, R150). -/
inductive Instr where
  /-- `LD rd, rs` (R110). -/
  | ldReg (rd : Reg) (rs : Reg)
  /-- `LD r, n16` (R111). -/
  | ldImm (r : Reg) (n16 : Word)
  /-- `LD.w rd, (rs)` (R112). -/
  | ldwInd (rd : Reg) (rs : Reg)
  /-- `LD.b rd, (rs)` (R113). -/
  | ldbInd (rd : Reg) (rs : Reg)
  /-- `ST.w (rd), rs` (R114). -/
  | stwInd (rd : Reg) (rs : Reg)
  /-- `ST.b (rd), rs` (R115). -/
  | stbInd (rd : Reg) (rs : Reg)
  /-- `LD.w r, (n16)` (R116). -/
  | ldwAbs (r : Reg) (n16 : Word)
  /-- `ST.w (n16), r` (R117). -/
  | stwAbs (n16 : Word) (r : Reg)
  /-- `PUSH r` (R118). -/
  | push (r : Reg)
  /-- `POP r` (R119). -/
  | pop (r : Reg)
  /-- `ADD rs` (R131). -/
  | addReg (rs : Reg)
  /-- `ADD r, n16` (R132). -/
  | addImm (r : Reg) (n16 : Word)
  /-- `SUB rs` (R133). -/
  | subReg (rs : Reg)
  /-- `SUB r, n16` (R134). -/
  | subImm (r : Reg) (n16 : Word)
  /-- `AND rs` (R135). -/
  | andReg (rs : Reg)
  /-- `AND r, n16` (R136). -/
  | andImm (r : Reg) (n16 : Word)
  /-- `OR rs` (R137). -/
  | orReg (rs : Reg)
  /-- `OR r, n16` (R138). -/
  | orImm (r : Reg) (n16 : Word)
  /-- `XOR rs` (R139). -/
  | xorReg (rs : Reg)
  /-- `XOR r, n16` (R140). -/
  | xorImm (r : Reg) (n16 : Word)
  /-- `INC r` (R141). -/
  | incReg (r : Reg)
  /-- `DEC r` (R142). -/
  | decReg (r : Reg)
  /-- `CMP rs` (R143). -/
  | cmpReg (rs : Reg)
  /-- `CMP r, n16` (R144). -/
  | cmpImm (r : Reg) (n16 : Word)
  /-- `ADD.b rs` (R151). -/
  | addbReg (rs : Reg)
  /-- `ADD.b r, n8` (R152). -/
  | addbImm (r : Reg) (n8 : Byte)
  /-- `SUB.b rs` (R153). -/
  | subbReg (rs : Reg)
  /-- `AND.b rs` (R154). -/
  | andbReg (rs : Reg)
  /-- `OR.b rs` (R155). -/
  | orbReg (rs : Reg)
  /-- `XOR.b rs` (R156). -/
  | xorbReg (rs : Reg)
  /-- `INC.b r` (R157). -/
  | incbReg (r : Reg)
  /-- `DEC.b r` (R158). -/
  | decbReg (r : Reg)
  /-- `CMP.b rs` (R159). -/
  | cmpbReg (rs : Reg)
  /-- `CMP.b r, n8` (R160). -/
  | cmpbImm (r : Reg) (n8 : Byte)
  /-- `SHL r` (R171). -/
  | shl (r : Reg)
  /-- `SHR r` (R172). -/
  | shr (r : Reg)
  /-- `ROL r` (R173). -/
  | rol (r : Reg)
  /-- `ROR r` (R174). -/
  | ror (r : Reg)
  /-- `BIT r, n8` (R175). -/
  | bit (r : Reg) (n8 : Byte)
  /-- `JMP n16` (R181). -/
  | jmp (n16 : Word)
  /-- `JMP (r)` (R182). -/
  | jmpReg (r : Reg)
  /-- `JR n8` (R183). -/
  | jr (n8 : Byte)
  /-- `JZ n16` (R184). -/
  | jz (n16 : Word)
  /-- `JNZ n16` (R184). -/
  | jnz (n16 : Word)
  /-- `JC n16` (R184). -/
  | jc (n16 : Word)
  /-- `JNC n16` (R184). -/
  | jnc (n16 : Word)
  /-- `JN n16` (R184). -/
  | jn (n16 : Word)
  /-- `JNN n16` (R184). -/
  | jnn (n16 : Word)
  /-- `JV n16` (R184). -/
  | jv (n16 : Word)
  /-- `JNV n16` (R184). -/
  | jnv (n16 : Word)
  /-- `JRZ n8` (R185). -/
  | jrz (n8 : Byte)
  /-- `JRNZ n8` (R185). -/
  | jrnz (n8 : Byte)
  /-- `JRC n8` (R185). -/
  | jrc (n8 : Byte)
  /-- `JRNC n8` (R185). -/
  | jrnc (n8 : Byte)
  /-- `JRN n8` (R185). -/
  | jrn (n8 : Byte)
  /-- `JRNN n8` (R185). -/
  | jrnn (n8 : Byte)
  /-- `JRV n8` (R185). -/
  | jrv (n8 : Byte)
  /-- `JRNV n8` (R185). -/
  | jrnv (n8 : Byte)
  /-- `CALL n16` (R186). -/
  | call (n16 : Word)
  /-- `CALLZ n16` (R187). -/
  | callz (n16 : Word)
  /-- `CALLNZ n16` (R187). -/
  | callnz (n16 : Word)
  /-- `CALLC n16` (R187). -/
  | callc (n16 : Word)
  /-- `CALLNC n16` (R187). -/
  | callnc (n16 : Word)
  /-- `CALLN n16` (R187). -/
  | calln (n16 : Word)
  /-- `CALLNN n16` (R187). -/
  | callnn (n16 : Word)
  /-- `CALLV n16` (R187). -/
  | callv (n16 : Word)
  /-- `CALLNV n16` (R187). -/
  | callnv (n16 : Word)
  /-- `RET` (R188). -/
  | ret
  /-- `RETI` (R189). -/
  | reti
  /-- `NOP` (R200). -/
  | nop
  /-- `HALT` (R201). -/
  | halt
  /-- `DI` (R202). -/
  | di
  /-- `EI` (R203). -/
  | ei
  deriving DecidableEq, Repr

/-- The formats of ENC_P (R84). -/
inductive Format where
  | f0 | f1 | f2 | f3 | f4 | f5 | f6 | f7 | fa | fb0 | fb1
  deriving DecidableEq, Repr

end Sys2Proof
end

