-- ==== Sys2Proof/Config.lean ====
section
/-! DEFINITION. The parameters of spec/00_scope.md R6, each with the values the spec names for it, and the free values
(constants without a body, of which nothing can be proved but what holds for every value). -/

namespace Sys2Proof

/-- `ENDIAN` (R52): which byte of a word lies at the lower address, in data and in immediates alike. -/
inductive Endian where
  | little
  | big
  deriving DecidableEq, Repr

/-- `SUB_CARRY` (R10, U2): the sense of C after a subtraction or a comparison. -/
inductive SubCarry where
  | borrow
  | notBorrow
  deriving DecidableEq, Repr

/-- `SHIFT_ZNV` (R170, U3): what SHL, SHR, ROL and ROR do to Z, N and V. -/
inductive ShiftZNV where
  /-- The default: the three flags keep their values. -/
  | unchanged
  /-- Z and N from the 16-bit result, V unchanged. -/
  | fromResult
  /-- Fixed by nothing: any value. -/
  | draw
  deriving DecidableEq, Repr

/-- `BIT_INDEX_POLICY` (R175, U4): what BIT does with an index above 15. -/
inductive BitIndexPolicy where
  /-- The default: the instruction has no meaning. -/
  | refuse
  /-- The low four bits of the index are used. -/
  | mod16
  /-- The bit reads as 0. -/
  | zero
  deriving DecidableEq, Repr

/-- The treatment of `PUSH R7` and `POP R7` (R118, R119, U6). The spec decides `refuse` (D14) and makes no parameter of it; the
other value is the model's own (log 7). -/
inductive SpOperandPolicy where
  /-- The spec's decision: the instruction has no meaning. -/
  | refuse
  /-- The instruction runs, and the one value the source does not give, the word stored or the word that ends in R7, is
  a free value. -/
  | free
  deriving DecidableEq, Repr

/-- `HALT_WAKE_MASKED` (R222 c, U9): what a request does to a halted CPU whose interrupts are disabled. -/
inductive HaltWake where
  /-- Execution resumes after the HALT, with no interrupt entry. -/
  | wake
  /-- No step. -/
  | stay
  deriving DecidableEq, Repr

/-- What a range of addresses is, under `MEMMAP` (R62, U18). -/
inductive RegionKind where
  /-- A read returns the last value written. -/
  | plain
  /-- Every data access and every fetch faults, under a name of its own (U18, D23). -/
  | readOnly
  /-- Every data access and every fetch faults. -/
  | unmapped
  /-- Reads are answered by the platform's oracle; writes are its business. -/
  | device
  deriving DecidableEq, Repr

/-- One range of `MEMMAP`: the addresses from `first` to `last`, both included. -/
structure Region where
  first : Nat
  last : Nat
  kind : RegionKind
  deriving DecidableEq, Repr

/-- One member of `INT_SOURCES` (R215): a request identifier, and its handler's address `INT_VECTOR` where the platform
supplies one (R219). -/
structure IntSource where
  id : Nat
  vector : Option Word
  deriving DecidableEq, Repr

/-- Which operand of an instruction follows its opcode bytes in memory. -/
inductive OperandBytes where
  /-- The opcode bytes are the whole instruction. -/
  | none
  /-- One byte, the instruction's n8. -/
  | n8
  /-- Two bytes, the instruction's n16 in the order `ENDIAN`. -/
  | n16
  deriving DecidableEq, Repr

/-- One row of an encoding: opcode bytes, and the instruction they stand for with the operand that follows them in place of
the one written here. -/
structure EncRow where
  opcode : List Byte
  instr : Instr
  operand : OperandBytes
  deriving DecidableEq, Repr

/-- `ENC` (D3, U19): the decoder from bytes to an instruction and a length, as data (log 2). -/
inductive Encoding where
  /-- The default: ENC_P, the spec's provisional encoding (R82 to R93). -/
  | encP
  /-- Any other, row by row: the first row that the bytes begin with decides, and bytes that no row fits are illegal. -/
  | table (rows : List EncRow)
  deriving DecidableEq, Repr

/-- The parameters of R6, fixed for a run. (`ADDR_BITS` is 16 by D1; `INT_ACK`, `RESET_PC` and `RESET_IME` are in
Machine/State.lean, where the environment and reset are.) -/
structure Config where
  endian : Endian
  enc : Encoding
  subCarry : SubCarry
  shiftZNV : ShiftZNV
  bitIndex : BitIndexPolicy
  spOperand : SpOperandPolicy
  /-- `none` is the spec's OPEN. -/
  haltWake : Option HaltWake
  /-- The first range that holds an address decides; an address in no range is plain memory. -/
  memmap : List Region
  /-- The empty list is the premise NoIRQ of R215. -/
  intSources : List IntSource
  deriving DecidableEq, Repr

/-- The defaults of R6: the values of the spec's test vectors. DESIGN CHOICE for the parameters the spec leaves OPEN (log 13). -/
def Config.default : Config where
  endian := .little
  enc := .encP
  subCarry := .borrow
  shiftZNV := .unchanged
  bitIndex := .refuse
  spOperand := .refuse
  haltWake := none
  memmap := []
  intSources := []

/-- What an access of the CPU is for. -/
inductive AccessKind where
  | fetch
  | data
  deriving DecidableEq, Repr

/-- FREE VALUE (R62, U18, log 19): the byte the platform's oracle answers to a read of a device region, by the model's
counter of steps, the purpose of the access and the address. -/
opaque Config.deviceByte : Nat → AccessKind → Word → Byte

/-- The flags a shift may draw. -/
structure ShiftDraw where
  z : Bool
  n : Bool
  v : Bool
  deriving DecidableEq, Repr, Inhabited

/-- FREE VALUE (R170, U3, log 5): Z, N and V after a shift or rotate where `SHIFT_ZNV` fixes none of them, by the model's
counter of steps, the old flags Z, N, C, V and the result. -/
opaque Config.drawZNV : Nat → Bool × Bool × Bool × Bool → Word → ShiftDraw

/-- FREE VALUE (U6, log 7): the word that `PUSH R7` stores and the word that ends in R7 after `POP R7`, under the policy
`free`, by the model's counter of steps and the old stack pointer. -/
opaque Config.spWord : Nat → Word → Word

end Sys2Proof
end

