-- ==== Sys2Proof/WellFormed.lean ====
section
/-! DEFINITION. Which instructions are well formed. The operand types of `Instr` already shut out what ENC_P cannot encode,
so what is left to check are the operand choices to which the spec gives no meaning (spec/60_exceptions.md R214) and which it
makes software's duty to avoid (spec/70_reset_and_hazards.md R245). Ill-formed instructions still have an encoding (U6) and
are still decoded. -/

namespace Sys2Proof

/-- `PUSH R7`, `POP R7` and `BIT` with an index above 15 are ill formed; every other instruction is well formed. -/
def Instr.wellFormed : Instr → Bool
  | .push r => r != .r7
  | .pop r => r != .r7
  | .bit _ n8 => decide (n8.toNat ≤ 15)
  | .ldReg _ _ | .ldImm _ _ | .ldwInd _ _ | .ldbInd _ _ | .stwInd _ _ | .stbInd _ _ | .ldwAbs _ _ | .stwAbs _ _
  | .addReg _ | .addImm _ _ | .subReg _ | .subImm _ _ | .andReg _ | .andImm _ _ | .orReg _ | .orImm _ _
  | .xorReg _ | .xorImm _ _ | .incReg _ | .decReg _ | .cmpReg _ | .cmpImm _ _ | .addbReg _ | .addbImm _ _
  | .subbReg _ | .andbReg _ | .orbReg _ | .xorbReg _ | .incbReg _ | .decbReg _ | .cmpbReg _ | .cmpbImm _ _
  | .shl _ | .shr _ | .rol _ | .ror _ | .jmp _ | .jmpReg _ | .jr _ | .jz _ | .jnz _ | .jc _ | .jnc _ | .jn _
  | .jnn _ | .jv _ | .jnv _ | .jrz _ | .jrnz _ | .jrc _ | .jrnc _ | .jrn _ | .jrnn _ | .jrv _ | .jrnv _
  | .call _ | .callz _ | .callnz _ | .callc _ | .callnc _ | .calln _ | .callnn _ | .callv _ | .callnv _ | .ret
  | .reti | .nop | .halt | .di | .ei => true

end Sys2Proof
end

