-- ==== Sys2Proof/Decode.lean ====
section
/-! DEFINITION. The encodings. First ENC_P, the default of the parameter `ENC` and the spec's provisional encoding
(spec/30_encoding.md R82 to R95): its decoder, total on any bytes, its lengths and its encoder. Then any value of `ENC` (D3,
U19, log 2): decoding and the length function under it. Last the layout of an opcode-table word. No instruction's meaning rests
on an opcode value: a meaning reads only the length function of `ENC`. -/

namespace Sys2Proof

/-! ## Fields -/

/-- The number in a register field (R88). -/
def Reg.code : Reg → BitVec 3
  | .r0 => 0#3 | .r1 => 1#3 | .r2 => 2#3 | .r3 => 3#3 | .r4 => 4#3 | .r5 => 5#3 | .r6 => 6#3 | .r7 => 7#3

/-- The register a 3-bit field names (R88). -/
def Reg.ofCode (c : BitVec 3) : Reg :=
  match c.toNat with
  | 0 => .r0 | 1 => .r1 | 2 => .r2 | 3 => .r3 | 4 => .r4 | 5 => .r5 | 6 => .r6 | _ => .r7

/-- The number in a condition field (R89). -/
def Cond.code : Cond → BitVec 3
  | .z => 0#3 | .nz => 1#3 | .c => 2#3 | .nc => 3#3 | .n => 4#3 | .nn => 5#3 | .v => 6#3 | .nv => 7#3

/-- The condition a 3-bit field names (R89). -/
def Cond.ofCode (c : BitVec 3) : Cond :=
  match c.toNat with
  | 0 => .z | 1 => .nz | 2 => .c | 3 => .nc | 4 => .n | 5 => .nn | 6 => .v | _ => .nv

/-- Bits 7:0 of a word. -/
def Word.lo (w : Word) : Byte := w.extractLsb' 0 8

/-- Bits 15:8 of a word. -/
def Word.hi (w : Word) : Byte := w.extractLsb' 8 8

/-- The two bytes of a word, the one at the lower address first (R52). -/
def wordBytes (e : Endian) (w : Word) : Byte × Byte :=
  match e with
  | .little => (Word.lo w, Word.hi w)
  | .big => (Word.hi w, Word.lo w)

/-- The word whose byte at the lower address is `a` and at the higher address `b` (R52). -/
def joinWord (e : Endian) (a b : Byte) : Word :=
  match e with
  | .little => b ++ a
  | .big => a ++ b

/-- The first byte of a prefix A instruction (R86). -/
def prefixA : Byte := 0x0E#8

/-- The first byte of a prefix B instruction (R87). -/
def prefixB : Byte := 0x0F#8

/-- The mnemonic that `Jcc n16` becomes for a condition (R97, R184). -/
def Instr.jcc (cc : Cond) (n16 : Word) : Instr :=
  match cc with
  | .z => .jz n16
  | .nz => .jnz n16
  | .c => .jc n16
  | .nc => .jnc n16
  | .n => .jn n16
  | .nn => .jnn n16
  | .v => .jv n16
  | .nv => .jnv n16

/-- The mnemonic that `JRcc n8` becomes for a condition (R97, R185). -/
def Instr.jrcc (cc : Cond) (n8 : Byte) : Instr :=
  match cc with
  | .z => .jrz n8
  | .nz => .jrnz n8
  | .c => .jrc n8
  | .nc => .jrnc n8
  | .n => .jrn n8
  | .nn => .jrnn n8
  | .v => .jrv n8
  | .nv => .jrnv n8

/-- The mnemonic that `CALLcc n16` becomes for a condition (R97, R187). -/
def Instr.callcc (cc : Cond) (n16 : Word) : Instr :=
  match cc with
  | .z => .callz n16
  | .nz => .callnz n16
  | .c => .callc n16
  | .nc => .callnc n16
  | .n => .calln n16
  | .nn => .callnn n16
  | .v => .callv n16
  | .nv => .callnv n16

/-! ## Decoding under ENC_P -/

/-- Why bytes are no instruction. -/
inductive DecodeError where
  /-- The bytes are an unassigned encoding (R93 for ENC_P). -/
  | unassigned
  /-- The bytes end before the instruction does: the fetch reads one more (R58, R82). -/
  | truncated
  deriving DecidableEq, Repr

/-- What the first byte of an instruction says (R82 c, R84, R85): the operand bytes that follow and what they make. -/
inductive Opened where
  | plain (i : Instr)
  | imm8 (k : Byte → Instr)
  | imm16 (k : Word → Instr)
  /-- Prefix A: a second opcode byte (R86). -/
  | pageA
  /-- Prefix B: a second opcode byte (R87). -/
  | pageB
  | unassigned

/-- The first-byte map (R85): bits 7:3 are the group, bits 2:0 a register, a condition or part of the opcode. -/
def openByte (b0 : Byte) : Opened :=
  let low : BitVec 3 := b0.extractLsb' 0 3
  let r := Reg.ofCode low
  match (b0.extractLsb' 3 5).toNat with
  | 0 =>
    match low.toNat with
    | 0 => .plain .nop
    | 1 => .plain .halt
    | 2 => .plain .di
    | 3 => .plain .ei
    | 4 => .plain .ret
    | 5 => .plain .reti
    | _ => .unassigned
  | 1 =>
    match low.toNat with
    | 0 => .imm16 .jmp
    | 1 => .imm8 .jr
    | 2 => .imm16 .call
    | 6 => .pageA
    | 7 => .pageB
    | _ => .unassigned
  | 2 => .imm16 fun n16 => .ldImm r n16
  | 3 => .imm16 fun n16 => .ldwAbs r n16
  | 4 => .imm16 fun n16 => .stwAbs n16 r
  | 5 => .plain (.push r)
  | 6 => .plain (.pop r)
  | 7 => .plain (.jmpReg r)
  | 8 => .plain (.addReg r)
  | 9 => .plain (.subReg r)
  | 10 => .plain (.andReg r)
  | 11 => .plain (.orReg r)
  | 12 => .plain (.xorReg r)
  | 13 => .plain (.cmpReg r)
  | 14 => .plain (.incReg r)
  | 15 => .plain (.decReg r)
  | 16 => .imm16 fun n16 => .addImm r n16
  | 17 => .imm16 fun n16 => .subImm r n16
  | 18 => .imm16 fun n16 => .andImm r n16
  | 19 => .imm16 fun n16 => .orImm r n16
  | 20 => .imm16 fun n16 => .xorImm r n16
  | 21 => .imm16 fun n16 => .cmpImm r n16
  | 22 => .imm8 fun n8 => .addbImm r n8
  | 23 => .imm8 fun n8 => .cmpbImm r n8
  | 24 => .plain (.shl r)
  | 25 => .plain (.shr r)
  | 26 => .plain (.rol r)
  | 27 => .plain (.ror r)
  | 28 => .imm8 fun n8 => .bit r n8
  | 29 => .imm16 fun n16 => Instr.jcc (Cond.ofCode low) n16
  | 30 => .imm8 fun n8 => Instr.jrcc (Cond.ofCode low) n8
  | _ => .imm16 fun n16 => Instr.callcc (Cond.ofCode low) n16

/-- The prefix A page (R86): every second byte is an instruction. -/
def decodePageA (b1 : Byte) : Instr :=
  let rd := Reg.ofCode (b1.extractLsb' 3 3)
  let rs := Reg.ofCode (b1.extractLsb' 0 3)
  match (b1.extractLsb' 6 2).toNat with
  | 0 => .ldwInd rd rs
  | 1 => .ldbInd rd rs
  | 2 => .stwInd rd rs
  | _ => .stbInd rd rs

/-- The prefix B page (R87): a second byte with bit 7 set is unassigned. -/
def decodePageB (b1 : Byte) : Except DecodeError Instr :=
  let mid : BitVec 3 := b1.extractLsb' 3 3
  let r := Reg.ofCode (b1.extractLsb' 0 3)
  match (b1.extractLsb' 6 2).toNat with
  | 0 => .ok (.ldReg (Reg.ofCode mid) r)
  | 1 =>
    match mid.toNat with
    | 0 => .ok (.addbReg r)
    | 1 => .ok (.subbReg r)
    | 2 => .ok (.andbReg r)
    | 3 => .ok (.orbReg r)
    | 4 => .ok (.xorbReg r)
    | 5 => .ok (.cmpbReg r)
    | 6 => .ok (.incbReg r)
    | _ => .ok (.decbReg r)
  | _ => .error .unassigned

/-- Decoding under ENC_P (R82): the instruction at the front of some bytes, and the bytes after it. -/
def decode (e : Endian) (bytes : List Byte) : Except DecodeError (Instr × List Byte) :=
  match bytes with
  | [] => .error .truncated
  | b0 :: rest =>
    match openByte b0 with
    | .plain i => .ok (i, rest)
    | .imm8 k =>
      match rest with
      | n8 :: rest' => .ok (k n8, rest')
      | [] => .error .truncated
    | .imm16 k =>
      match rest with
      | a :: b :: rest' => .ok (k (joinWord e a b), rest')
      | _ => .error .truncated
    | .pageA =>
      match rest with
      | b1 :: rest' => .ok (decodePageA b1, rest')
      | [] => .error .truncated
    | .pageB =>
      match rest with
      | b1 :: rest' =>
        match decodePageB b1 with
        | .ok i => .ok (i, rest')
        | .error err => .error err
      | [] => .error .truncated
    | .unassigned => .error .unassigned

/-- How many bytes an instruction of ENC_P that begins with `b0` has: the first byte alone tells (R82, R95). An unassigned
first byte is fetched alone. -/
def fetchLength (b0 : Byte) : Nat :=
  match openByte b0 with
  | .plain _ => 1
  | .imm8 _ => 2
  | .imm16 _ => 3
  | .pageA => 2
  | .pageB => 2
  | .unassigned => 1

/-! ## Formats and lengths of ENC_P -/

/-- The format of an instruction (R84). -/
def Instr.format : Instr → Format
  | .ret | .reti | .nop | .halt | .di | .ei => .f0
  | .push _ | .pop _ | .addReg _ | .subReg _ | .andReg _ | .orReg _ | .xorReg _ | .incReg _ | .decReg _
  | .cmpReg _ | .shl _ | .shr _ | .rol _ | .ror _ | .jmpReg _ => .f1
  | .addbImm _ _ | .cmpbImm _ _ | .bit _ _ => .f2
  | .ldImm _ _ | .ldwAbs _ _ | .stwAbs _ _ | .addImm _ _ | .subImm _ _ | .andImm _ _ | .orImm _ _ | .xorImm _ _
  | .cmpImm _ _ => .f3
  | .jr _ => .f4
  | .jrz _ | .jrnz _ | .jrc _ | .jrnc _ | .jrn _ | .jrnn _ | .jrv _ | .jrnv _ => .f5
  | .jmp _ | .call _ => .f6
  | .jz _ | .jnz _ | .jc _ | .jnc _ | .jn _ | .jnn _ | .jv _ | .jnv _ | .callz _ | .callnz _ | .callc _
  | .callnc _ | .calln _ | .callnn _ | .callv _ | .callnv _ => .f7
  | .ldwInd _ _ | .ldbInd _ _ | .stwInd _ _ | .stbInd _ _ => .fa
  | .ldReg _ _ => .fb0
  | .addbReg _ | .subbReg _ | .andbReg _ | .orbReg _ | .xorbReg _ | .incbReg _ | .decbReg _ | .cmpbReg _ => .fb1

/-- How many bytes a format has (R84). -/
def Format.length : Format → Nat
  | .f0 => 1
  | .f1 => 1
  | .f2 => 2
  | .f3 => 3
  | .f4 => 2
  | .f5 => 2
  | .f6 => 3
  | .f7 => 3
  | .fa => 2
  | .fb0 => 2
  | .fb1 => 2

/-- The length of an instruction in bytes under ENC_P (R83). -/
def Instr.ilen (i : Instr) : Nat := i.format.length

/-! ## Encoding in ENC_P -/

/-- The two bytes of an n16 immediate (R90). -/
def immBytes (e : Endian) (n16 : Word) : List Byte :=
  [(wordBytes e n16).1, (wordBytes e n16).2]

/-- The bytes of an instruction, byte 0 first (R84 to R87). -/
def encode (e : Endian) : Instr → List Byte
  | .ldReg rd rs => [prefixB, 0b00#2 ++ rd.code ++ rs.code]
  | .ldImm r n16 => (0b00010#5 ++ r.code) :: immBytes e n16
  | .ldwInd rd rs => [prefixA, 0b00#2 ++ rd.code ++ rs.code]
  | .ldbInd rd rs => [prefixA, 0b01#2 ++ rd.code ++ rs.code]
  | .stwInd rd rs => [prefixA, 0b10#2 ++ rd.code ++ rs.code]
  | .stbInd rd rs => [prefixA, 0b11#2 ++ rd.code ++ rs.code]
  | .ldwAbs r n16 => (0b00011#5 ++ r.code) :: immBytes e n16
  | .stwAbs n16 r => (0b00100#5 ++ r.code) :: immBytes e n16
  | .push r => [0b00101#5 ++ r.code]
  | .pop r => [0b00110#5 ++ r.code]
  | .addReg rs => [0b01000#5 ++ rs.code]
  | .addImm r n16 => (0b10000#5 ++ r.code) :: immBytes e n16
  | .subReg rs => [0b01001#5 ++ rs.code]
  | .subImm r n16 => (0b10001#5 ++ r.code) :: immBytes e n16
  | .andReg rs => [0b01010#5 ++ rs.code]
  | .andImm r n16 => (0b10010#5 ++ r.code) :: immBytes e n16
  | .orReg rs => [0b01011#5 ++ rs.code]
  | .orImm r n16 => (0b10011#5 ++ r.code) :: immBytes e n16
  | .xorReg rs => [0b01100#5 ++ rs.code]
  | .xorImm r n16 => (0b10100#5 ++ r.code) :: immBytes e n16
  | .incReg r => [0b01110#5 ++ r.code]
  | .decReg r => [0b01111#5 ++ r.code]
  | .cmpReg rs => [0b01101#5 ++ rs.code]
  | .cmpImm r n16 => (0b10101#5 ++ r.code) :: immBytes e n16
  | .addbReg rs => [prefixB, 0b01000#5 ++ rs.code]
  | .addbImm r n8 => [0b10110#5 ++ r.code, n8]
  | .subbReg rs => [prefixB, 0b01001#5 ++ rs.code]
  | .andbReg rs => [prefixB, 0b01010#5 ++ rs.code]
  | .orbReg rs => [prefixB, 0b01011#5 ++ rs.code]
  | .xorbReg rs => [prefixB, 0b01100#5 ++ rs.code]
  | .incbReg r => [prefixB, 0b01110#5 ++ r.code]
  | .decbReg r => [prefixB, 0b01111#5 ++ r.code]
  | .cmpbReg rs => [prefixB, 0b01101#5 ++ rs.code]
  | .cmpbImm r n8 => [0b10111#5 ++ r.code, n8]
  | .shl r => [0b11000#5 ++ r.code]
  | .shr r => [0b11001#5 ++ r.code]
  | .rol r => [0b11010#5 ++ r.code]
  | .ror r => [0b11011#5 ++ r.code]
  | .bit r n8 => [0b11100#5 ++ r.code, n8]
  | .jmp n16 => 0x08#8 :: immBytes e n16
  | .jmpReg r => [0b00111#5 ++ r.code]
  | .jr n8 => [0x09#8, n8]
  | .jz n16 => (0b11101#5 ++ Cond.z.code) :: immBytes e n16
  | .jnz n16 => (0b11101#5 ++ Cond.nz.code) :: immBytes e n16
  | .jc n16 => (0b11101#5 ++ Cond.c.code) :: immBytes e n16
  | .jnc n16 => (0b11101#5 ++ Cond.nc.code) :: immBytes e n16
  | .jn n16 => (0b11101#5 ++ Cond.n.code) :: immBytes e n16
  | .jnn n16 => (0b11101#5 ++ Cond.nn.code) :: immBytes e n16
  | .jv n16 => (0b11101#5 ++ Cond.v.code) :: immBytes e n16
  | .jnv n16 => (0b11101#5 ++ Cond.nv.code) :: immBytes e n16
  | .jrz n8 => [0b11110#5 ++ Cond.z.code, n8]
  | .jrnz n8 => [0b11110#5 ++ Cond.nz.code, n8]
  | .jrc n8 => [0b11110#5 ++ Cond.c.code, n8]
  | .jrnc n8 => [0b11110#5 ++ Cond.nc.code, n8]
  | .jrn n8 => [0b11110#5 ++ Cond.n.code, n8]
  | .jrnn n8 => [0b11110#5 ++ Cond.nn.code, n8]
  | .jrv n8 => [0b11110#5 ++ Cond.v.code, n8]
  | .jrnv n8 => [0b11110#5 ++ Cond.nv.code, n8]
  | .call n16 => 0x0A#8 :: immBytes e n16
  | .callz n16 => (0b11111#5 ++ Cond.z.code) :: immBytes e n16
  | .callnz n16 => (0b11111#5 ++ Cond.nz.code) :: immBytes e n16
  | .callc n16 => (0b11111#5 ++ Cond.c.code) :: immBytes e n16
  | .callnc n16 => (0b11111#5 ++ Cond.nc.code) :: immBytes e n16
  | .calln n16 => (0b11111#5 ++ Cond.n.code) :: immBytes e n16
  | .callnn n16 => (0b11111#5 ++ Cond.nn.code) :: immBytes e n16
  | .callv n16 => (0b11111#5 ++ Cond.v.code) :: immBytes e n16
  | .callnv n16 => (0b11111#5 ++ Cond.nv.code) :: immBytes e n16
  | .ret => [0x04#8]
  | .reti => [0x05#8]
  | .nop => [0x00#8]
  | .halt => [0x01#8]
  | .di => [0x02#8]
  | .ei => [0x03#8]

/-! ## Any encoding -/

/-- An instruction with its n8 and n16 operands mapped, where it has them. -/
def Instr.mapImm (f8 : Byte → Byte) (f16 : Word → Word) : Instr → Instr
  | .ldReg rd rs => .ldReg rd rs
  | .ldImm r n16 => .ldImm r (f16 n16)
  | .ldwInd rd rs => .ldwInd rd rs
  | .ldbInd rd rs => .ldbInd rd rs
  | .stwInd rd rs => .stwInd rd rs
  | .stbInd rd rs => .stbInd rd rs
  | .ldwAbs r n16 => .ldwAbs r (f16 n16)
  | .stwAbs n16 r => .stwAbs (f16 n16) r
  | .push r => .push r
  | .pop r => .pop r
  | .addReg rs => .addReg rs
  | .addImm r n16 => .addImm r (f16 n16)
  | .subReg rs => .subReg rs
  | .subImm r n16 => .subImm r (f16 n16)
  | .andReg rs => .andReg rs
  | .andImm r n16 => .andImm r (f16 n16)
  | .orReg rs => .orReg rs
  | .orImm r n16 => .orImm r (f16 n16)
  | .xorReg rs => .xorReg rs
  | .xorImm r n16 => .xorImm r (f16 n16)
  | .incReg r => .incReg r
  | .decReg r => .decReg r
  | .cmpReg rs => .cmpReg rs
  | .cmpImm r n16 => .cmpImm r (f16 n16)
  | .addbReg rs => .addbReg rs
  | .addbImm r n8 => .addbImm r (f8 n8)
  | .subbReg rs => .subbReg rs
  | .andbReg rs => .andbReg rs
  | .orbReg rs => .orbReg rs
  | .xorbReg rs => .xorbReg rs
  | .incbReg r => .incbReg r
  | .decbReg r => .decbReg r
  | .cmpbReg rs => .cmpbReg rs
  | .cmpbImm r n8 => .cmpbImm r (f8 n8)
  | .shl r => .shl r
  | .shr r => .shr r
  | .rol r => .rol r
  | .ror r => .ror r
  | .bit r n8 => .bit r (f8 n8)
  | .jmp n16 => .jmp (f16 n16)
  | .jmpReg r => .jmpReg r
  | .jr n8 => .jr (f8 n8)
  | .jz n16 => .jz (f16 n16)
  | .jnz n16 => .jnz (f16 n16)
  | .jc n16 => .jc (f16 n16)
  | .jnc n16 => .jnc (f16 n16)
  | .jn n16 => .jn (f16 n16)
  | .jnn n16 => .jnn (f16 n16)
  | .jv n16 => .jv (f16 n16)
  | .jnv n16 => .jnv (f16 n16)
  | .jrz n8 => .jrz (f8 n8)
  | .jrnz n8 => .jrnz (f8 n8)
  | .jrc n8 => .jrc (f8 n8)
  | .jrnc n8 => .jrnc (f8 n8)
  | .jrn n8 => .jrn (f8 n8)
  | .jrnn n8 => .jrnn (f8 n8)
  | .jrv n8 => .jrv (f8 n8)
  | .jrnv n8 => .jrnv (f8 n8)
  | .call n16 => .call (f16 n16)
  | .callz n16 => .callz (f16 n16)
  | .callnz n16 => .callnz (f16 n16)
  | .callc n16 => .callc (f16 n16)
  | .callnc n16 => .callnc (f16 n16)
  | .calln n16 => .calln (f16 n16)
  | .callnn n16 => .callnn (f16 n16)
  | .callv n16 => .callv (f16 n16)
  | .callnv n16 => .callnv (f16 n16)
  | .ret => .ret
  | .reti => .reti
  | .nop => .nop
  | .halt => .halt
  | .di => .di
  | .ei => .ei

/-- An instruction with its n8 operand replaced; one without n8 is unchanged. -/
def Instr.withN8 (i : Instr) (n8 : Byte) : Instr := i.mapImm (fun _ => n8) id

/-- An instruction with its n16 operand replaced; one without n16 is unchanged. -/
def Instr.withN16 (i : Instr) (n16 : Word) : Instr := i.mapImm id (fun _ => n16)

/-- The bytes after an opcode that stands at the front of some bytes. -/
def afterOpcode : List Byte → List Byte → Except DecodeError (List Byte)
  | [], bytes => .ok bytes
  | _ :: _, [] => .error .truncated
  | o :: opcode, b :: bytes => if o = b then afterOpcode opcode bytes else .error .unassigned

/-- What one row of an encoding makes of some bytes: an instruction and the bytes after it. -/
def EncRow.read (row : EncRow) (e : Endian) (bytes : List Byte) : Except DecodeError (Instr × List Byte) :=
  match afterOpcode row.opcode bytes with
  | .error err => .error err
  | .ok rest =>
    match row.operand with
    | .none => .ok (row.instr, rest)
    | .n8 =>
      match rest with
      | n8 :: rest' => .ok (row.instr.withN8 n8, rest')
      | [] => .error .truncated
    | .n16 =>
      match rest with
      | a :: b :: rest' => .ok (row.instr.withN16 (joinWord e a b), rest')
      | _ => .error .truncated

/-- Decoding by rows: the first row that the bytes begin with, or a beginning of which they are, decides. -/
def decodeRows (rows : List EncRow) (e : Endian) (bytes : List Byte) : Except DecodeError (Instr × List Byte) :=
  match rows with
  | [] => .error .unassigned
  | row :: others =>
    match row.read e bytes with
    | .error .unassigned => decodeRows others e bytes
    | .error .truncated => .error .truncated
    | .ok found => .ok found

/-- Decoding under any `ENC` (D3, R11 (3)): the instruction at the front of some bytes, and the bytes after it. -/
def decodeWith (enc : Encoding) (e : Endian) (bytes : List Byte) : Except DecodeError (Instr × List Byte) :=
  match enc with
  | .encP => decode e bytes
  | .table rows => decodeRows rows e bytes

/-- How many bytes an operand has. -/
def OperandBytes.length : OperandBytes → Nat
  | .none => 0
  | .n8 => 1
  | .n16 => 2

/-- How many bytes an instruction of a row has. -/
def EncRow.length (row : EncRow) : Nat := row.opcode.length + row.operand.length

/-- Whether a row is one for an instruction: they are the same up to the operand that follows the opcode. -/
def EncRow.isFor (row : EncRow) (i : Instr) : Bool :=
  match row.operand with
  | .none => decide (row.instr = i)
  | .n8 => decide (row.instr.withN8 0#8 = i.withN8 0#8)
  | .n16 => decide (row.instr.withN16 0#16 = i.withN16 0#16)

/-- The length of the first row for an instruction. DESIGN CHOICE (log 2): an instruction that no row is for, which no fetch
answers, has the length of ENC_P. -/
def rowsIlen (rows : List EncRow) (i : Instr) : Nat :=
  match rows with
  | [] => i.ilen
  | row :: others => if row.isFor i then row.length else rowsIlen others i

/-- `ilen`, the length function that `ENC` fixes (R6, R8, R83). -/
def Encoding.ilen (enc : Encoding) (i : Instr) : Nat :=
  match enc with
  | .encP => i.ilen
  | .table rows => rowsIlen rows i

/-- The length of the longest row, at least 1. -/
def rowsLongest (rows : List EncRow) : Nat :=
  match rows with
  | [] => 1
  | row :: others => max row.length (rowsLongest others)

/-- A number of bytes that decides any decoding. -/
def Encoding.longest (enc : Encoding) : Nat :=
  match enc with
  | .encP => 3
  | .table rows => rowsLongest rows

/-- An encoding in which `ilen` is a function (R6): rows for one instruction have one length. -/
def Encoding.WellFormed (enc : Encoding) : Prop :=
  match enc with
  | .encP => True
  | .table rows => ∀ p ∈ rows, ∀ q ∈ rows, ∀ i, p.isFor i = true → q.isFor i = true → p.length = q.length

/-! ## Words of the opcode table -/

/-- Byte `k` of a number, byte 0 its least significant. -/
def byteOf (w k : Nat) : Byte := BitVec.ofNat 8 (w / 256 ^ k)

/-- The bytes, in memory order, of an instruction whose bits are `w` as spec/opcode_table.json numbers them (R100, log 3):
byte 0 is the least significant byte, but in the 16-bit numbers of the prefixed rows, where the table reads
`byte0 * 256 + byte1`. Three bytes are laid out, the longest instruction; those above `nbits` are zero. -/
def tableBytes (nbits w : Nat) : List Byte :=
  let v := w % 2 ^ nbits
  if nbits = 16 ∧ (byteOf v 1 = prefixA ∨ byteOf v 1 = prefixB) then
    [byteOf v 1, byteOf v 0, 0#8]
  else
    [byteOf v 0, byteOf v 1, byteOf v 2]

/-- The instruction the decoder reads from an opcode-table word, under ENC_P and the default `ENDIAN = little`. -/
def decodeTableWord (nbits w : Nat) : Option Instr :=
  match decode .little (tableBytes nbits w) with
  | .ok (i, _) => some i
  | .error _ => none

end Sys2Proof
end

