-- ==== Sys2Proof/Machine/Memory.lean ====
section
/-! DEFINITION. Memory as data (spec/10_state.md R38, spec/20_memory.md R50, R51): 2^16 bytes, held as cells in one canonical
form and one fill byte. -/

namespace Sys2Proof.Machine

/-- The memory of the CPU, one byte at each of the 2^16 addresses. `cells` lists the bytes that differ from `fill`, by
strictly rising address; an address that is not listed reads as `fill` (log 12). -/
structure Memory where
  fill : Byte
  cells : List Host.Cell
  deriving DecidableEq, Repr

/-- The byte listed for an address, if any. -/
def cellAt : List Host.Cell → Nat → Option Byte
  | [], _ => none
  | (a, b) :: rest, k => if a = k then some b else cellAt rest k

/-- The cells with `v` listed for address `k`. -/
def cellInsert : List Host.Cell → Nat → Byte → List Host.Cell
  | [], k, v => [(k, v)]
  | (a, b) :: rest, k, v =>
    if k < a then (k, v) :: (a, b) :: rest
    else if k = a then (k, v) :: rest
    else (a, b) :: cellInsert rest k v

/-- The cells with nothing listed for address `k`. -/
def cellErase : List Host.Cell → Nat → List Host.Cell
  | [], _ => []
  | (a, b) :: rest, k => if a = k then cellErase rest k else (a, b) :: cellErase rest k

/-- What an address that is not listed reads as. -/
def Memory.unlisted (m : Memory) : Byte := m.fill

/-- The byte at an address (`M[a]` of R54). -/
def Memory.read (m : Memory) (a : Word) : Byte := (cellAt m.cells a.toNat).getD m.unlisted

/-- `M[a] <- v` (R55). The canonical form is kept: writing what an unlisted address reads as removes the entry. -/
def Memory.write (m : Memory) (a : Word) (v : Byte) : Memory :=
  if v = m.unlisted then { m with cells := cellErase m.cells a.toNat }
  else { m with cells := cellInsert m.cells a.toNat v }

/-- Bytes written at an address and the addresses after it, modulo 2^16 (R57). -/
def Memory.place (m : Memory) (a : Word) : List Byte → Memory
  | [] => m
  | b :: rest => (m.write a b).place (a + 1#16) rest

/-- The canonical form: addresses strictly rising and below 2^16, no entry equal to what an unlisted address reads as. -/
def Memory.wf (m : Memory) : Bool :=
  decide (m.cells.Pairwise (fun x y => x.1 < y.1)) &&
    m.cells.all (fun x => decide (x.1 < 65536) && x.2 != m.unlisted)

end Sys2Proof.Machine
end

