-- ==== Sys2Proof/Machine/State.lean ====
section
/-! DEFINITION. The state of the machine as plain data (spec/10_state.md), the reasons a step can stop, and the state after
reset (spec/10_state.md R37, spec/70_reset_and_hazards.md R240). -/

namespace Sys2Proof.Machine

/-- The eight general registers (R20 to R23). `r6` is FP, `r7` is SP. -/
structure Regs where
  r0 : Word
  r1 : Word
  r2 : Word
  r3 : Word
  r4 : Word
  r5 : Word
  r6 : Word
  r7 : Word
  deriving DecidableEq, Repr

/-- The F register (R27): Z is bit 15, N bit 14, C bit 13, V bit 12, `reserved` bits 11:0, which no instruction reads or
writes (R32, log 28). -/
structure FReg where
  z : Bool
  n : Bool
  c : Bool
  v : Bool
  reserved : BitVec 12
  deriving DecidableEq, Repr

/-- What the environment supplies at one step boundary (R35, R218): the pending requests `IRQ`, in the order in which the
oracle would have them accepted (R221), and whether an acceptance that R218 leaves open happens at this boundary. -/
structure Boundary where
  irq : List Nat
  enter : Bool
  deriving DecidableEq, Repr

/-- The state of the machine. The first six fields are what the spec gives the CPU; `env` is its input (R35), `cfg` the
parameters of R6, written by no step, and `tick` the counter the free values are applied to (log 14, log 22, log 23). -/
structure State where
  regs : Regs
  pc : Word
  f : FReg
  /-- The interrupt master enable (R33). -/
  ime : Bool
  /-- The halt state (R34). -/
  halted : Bool
  mem : Memory
  /-- The step boundaries still to come, the present one first; after the last one `IRQ` is empty (log 14). -/
  env : List Boundary
  cfg : Config
  tick : Nat
  deriving DecidableEq, Repr

/-- The faults: a step ends in one, and the machine makes no further step (R211). Each carries the record R211 asks for: its
kind, its address and the `pc` of the instruction (in an interrupt entry the interrupted `pc`, the model's choice, log 39). All
are safe: the model stops where the hardware may go on. -/
inductive Fault where
  /-- Raised by a 16-bit data access at an odd address (R53, R212). Safe: terminal by D15. -/
  | busError (addr pc : Word)
  /-- Raised by the fetch of bytes that are an unassigned encoding of `ENC` (R93, R213, U8). Safe: terminal by D6. -/
  | illegalInstruction (pc : Word)
  /-- Raised by any access to a range that MEMMAP marks unmapped (R212, U18, D23). Safe. -/
  | unmapped (addr pc : Word)
  /-- Raised by any access to a range that MEMMAP marks read-only (R212, U18, D23). Safe. -/
  | readOnly (addr pc : Word)
  deriving DecidableEq, Repr

/-- The refusals (R214): where the spec gives no meaning. All are safe: nothing is claimed of a run that reaches one. -/
inductive Refusal where
  /-- Raised by an arm of `exec` whose instruction has no meaning yet. Safe. No arm raises it. -/
  | notModelled (mnemonic : String)
  /-- Raised by `PUSH R7` under the policy `refuse`, the spec's (R118, R214, U6). Safe. -/
  | pushSp
  /-- Raised by `POP R7` under the policy `refuse`, the spec's (R119, R214, U6). Safe. -/
  | popSp
  /-- Raised by `BIT` with an index above 15 under `BIT_INDEX_POLICY = refuse` (R175, R214, U4). Safe. -/
  | bitIndex (n8 : Byte)
  /-- Raised by a halted CPU with IME = 0 and a request pending while `HALT_WAKE_MASKED` is OPEN (R222 c, R214). Safe. -/
  | haltWakeOpen
  /-- Raised by the acceptance of a request whose `INT_VECTOR` is not supplied (R219, R214). Safe. -/
  | intVectorOpen (id : Nat)
  deriving DecidableEq, Repr

/-- The outcome of a step of this machine. -/
abbrev Result := Host.Outcome State Fault Refusal

/-- Everything the spec leaves unspecified after reset (R37, R240): `RESET_PC`, `RESET_IME`, every register, flag and memory
byte, and the platform. -/
structure ResetParams where
  resetPc : Word
  resetIme : Bool
  regs : Regs
  f : FReg
  mem : Memory
  env : List Boundary
  cfg : Config
  deriving DecidableEq, Repr

/-- The machine right after reset, for any values of what the spec leaves unspecified: not halted, `pc = RESET_PC`,
`IME = RESET_IME` (R37, R240). -/
def State.resetWith (p : ResetParams) : State where
  regs := p.regs
  pc := p.resetPc
  f := p.f
  ime := p.resetIme
  halted := false
  mem := p.mem
  env := p.env
  cfg := p.cfg
  tick := 0

/-- The values this model names for what the spec leaves unspecified after reset. DESIGN CHOICE, unsafe (log 8 to 14). -/
def ResetParams.chosen : ResetParams where
  resetPc := 0#16
  resetIme := false
  regs := ⟨0#16, 0#16, 0#16, 0#16, 0#16, 0#16, 0#16, 0#16⟩
  f := ⟨false, false, false, false, 0#12⟩
  mem := ⟨0#8, []⟩
  env := []
  cfg := Config.default

/-- The machine right after reset. -/
def State.reset : State := State.resetWith ResetParams.chosen

end Sys2Proof.Machine
end

