-- ==== Sys2Proof/Machine/Flags.lean ====
section
/-! DEFINITION. The arithmetic helpers and every flag computation of the spec (spec/00_scope.md R10, spec/10_state.md R27 to
R32, R36, spec/41_alu16.md R145, spec/43_shift_bit.md R170 to R175, spec/44_control_flow.md R180). -/

namespace Sys2Proof.Machine

/-! ## The F register -/

/-- F as a 16-bit word, by the layout of R27. -/
def FReg.toWord (f : FReg) : Word :=
  BitVec.ofBool f.z ++ BitVec.ofBool f.n ++ BitVec.ofBool f.c ++ BitVec.ofBool f.v ++ f.reserved

/-- F from a 16-bit word, by the layout of R27. -/
def FReg.ofWord (w : Word) : FReg where
  z := w.getLsbD 15
  n := w.getLsbD 14
  c := w.getLsbD 13
  v := w.getLsbD 12
  reserved := w.extractLsb' 0 12

/-- `cond(cc)` (R180): a condition reads the one flag it names. -/
def FReg.holds (f : FReg) : Cond → Bool
  | .z => f.z
  | .nz => !f.z
  | .c => f.c
  | .nc => !f.c
  | .n => f.n
  | .nn => !f.n
  | .v => f.v
  | .nv => !f.v

/-! ## Arithmetic of R10, for a width of 16 or 8 -/

/-- What `ADD_W` and `SUB_W` return. -/
structure AluOut (w : Nat) where
  res : BitVec w
  carry : Bool
  ovf : Bool
  deriving DecidableEq, Repr

/-- `ADD_W(a, b)` (R10): the sum modulo 2^W, the carry out of the top bit, the signed overflow. -/
def addW (w : Nat) (a b : BitVec w) : AluOut w where
  res := a + b
  carry := decide (2 ^ w ≤ a.toNat + b.toNat)
  ovf := a.msb == b.msb && (a + b).msb != a.msb

/-- `SUB_W(a, b)` (R10): the difference modulo 2^W, C by `SUB_CARRY`, the signed overflow. -/
def subW (sense : SubCarry) (w : Nat) (a b : BitVec w) : AluOut w where
  res := a - b
  carry :=
    match sense with
    | .borrow => decide (a.toNat < b.toNat)
    | .notBorrow => !decide (a.toNat < b.toNat)
  ovf := a.msb != b.msb && (a - b).msb != a.msb

/-! ## Flag writers of R36 -/

/-- `SetZN_W(res)` (R10). -/
def FReg.setZN (f : FReg) {w : Nat} (res : BitVec w) : FReg :=
  { f with z := res == 0#w, n := res.msb }

/-- Z, N, C and V written (ADD, SUB, CMP and their byte forms). -/
def FReg.arith (f : FReg) {w : Nat} (o : AluOut w) : FReg :=
  { f.setZN o.res with c := o.carry, v := o.ovf }

/-- Z, N and V written, C kept (INC, DEC and their byte forms). -/
def FReg.count (f : FReg) {w : Nat} (o : AluOut w) : FReg :=
  { f.setZN o.res with v := o.ovf }

/-- Z and N written, C and V kept (AND, OR, XOR and their byte forms). -/
def FReg.logic (f : FReg) {w : Nat} (res : BitVec w) : FReg := f.setZN res

/-! ## Shifts and the bit test -/

/-- What a shift or rotate gives: the register's new value and the bit moved out of it. -/
structure ShiftOut where
  res : Word
  out : Bool
  deriving DecidableEq, Repr

/-- One position to the left, `inn` entering bit 0, bit 15 leaving (R171, R173). -/
def shiftLeft (v : Word) (inn : Bool) : ShiftOut where
  res := v.extractLsb' 0 15 ++ BitVec.ofBool inn
  out := v.getLsbD 15

/-- One position to the right, `inn` entering bit 15, bit 0 leaving (R172, R174). -/
def shiftRight (v : Word) (inn : Bool) : ShiftOut where
  res := BitVec.ofBool inn ++ v.extractLsb' 1 15
  out := v.getLsbD 0

/-- The flags after a shift or rotate (R170): C is the bit moved out; Z, N and V by `SHIFT_ZNV`. -/
def FReg.shifted (f : FReg) (policy : ShiftZNV) (tick : Nat) (o : ShiftOut) : FReg :=
  match policy with
  | .unchanged => { f with c := o.out }
  | .fromResult => { f.setZN o.res with c := o.out }
  | .draw =>
    let d := Config.drawZNV tick (f.z, f.n, f.c, f.v) o.res
    { f with z := d.z, n := d.n, c := o.out, v := d.v }

/-- The bit BIT tests (R175, R92): a bit of the register for an index up to 15, by `BIT_INDEX_POLICY` above it; `none` where
the policy refuses. -/
def bitTested (policy : BitIndexPolicy) (v : Word) (n8 : Byte) : Option Bool :=
  if n8.toNat ≤ 15 then some (v.getLsbD n8.toNat)
  else
    match policy with
    | .refuse => none
    | .mod16 => some (v.getLsbD (n8.toNat % 16))
    | .zero => some false

/-- The flags after BIT: Z is the complement of the tested bit (R175). -/
def FReg.bitTest (f : FReg) (tested : Bool) : FReg := { f with z := !tested }

end Sys2Proof.Machine
end

