-- ==== Sys2Proof/Machine/Ops.lean ====
section
/-! DEFINITION. The named operations over registers and memory (spec/00_scope.md R8, R9, spec/20_memory.md R53 to R62), what
a step boundary allows (spec/60_exceptions.md R218, R222), interrupt entry (R219) and the return from it (R189). -/

namespace Sys2Proof.Machine

/-! ## Registers -/

/-- One register of the file. -/
def Regs.get (g : Regs) : Reg → Word
  | .r0 => g.r0
  | .r1 => g.r1
  | .r2 => g.r2
  | .r3 => g.r3
  | .r4 => g.r4
  | .r5 => g.r5
  | .r6 => g.r6
  | .r7 => g.r7

/-- The file with one register written. -/
def Regs.set (g : Regs) (r : Reg) (v : Word) : Regs :=
  match r with
  | .r0 => { g with r0 := v }
  | .r1 => { g with r1 := v }
  | .r2 => { g with r2 := v }
  | .r3 => { g with r3 := v }
  | .r4 => { g with r4 := v }
  | .r5 => { g with r5 := v }
  | .r6 => { g with r6 := v }
  | .r7 => { g with r7 := v }

/-- `x[r]` (R8). -/
def State.reg (s : State) (r : Reg) : Word := s.regs.get r

/-- `x[r] <- v` (R8). -/
def State.setReg (s : State) (r : Reg) (v : Word) : State := { s with regs := s.regs.set r v }

/-- `xb[r]` (R8): the low byte of a register. -/
def State.low (s : State) (r : Reg) : Byte := Word.lo (s.reg r)

/-- `xb[r] <- v` (R8): bits 15:8 keep their values. -/
def State.setLow (s : State) (r : Reg) (v : Byte) : State := s.setReg r (Word.hi (s.reg r) ++ v)

/-- `sp` (R8, R23). -/
def State.sp (s : State) : Word := s.reg .r7

/-- `pc <- t` (R8). -/
def State.setPc (s : State) (t : Word) : State := { s with pc := t }

/-- The F register written. -/
def State.setF (s : State) (f : FReg) : State := { s with f := f }

/-- `IME <- b` (R33). -/
def State.setIme (s : State) (b : Bool) : State := { s with ime := b }

/-- `halted <- b` (R34). -/
def State.setHalted (s : State) (b : Bool) : State := { s with halted := b }

/-- The memory written. -/
def State.setMem (s : State) (m : Memory) : State := { s with mem := m }

/-- `npc` (R8): the address of the instruction after `i`, where `i` stands at `pc`, by the lengths of `ENC` (R83). -/
def State.npc (s : State) (i : Instr) : Word := s.pc + BitVec.ofNat 16 (s.cfg.enc.ilen i)

/-- `pc <- npc`. -/
def State.advance (s : State) (i : Instr) : State := s.setPc (s.npc i)

/-! ## Memory -/

/-- Whether a range of MEMMAP holds an address. -/
def Region.holds (g : Region) (a : Word) : Bool := decide (g.first ≤ a.toNat) && decide (a.toNat ≤ g.last)

/-- What MEMMAP says of an address (R62, D23): the first range that holds it, plain memory where none does. -/
def regionIn : List Region → Word → RegionKind
  | [], _ => .plain
  | g :: rest, a => if Region.holds g a then g.kind else regionIn rest a

/-- What an address is for this machine. -/
def State.regionAt (s : State) (a : Word) : RegionKind := regionIn s.cfg.memmap a

/-- What a read of an address answers: the byte of memory, or the oracle's byte in a device region (U18). -/
def State.byteAt (s : State) (k : AccessKind) (a : Word) : Byte :=
  match s.regionAt a with
  | .device => Config.deviceByte s.tick k a
  | .plain => s.mem.read a
  | .readOnly => s.mem.read a
  | .unmapped => s.mem.read a

/-- One byte read, as data or by the fetch (`Fetch8` of R58): a fault in an unmapped or read-only range (U18, D23). -/
def State.readByte (s : State) (k : AccessKind) (a : Word) : Except Fault Byte :=
  match s.regionAt a with
  | .unmapped => .error (.unmapped a s.pc)
  | .readOnly => .error (.readOnly a s.pc)
  | .plain => .ok (s.byteAt k a)
  | .device => .ok (s.byteAt k a)

/-- One byte written: a fault in an unmapped or read-only range (U18, D23). DESIGN CHOICE (log 19): no effect on memory in a
device region. -/
def State.writeByte (s : State) (a : Word) (v : Byte) : Except Fault State :=
  match s.regionAt a with
  | .plain => .ok (s.setMem (s.mem.write a v))
  | .readOnly => .error (.readOnly a s.pc)
  | .unmapped => .error (.unmapped a s.pc)
  | .device => .ok s

/-- Whether a 16-bit access at an address is misaligned (R53). -/
def misaligned (a : Word) : Bool := a.getLsbD 0

/-- `MemRead(addr, 1)` (R54). -/
def State.memRead8 (s : State) (a : Word) : Except Fault Byte := s.readByte .data a

/-- `MemRead(addr, 2)` (R54): Bus Error at an odd address, else the two bytes in the order `ENDIAN` gives them. -/
def State.memRead16 (s : State) (a : Word) : Except Fault Word :=
  if misaligned a then .error (.busError a s.pc)
  else
    match s.readByte .data a with
    | .error e => .error e
    | .ok b0 =>
      match s.readByte .data (a + 1#16) with
      | .error e => .error e
      | .ok b1 => .ok (joinWord s.cfg.endian b0 b1)

/-- `MemWrite(addr, 1, v)` (R55). -/
def State.memWrite8 (s : State) (a : Word) (v : Byte) : Except Fault State := s.writeByte a v

/-- `MemWrite(addr, 2, v)` (R55): Bus Error at an odd address, else both bytes or, where one may not be written, none. -/
def State.memWrite16 (s : State) (a : Word) (v : Word) : Except Fault State :=
  if misaligned a then .error (.busError a s.pc)
  else
    match s.writeByte a (wordBytes s.cfg.endian v).1 with
    | .error e => .error e
    | .ok s' => s'.writeByte (a + 1#16) (wordBytes s.cfg.endian v).2

/-- `Push16(v)` (R60): `sp <- sp - 2`, then the word at the new `sp`. -/
def State.push16 (s : State) (v : Word) : Except Fault State :=
  (s.setReg .r7 (s.sp - 2#16)).memWrite16 (s.sp - 2#16) v

/-- `Pop16()` (R61): the word at `sp`, then `sp <- sp + 2`. -/
def State.pop16 (s : State) : Except Fault (Word × State) :=
  match s.memRead16 s.sp with
  | .error e => .error e
  | .ok t => .ok (t, s.setReg .r7 (s.sp + 2#16))

/-! ## Ends of a meaning -/

/-- A step that ends in a fault, or in the next state `k` makes of what was read or written. -/
def conclude {α : Type} (r : Except Fault α) (k : α → State) : Result :=
  match r with
  | .ok x => .next (k x)
  | .error e => .fault e

/-! ## Interrupts -/

/-- The interrupt source a request identifier names. -/
def sourceOf : List IntSource → Nat → Option IntSource
  | [], _ => none
  | c :: rest, k => if c.id = k then some c else sourceOf rest k

/-- The first request of a list that names a member of `INT_SOURCES` (R215, R221). -/
def firstSource (sources : List IntSource) : List Nat → Option IntSource
  | [] => none
  | k :: rest =>
    match sourceOf sources k with
    | some c => some c
    | none => firstSource sources rest

/-- The request that would be accepted at the present boundary: `none` when `IRQ` is empty (R35, R221). -/
def State.pending (s : State) : Option IntSource :=
  match s.env with
  | [] => none
  | b :: _ => firstSource s.cfg.intSources b.irq

/-- Whether the oracle has an open acceptance happen at the present boundary (R218). -/
def State.chosen (s : State) : Bool :=
  match s.env with
  | [] => false
  | b :: _ => b.enter

/-- What a step does (R11, R218, R222). -/
inductive StepKind where
  /-- The next instruction is fetched and executed (R11 (3), (4)). -/
  | instruction
  /-- Interrupt entry for an accepted request (R11 (2), R219). -/
  | entry (src : IntSource)
  /-- A halted CPU resumes with no entry (R222 c, `wake`). -/
  | wake
  /-- A halted CPU does nothing (R222 a, and c with `stay`). -/
  | idle
  /-- `HALT_WAKE_MASKED` is OPEN and would decide (R222 c). -/
  | openWake
  deriving DecidableEq, Repr

/-- What the step at the present boundary does (R11, R218, R222). -/
def State.stepKind (s : State) : StepKind :=
  match s.pending with
  | none => if s.halted then .idle else .instruction
  | some src =>
    if s.ime then
      if s.halted || s.chosen then .entry src else .instruction
    else if s.halted then
      match s.cfg.haltWake with
      | some .wake => .wake
      | some .stay => .idle
      | none => .openWake
    else .instruction

/-- The present boundary is past. -/
def State.passBoundary (s : State) : State := { s with env := s.env.tail }

/-- The state in which a step's work is done: the boundary is past, and the free values are new ones. -/
def State.beginStep (s : State) : State := { s with env := s.env.tail, tick := s.tick + 1 }

/-- Interrupt entry (R219): `halted <- 0; IME <- 0; Push16(pc); pc <- INT_VECTOR(s)`. A source without a vector is refused;
an odd `sp` is a Bus Error. DESIGN CHOICE (log 39): the record's pc (R211) of a fault of the entry, which executes no
instruction, is the interrupted `pc`, the address it was pushing. -/
def takeInterrupt (src : IntSource) (s : State) : Result :=
  match src.vector with
  | none => .refused (.intVectorOpen src.id)
  | some v => conclude (((s.setHalted false).setIme false).push16 s.pc) (fun s' => s'.setPc v)

/-- The return from an interrupt (R189): `pc <- Pop16(); IME <- 1`, and nothing else is restored (R220). -/
def returnFromInterrupt (s : State) : Result :=
  conclude s.pop16 (fun p => (p.2.setPc p.1).setIme true)

/-- The boundaries with no acceptance at the present one of a CPU that is not halted. -/
def quietBoundary : List Boundary → List Boundary
  | [] => []
  | b :: rest => { b with enter := false } :: rest

end Sys2Proof.Machine
end

