-- ==== Sys2Proof/Machine/Operands.lean ====
section
/-! DEFINITION. How an instruction writes its result and where a transfer of control goes: the shared last steps of the
meanings (spec/00_scope.md R8, R11, spec/30_encoding.md R91, spec/44_control_flow.md R183 to R188). -/

namespace Sys2Proof.Machine

/-! ## Results -/

/-- A word result into a register, the flags, and `pc <- npc`. -/
def State.putWord (s : State) (i : Instr) (d : Reg) (res : Word) (f : FReg) : State :=
  ((s.setReg d res).setF f).advance i

/-- A byte result into the low byte of a register, the flags, and `pc <- npc`. -/
def State.putLow (s : State) (i : Instr) (d : Reg) (res : Byte) (f : FReg) : State :=
  ((s.setLow d res).setF f).advance i

/-- The flags alone, and `pc <- npc`. -/
def State.putFlags (s : State) (i : Instr) (f : FReg) : State := (s.setF f).advance i

/-- The result of a shift or rotate into a register, the flags, and `pc <- npc` (R170). -/
def State.putShift (s : State) (i : Instr) (r : Reg) (o : ShiftOut) : State :=
  s.putWord i r o.res (s.f.shifted s.cfg.shiftZNV s.tick o)

/-! ## Transfers of control -/

/-- The target of a relative jump (R183): the sign-extended offset added to `npc`, modulo 2^16. -/
def State.relTarget (s : State) (i : Instr) (n8 : Byte) : Word := s.npc i + n8.signExtend 16

/-- `if cond(cc) then pc <- target else pc <- npc` (R184, R185). -/
def State.jumpIf (s : State) (cc : Cond) (i : Instr) (target : Word) : Result :=
  if s.f.holds cc then .next (s.setPc target) else .next (s.advance i)

/-- `Push16(npc); pc <- target` (R186). -/
def State.callTo (s : State) (i : Instr) (target : Word) : Result :=
  conclude (s.push16 (s.npc i)) (fun s' => s'.setPc target)

/-- `if cond(cc) then (Push16(npc); pc <- target) else pc <- npc` (R187). -/
def State.callIf (s : State) (cc : Cond) (i : Instr) (target : Word) : Result :=
  if s.f.holds cc then s.callTo i target else .next (s.advance i)

end Sys2Proof.Machine
end

