-- ==== Sys2Proof/Machine/Alu16.lean ====
section
/-! DEFINITION. The meanings of the 16-bit arithmetic and logic instructions (spec/41_alu16.md R130 to R146). R0 is the accumulator
of the one-operand forms. -/

namespace Sys2Proof.Machine

/-- `ADD rs` (R131): R0 = R0 + rs; Z, N, C, V. -/
def execAddReg (rs : Reg) (s : State) : Result :=
  let o := addW 16 (s.reg .r0) (s.reg rs)
  .next (s.putWord (.addReg rs) .r0 o.res (s.f.arith o))

/-- `ADD r, n16` (R132): r = r + n16; Z, N, C, V. -/
def execAddImm (r : Reg) (n16 : Word) (s : State) : Result :=
  let o := addW 16 (s.reg r) n16
  .next (s.putWord (.addImm r n16) r o.res (s.f.arith o))

/-- `SUB rs` (R133): R0 = R0 - rs; Z, N, C, V. -/
def execSubReg (rs : Reg) (s : State) : Result :=
  let o := subW s.cfg.subCarry 16 (s.reg .r0) (s.reg rs)
  .next (s.putWord (.subReg rs) .r0 o.res (s.f.arith o))

/-- `SUB r, n16` (R134): r = r - n16; Z, N, C, V. -/
def execSubImm (r : Reg) (n16 : Word) (s : State) : Result :=
  let o := subW s.cfg.subCarry 16 (s.reg r) n16
  .next (s.putWord (.subImm r n16) r o.res (s.f.arith o))

/-- `AND rs` (R135): R0 = R0 & rs; Z, N. -/
def execAndReg (rs : Reg) (s : State) : Result :=
  let res := s.reg .r0 &&& s.reg rs
  .next (s.putWord (.andReg rs) .r0 res (s.f.logic res))

/-- `AND r, n16` (R136): r = r & n16; Z, N. -/
def execAndImm (r : Reg) (n16 : Word) (s : State) : Result :=
  let res := s.reg r &&& n16
  .next (s.putWord (.andImm r n16) r res (s.f.logic res))

/-- `OR rs` (R137): R0 = R0 | rs; Z, N. -/
def execOrReg (rs : Reg) (s : State) : Result :=
  let res := s.reg .r0 ||| s.reg rs
  .next (s.putWord (.orReg rs) .r0 res (s.f.logic res))

/-- `OR r, n16` (R138): r = r | n16; Z, N. -/
def execOrImm (r : Reg) (n16 : Word) (s : State) : Result :=
  let res := s.reg r ||| n16
  .next (s.putWord (.orImm r n16) r res (s.f.logic res))

/-- `XOR rs` (R139): R0 = R0 ^ rs; Z, N. -/
def execXorReg (rs : Reg) (s : State) : Result :=
  let res := s.reg .r0 ^^^ s.reg rs
  .next (s.putWord (.xorReg rs) .r0 res (s.f.logic res))

/-- `XOR r, n16` (R140): r = r ^ n16; Z, N. -/
def execXorImm (r : Reg) (n16 : Word) (s : State) : Result :=
  let res := s.reg r ^^^ n16
  .next (s.putWord (.xorImm r n16) r res (s.f.logic res))

/-- `INC r` (R141): r = r + 1; Z, N, V, and C keeps its value. -/
def execIncReg (r : Reg) (s : State) : Result :=
  let o := addW 16 (s.reg r) 1#16
  .next (s.putWord (.incReg r) r o.res (s.f.count o))

/-- `DEC r` (R142): r = r - 1; Z, N, V, and C keeps its value. -/
def execDecReg (r : Reg) (s : State) : Result :=
  let o := subW s.cfg.subCarry 16 (s.reg r) 1#16
  .next (s.putWord (.decReg r) r o.res (s.f.count o))

/-- `CMP rs` (R143): R0 - rs sets Z, N, C, V; the result is discarded. -/
def execCmpReg (rs : Reg) (s : State) : Result :=
  .next (s.putFlags (.cmpReg rs) (s.f.arith (subW s.cfg.subCarry 16 (s.reg .r0) (s.reg rs))))

/-- `CMP r, n16` (R144): r - n16 sets Z, N, C, V; the result is discarded. -/
def execCmpImm (r : Reg) (n16 : Word) (s : State) : Result :=
  .next (s.putFlags (.cmpImm r n16) (s.f.arith (subW s.cfg.subCarry 16 (s.reg r) n16)))

end Sys2Proof.Machine
end

