-- ==== Sys2Proof/Machine/Alu8.lean ====
section
/-! DEFINITION. The meanings of the 8-bit arithmetic and logic instructions (spec/42_alu8.md R150 to R161). They read and write low
bytes only; R0.b is the accumulator of the one-operand forms. -/

namespace Sys2Proof.Machine

/-- `ADD.b rs` (R151): R0.b = R0.b + rs.b; Z, N, C, V on 8 bits. -/
def execAddbReg (rs : Reg) (s : State) : Result :=
  let o := addW 8 (s.low .r0) (s.low rs)
  .next (s.putLow (.addbReg rs) .r0 o.res (s.f.arith o))

/-- `ADD.b r, n8` (R152): r.b = r.b + n8; Z, N, C, V on 8 bits. -/
def execAddbImm (r : Reg) (n8 : Byte) (s : State) : Result :=
  let o := addW 8 (s.low r) n8
  .next (s.putLow (.addbImm r n8) r o.res (s.f.arith o))

/-- `SUB.b rs` (R153): R0.b = R0.b - rs.b; Z, N, C, V on 8 bits. -/
def execSubbReg (rs : Reg) (s : State) : Result :=
  let o := subW s.cfg.subCarry 8 (s.low .r0) (s.low rs)
  .next (s.putLow (.subbReg rs) .r0 o.res (s.f.arith o))

/-- `AND.b rs` (R154): R0.b = R0.b & rs.b; Z, N on 8 bits. -/
def execAndbReg (rs : Reg) (s : State) : Result :=
  let res := s.low .r0 &&& s.low rs
  .next (s.putLow (.andbReg rs) .r0 res (s.f.logic res))

/-- `OR.b rs` (R155): R0.b = R0.b | rs.b; Z, N on 8 bits. -/
def execOrbReg (rs : Reg) (s : State) : Result :=
  let res := s.low .r0 ||| s.low rs
  .next (s.putLow (.orbReg rs) .r0 res (s.f.logic res))

/-- `XOR.b rs` (R156): R0.b = R0.b ^ rs.b; Z, N on 8 bits. -/
def execXorbReg (rs : Reg) (s : State) : Result :=
  let res := s.low .r0 ^^^ s.low rs
  .next (s.putLow (.xorbReg rs) .r0 res (s.f.logic res))

/-- `INC.b r` (R157): r.b = r.b + 1; Z, N, V on 8 bits, and C keeps its value. -/
def execIncbReg (r : Reg) (s : State) : Result :=
  let o := addW 8 (s.low r) 1#8
  .next (s.putLow (.incbReg r) r o.res (s.f.count o))

/-- `DEC.b r` (R158): r.b = r.b - 1; Z, N, V on 8 bits, and C keeps its value. -/
def execDecbReg (r : Reg) (s : State) : Result :=
  let o := subW s.cfg.subCarry 8 (s.low r) 1#8
  .next (s.putLow (.decbReg r) r o.res (s.f.count o))

/-- `CMP.b rs` (R159): R0.b - rs.b sets Z, N, C, V on 8 bits; the result is discarded. -/
def execCmpbReg (rs : Reg) (s : State) : Result :=
  .next (s.putFlags (.cmpbReg rs) (s.f.arith (subW s.cfg.subCarry 8 (s.low .r0) (s.low rs))))

/-- `CMP.b r, n8` (R160): r.b - n8 sets Z, N, C, V on 8 bits; the result is discarded. -/
def execCmpbImm (r : Reg) (n8 : Byte) (s : State) : Result :=
  .next (s.putFlags (.cmpbImm r n8) (s.f.arith (subW s.cfg.subCarry 8 (s.low r) n8)))

end Sys2Proof.Machine
end

