-- ==== Sys2Proof/Machine/ControlFlow.lean ====
section
/-! DEFINITION. The meanings of the control flow instructions (spec/44_control_flow.md R180 to R190). None writes a flag. -/

namespace Sys2Proof.Machine

/-- `JMP n16` (R181): `pc <- n16`. -/
def execJmp (n16 : Word) (s : State) : Result :=
  .next (s.setPc n16)

/-- `JMP (r)` (R182): `pc <- x[r]`; memory is not read (C4). -/
def execJmpReg (r : Reg) (s : State) : Result :=
  .next (s.setPc (s.reg r))

/-- `JR n8` (R183): `pc <- npc + sext(n8)`. -/
def execJr (n8 : Byte) (s : State) : Result :=
  .next (s.setPc (s.relTarget (.jr n8) n8))

/-- `JZ n16` (R184): `pc <- n16` if Z = 1, else `pc <- npc`. -/
def execJz (n16 : Word) (s : State) : Result :=
  s.jumpIf .z (.jz n16) n16

/-- `JNZ n16` (R184): `pc <- n16` if Z = 0, else `pc <- npc`. -/
def execJnz (n16 : Word) (s : State) : Result :=
  s.jumpIf .nz (.jnz n16) n16

/-- `JC n16` (R184): `pc <- n16` if C = 1, else `pc <- npc`. -/
def execJc (n16 : Word) (s : State) : Result :=
  s.jumpIf .c (.jc n16) n16

/-- `JNC n16` (R184): `pc <- n16` if C = 0, else `pc <- npc`. -/
def execJnc (n16 : Word) (s : State) : Result :=
  s.jumpIf .nc (.jnc n16) n16

/-- `JN n16` (R184): `pc <- n16` if N = 1, else `pc <- npc`. -/
def execJn (n16 : Word) (s : State) : Result :=
  s.jumpIf .n (.jn n16) n16

/-- `JNN n16` (R184): `pc <- n16` if N = 0, else `pc <- npc`. -/
def execJnn (n16 : Word) (s : State) : Result :=
  s.jumpIf .nn (.jnn n16) n16

/-- `JV n16` (R184): `pc <- n16` if V = 1, else `pc <- npc`. -/
def execJv (n16 : Word) (s : State) : Result :=
  s.jumpIf .v (.jv n16) n16

/-- `JNV n16` (R184): `pc <- n16` if V = 0, else `pc <- npc`. -/
def execJnv (n16 : Word) (s : State) : Result :=
  s.jumpIf .nv (.jnv n16) n16

/-- `JRZ n8` (R185): `pc <- npc + sext(n8)` if Z = 1, else `pc <- npc`. -/
def execJrz (n8 : Byte) (s : State) : Result :=
  s.jumpIf .z (.jrz n8) (s.relTarget (.jrz n8) n8)

/-- `JRNZ n8` (R185): `pc <- npc + sext(n8)` if Z = 0, else `pc <- npc`. -/
def execJrnz (n8 : Byte) (s : State) : Result :=
  s.jumpIf .nz (.jrnz n8) (s.relTarget (.jrnz n8) n8)

/-- `JRC n8` (R185): `pc <- npc + sext(n8)` if C = 1, else `pc <- npc`. -/
def execJrc (n8 : Byte) (s : State) : Result :=
  s.jumpIf .c (.jrc n8) (s.relTarget (.jrc n8) n8)

/-- `JRNC n8` (R185): `pc <- npc + sext(n8)` if C = 0, else `pc <- npc`. -/
def execJrnc (n8 : Byte) (s : State) : Result :=
  s.jumpIf .nc (.jrnc n8) (s.relTarget (.jrnc n8) n8)

/-- `JRN n8` (R185): `pc <- npc + sext(n8)` if N = 1, else `pc <- npc`. -/
def execJrn (n8 : Byte) (s : State) : Result :=
  s.jumpIf .n (.jrn n8) (s.relTarget (.jrn n8) n8)

/-- `JRNN n8` (R185): `pc <- npc + sext(n8)` if N = 0, else `pc <- npc`. -/
def execJrnn (n8 : Byte) (s : State) : Result :=
  s.jumpIf .nn (.jrnn n8) (s.relTarget (.jrnn n8) n8)

/-- `JRV n8` (R185): `pc <- npc + sext(n8)` if V = 1, else `pc <- npc`. -/
def execJrv (n8 : Byte) (s : State) : Result :=
  s.jumpIf .v (.jrv n8) (s.relTarget (.jrv n8) n8)

/-- `JRNV n8` (R185): `pc <- npc + sext(n8)` if V = 0, else `pc <- npc`. -/
def execJrnv (n8 : Byte) (s : State) : Result :=
  s.jumpIf .nv (.jrnv n8) (s.relTarget (.jrnv n8) n8)

/-- `CALL n16` (R186): `Push16(npc); pc <- n16`. -/
def execCall (n16 : Word) (s : State) : Result :=
  s.callTo (.call n16) n16

/-- `CALLZ n16` (R187): a call if Z = 1, else `pc <- npc` with nothing pushed. -/
def execCallz (n16 : Word) (s : State) : Result :=
  s.callIf .z (.callz n16) n16

/-- `CALLNZ n16` (R187): a call if Z = 0, else `pc <- npc` with nothing pushed. -/
def execCallnz (n16 : Word) (s : State) : Result :=
  s.callIf .nz (.callnz n16) n16

/-- `CALLC n16` (R187): a call if C = 1, else `pc <- npc` with nothing pushed. -/
def execCallc (n16 : Word) (s : State) : Result :=
  s.callIf .c (.callc n16) n16

/-- `CALLNC n16` (R187): a call if C = 0, else `pc <- npc` with nothing pushed. -/
def execCallnc (n16 : Word) (s : State) : Result :=
  s.callIf .nc (.callnc n16) n16

/-- `CALLN n16` (R187): a call if N = 1, else `pc <- npc` with nothing pushed. -/
def execCalln (n16 : Word) (s : State) : Result :=
  s.callIf .n (.calln n16) n16

/-- `CALLNN n16` (R187): a call if N = 0, else `pc <- npc` with nothing pushed. -/
def execCallnn (n16 : Word) (s : State) : Result :=
  s.callIf .nn (.callnn n16) n16

/-- `CALLV n16` (R187): a call if V = 1, else `pc <- npc` with nothing pushed. -/
def execCallv (n16 : Word) (s : State) : Result :=
  s.callIf .v (.callv n16) n16

/-- `CALLNV n16` (R187): a call if V = 0, else `pc <- npc` with nothing pushed. -/
def execCallnv (n16 : Word) (s : State) : Result :=
  s.callIf .nv (.callnv n16) n16

/-- `RET` (R188): `pc <- Pop16()`. -/
def execRet (s : State) : Result :=
  conclude s.pop16 (fun p => p.2.setPc p.1)

/-- `RETI` (R189): `pc <- Pop16(); IME <- 1`. -/
def execReti (s : State) : Result :=
  returnFromInterrupt s

end Sys2Proof.Machine
end

