-- ==== Sys2Proof/Machine/CpuControl.lean ====
section
/-! DEFINITION. The meanings of the CPU control instructions (spec/45_cpu_control.md R200 to R203). -/

namespace Sys2Proof.Machine

/-- `NOP` (R200): `pc <- npc`. -/
def execNop (s : State) : Result :=
  .next (s.advance .nop)

/-- `HALT` (R201): `halted <- 1; pc <- npc`; IME is not changed. -/
def execHalt (s : State) : Result :=
  .next ((s.setHalted true).advance .halt)

/-- `DI` (R202): `IME <- 0; pc <- npc`. -/
def execDi (s : State) : Result :=
  .next ((s.setIme false).advance .di)

/-- `EI` (R203): `IME <- 1; pc <- npc`. -/
def execEi (s : State) : Result :=
  .next ((s.setIme true).advance .ei)

end Sys2Proof.Machine
end

