-- ==== Sys2Proof/Machine/LoadStore.lean ====
section
/-! DEFINITION. The meanings of the load and store instructions (spec/40_load_store.md R110 to R119). -/

namespace Sys2Proof.Machine

/-- `LD rd, rs` (R110): a register copied; no flag. -/
def execLdReg (rd : Reg) (rs : Reg) (s : State) : Result :=
  .next ((s.setReg rd (s.reg rs)).advance (.ldReg rd rs))

/-- `LD r, n16` (R111): an immediate word into a register; no flag. -/
def execLdImm (r : Reg) (n16 : Word) (s : State) : Result :=
  .next ((s.setReg r n16).advance (.ldImm r n16))

/-- `LD.w rd, (rs)` (R112): the word at the address in `rs`; no flag. -/
def execLdwInd (rd : Reg) (rs : Reg) (s : State) : Result :=
  conclude (s.memRead16 (s.reg rs)) (fun t => (s.setReg rd t).advance (.ldwInd rd rs))

/-- `LD.b rd, (rs)` (R113): the byte at the address in `rs`, zero-extended to all 16 bits of `rd`; no flag. -/
def execLdbInd (rd : Reg) (rs : Reg) (s : State) : Result :=
  conclude (s.memRead8 (s.reg rs)) (fun t => (s.setReg rd (t.zeroExtend 16)).advance (.ldbInd rd rs))

/-- `ST.w (rd), rs` (R114): the word in `rs` to the address in `rd`; no flag. -/
def execStwInd (rd : Reg) (rs : Reg) (s : State) : Result :=
  conclude (s.memWrite16 (s.reg rd) (s.reg rs)) (fun s' => s'.advance (.stwInd rd rs))

/-- `ST.b (rd), rs` (R115): the low byte of `rs` to the address in `rd`; no flag. -/
def execStbInd (rd : Reg) (rs : Reg) (s : State) : Result :=
  conclude (s.memWrite8 (s.reg rd) (s.low rs)) (fun s' => s'.advance (.stbInd rd rs))

/-- `LD.w r, (n16)` (R116): the word at an absolute address; no flag. -/
def execLdwAbs (r : Reg) (n16 : Word) (s : State) : Result :=
  conclude (s.memRead16 n16) (fun t => (s.setReg r t).advance (.ldwAbs r n16))

/-- `ST.w (n16), r` (R117): a register to an absolute address; no flag. -/
def execStwAbs (n16 : Word) (r : Reg) (s : State) : Result :=
  conclude (s.memWrite16 n16 (s.reg r)) (fun s' => s'.advance (.stwAbs n16 r))

/-- `PUSH r` (R118): a register onto the stack; no flag. `PUSH R7` is refused (R214), or stores a free word under the policy
`free` (log 7). -/
def execPush (r : Reg) (s : State) : Result :=
  if r = .r7 then
    match s.cfg.spOperand with
    | .refuse => .refused .pushSp
    | .free => conclude (s.push16 (Config.spWord s.tick s.sp)) (fun s' => s'.advance (.push r))
  else conclude (s.push16 (s.reg r)) (fun s' => s'.advance (.push r))

/-- `POP r` (R119): the top of the stack into a register; no flag. `POP R7` is refused (R214), or leaves a free word in R7
under the policy `free` (log 7). -/
def execPop (r : Reg) (s : State) : Result :=
  if r = .r7 then
    match s.cfg.spOperand with
    | .refuse => .refused .popSp
    | .free => conclude s.pop16 (fun p => (p.2.setReg .r7 (Config.spWord s.tick s.sp)).advance (.pop r))
  else conclude s.pop16 (fun p => (p.2.setReg r p.1).advance (.pop r))

end Sys2Proof.Machine
end

