-- ==== Sys2Proof/Machine/ShiftBit.lean ====
section
/-! DEFINITION. The meanings of the rotate, shift and bit instructions (spec/43_shift_bit.md R170 to R175). -/

namespace Sys2Proof.Machine

/-- `SHL r` (R171): C <- bit 15, 0 enters bit 0; Z, N, V by `SHIFT_ZNV`. -/
def execShl (r : Reg) (s : State) : Result :=
  .next (s.putShift (.shl r) r (shiftLeft (s.reg r) false))

/-- `SHR r` (R172): C <- bit 0, 0 enters bit 15; Z, N, V by `SHIFT_ZNV`. -/
def execShr (r : Reg) (s : State) : Result :=
  .next (s.putShift (.shr r) r (shiftRight (s.reg r) false))

/-- `ROL r` (R173): C <- bit 15, the old C enters bit 0; Z, N, V by `SHIFT_ZNV`. -/
def execRol (r : Reg) (s : State) : Result :=
  .next (s.putShift (.rol r) r (shiftLeft (s.reg r) s.f.c))

/-- `ROR r` (R174): C <- bit 0, the old C enters bit 15; Z, N, V by `SHIFT_ZNV`. -/
def execRor (r : Reg) (s : State) : Result :=
  .next (s.putShift (.ror r) r (shiftRight (s.reg r) s.f.c))

/-- `BIT r, n8` (R175): Z is the complement of bit n8 of r; an index above 15 goes by `BIT_INDEX_POLICY` (R214, log 6). -/
def execBit (r : Reg) (n8 : Byte) (s : State) : Result :=
  match bitTested s.cfg.bitIndex (s.reg r) n8 with
  | some tested => .next (s.putFlags (.bit r n8) (s.f.bitTest tested))
  | none => .refused (.bitIndex n8)

end Sys2Proof.Machine
end

