-- ==== Sys2Proof/Machine/Dispatch.lean ====
section
/-! DEFINITION. The instruction dispatch: one arm for each constructor of `Instr`, each a direct call of its meaning. -/

namespace Sys2Proof.Machine

def exec (i : Instr) (s : State) : Host.Outcome State Fault Refusal :=
  match i with
  | .ldReg rd rs => Sys2Proof.Machine.execLdReg rd rs s
  | .ldImm r n16 => Sys2Proof.Machine.execLdImm r n16 s
  | .ldwInd rd rs => Sys2Proof.Machine.execLdwInd rd rs s
  | .ldbInd rd rs => Sys2Proof.Machine.execLdbInd rd rs s
  | .stwInd rd rs => Sys2Proof.Machine.execStwInd rd rs s
  | .stbInd rd rs => Sys2Proof.Machine.execStbInd rd rs s
  | .ldwAbs r n16 => Sys2Proof.Machine.execLdwAbs r n16 s
  | .stwAbs n16 r => Sys2Proof.Machine.execStwAbs n16 r s
  | .push r => Sys2Proof.Machine.execPush r s
  | .pop r => Sys2Proof.Machine.execPop r s
  | .addReg rs => Sys2Proof.Machine.execAddReg rs s
  | .addImm r n16 => Sys2Proof.Machine.execAddImm r n16 s
  | .subReg rs => Sys2Proof.Machine.execSubReg rs s
  | .subImm r n16 => Sys2Proof.Machine.execSubImm r n16 s
  | .andReg rs => Sys2Proof.Machine.execAndReg rs s
  | .andImm r n16 => Sys2Proof.Machine.execAndImm r n16 s
  | .orReg rs => Sys2Proof.Machine.execOrReg rs s
  | .orImm r n16 => Sys2Proof.Machine.execOrImm r n16 s
  | .xorReg rs => Sys2Proof.Machine.execXorReg rs s
  | .xorImm r n16 => Sys2Proof.Machine.execXorImm r n16 s
  | .incReg r => Sys2Proof.Machine.execIncReg r s
  | .decReg r => Sys2Proof.Machine.execDecReg r s
  | .cmpReg rs => Sys2Proof.Machine.execCmpReg rs s
  | .cmpImm r n16 => Sys2Proof.Machine.execCmpImm r n16 s
  | .addbReg rs => Sys2Proof.Machine.execAddbReg rs s
  | .addbImm r n8 => Sys2Proof.Machine.execAddbImm r n8 s
  | .subbReg rs => Sys2Proof.Machine.execSubbReg rs s
  | .andbReg rs => Sys2Proof.Machine.execAndbReg rs s
  | .orbReg rs => Sys2Proof.Machine.execOrbReg rs s
  | .xorbReg rs => Sys2Proof.Machine.execXorbReg rs s
  | .incbReg r => Sys2Proof.Machine.execIncbReg r s
  | .decbReg r => Sys2Proof.Machine.execDecbReg r s
  | .cmpbReg rs => Sys2Proof.Machine.execCmpbReg rs s
  | .cmpbImm r n8 => Sys2Proof.Machine.execCmpbImm r n8 s
  | .shl r => Sys2Proof.Machine.execShl r s
  | .shr r => Sys2Proof.Machine.execShr r s
  | .rol r => Sys2Proof.Machine.execRol r s
  | .ror r => Sys2Proof.Machine.execRor r s
  | .bit r n8 => Sys2Proof.Machine.execBit r n8 s
  | .jmp n16 => Sys2Proof.Machine.execJmp n16 s
  | .jmpReg r => Sys2Proof.Machine.execJmpReg r s
  | .jr n8 => Sys2Proof.Machine.execJr n8 s
  | .jz n16 => Sys2Proof.Machine.execJz n16 s
  | .jnz n16 => Sys2Proof.Machine.execJnz n16 s
  | .jc n16 => Sys2Proof.Machine.execJc n16 s
  | .jnc n16 => Sys2Proof.Machine.execJnc n16 s
  | .jn n16 => Sys2Proof.Machine.execJn n16 s
  | .jnn n16 => Sys2Proof.Machine.execJnn n16 s
  | .jv n16 => Sys2Proof.Machine.execJv n16 s
  | .jnv n16 => Sys2Proof.Machine.execJnv n16 s
  | .jrz n8 => Sys2Proof.Machine.execJrz n8 s
  | .jrnz n8 => Sys2Proof.Machine.execJrnz n8 s
  | .jrc n8 => Sys2Proof.Machine.execJrc n8 s
  | .jrnc n8 => Sys2Proof.Machine.execJrnc n8 s
  | .jrn n8 => Sys2Proof.Machine.execJrn n8 s
  | .jrnn n8 => Sys2Proof.Machine.execJrnn n8 s
  | .jrv n8 => Sys2Proof.Machine.execJrv n8 s
  | .jrnv n8 => Sys2Proof.Machine.execJrnv n8 s
  | .call n16 => Sys2Proof.Machine.execCall n16 s
  | .callz n16 => Sys2Proof.Machine.execCallz n16 s
  | .callnz n16 => Sys2Proof.Machine.execCallnz n16 s
  | .callc n16 => Sys2Proof.Machine.execCallc n16 s
  | .callnc n16 => Sys2Proof.Machine.execCallnc n16 s
  | .calln n16 => Sys2Proof.Machine.execCalln n16 s
  | .callnn n16 => Sys2Proof.Machine.execCallnn n16 s
  | .callv n16 => Sys2Proof.Machine.execCallv n16 s
  | .callnv n16 => Sys2Proof.Machine.execCallnv n16 s
  | .ret => Sys2Proof.Machine.execRet s
  | .reti => Sys2Proof.Machine.execReti s
  | .nop => Sys2Proof.Machine.execNop s
  | .halt => Sys2Proof.Machine.execHalt s
  | .di => Sys2Proof.Machine.execDi s
  | .ei => Sys2Proof.Machine.execEi s

end Sys2Proof.Machine
end

