-- ==== Sys2Proof/Machine/Fetch.lean ====
section
/-! DEFINITION. Fetching and decoding an instruction (spec/00_scope.md R11 (3), spec/20_memory.md R58, spec/30_encoding.md R82),
under any `ENC`. -/

namespace Sys2Proof.Machine

/-- The instruction that begins with the bytes `got`, the next of which stands at `a`: byte after byte by `Fetch8`, addresses
modulo 2^16 (R58), until they decode or are illegal. At most `n` more bytes are read. -/
def State.fetchMore (s : State) (a : Word) (got : List Byte) : Nat → Except Fault Instr
  | 0 => .error (.illegalInstruction s.pc)
  | n + 1 =>
    match s.readByte .fetch a with
    | .error e => .error e
    | .ok b =>
      match decodeWith s.cfg.enc s.cfg.endian (got ++ [b]) with
      | .ok (i, _) => .ok i
      | .error .unassigned => .error (.illegalInstruction s.pc)
      | .error .truncated => s.fetchMore (a + 1#16) (got ++ [b]) n

/-- The instruction at `pc` (R11 (3), R82): a fault of the fetch, or `IllegalInstruction(pc)` for an unassigned encoding
(R213). -/
def State.fetchInstr (s : State) : Except Fault Instr := s.fetchMore s.pc [] s.cfg.enc.longest

end Sys2Proof.Machine
end

