-- ==== Sys2Proof/Machine/Step.lean ====
section
/-! DEFINITION. One step of the CPU agent (spec/00_scope.md R11). -/

namespace Sys2Proof.Machine

/-- Fetch, decode and execute at `pc` (R11 (3), (4)). -/
def runInstr (s : State) : Host.Outcome State Fault Refusal :=
  match s.fetchInstr with
  | .error e => .fault e
  | .ok i => exec i s

/-- One step (R11): an instruction, an interrupt entry (R219), a wake without entry or nothing while halted (R222). -/
def step (s : State) : Host.Outcome State Fault Refusal :=
  match s.stepKind with
  | .instruction => runInstr s.beginStep
  | .entry src => takeInterrupt src s.beginStep
  | .wake => .next (s.passBoundary.setHalted false)
  | .idle => .next s.passBoundary
  | .openWake => .refused .haltWakeOpen

/-- `s` with an opcode-table word stored at `pc` (log 3, log 30), and the next step free to run it: `ENC` is ENC_P, whose word
it is, the CPU is not halted, and no interrupt is accepted at the present boundary. -/
def State.withFetchWord (s : State) (nbits w : Nat) : State :=
  { s with
    mem := s.mem.place s.pc (tableBytes nbits w)
    halted := false
    env := quietBoundary s.env
    cfg := { s.cfg with enc := .encP } }

end Sys2Proof.Machine
end

