-- ==== Sys2Proof/Machine/Timing.lean ====
section
/-! DEFINITION. The Cycles and Bytes columns of the source, as data (spec/00_scope.md R3, spec/70_reset_and_hazards.md R246).
No step depends on them (R4 e, R247, log 29). -/

namespace Sys2Proof.Machine

/-- A cell of the Cycles column: the count when the condition is met, and when it is not. They are equal where the source
gives one number. -/
structure Cycles where
  met : Nat
  notMet : Nat
  deriving DecidableEq, Repr

/-- The Cycles column (R246). -/
def instrCycles : Instr → Cycles
  | .ldReg _ _ | .addReg _ | .subReg _ | .andReg _ | .orReg _ | .xorReg _ | .incReg _ | .decReg _ | .cmpReg _
  | .addbReg _ | .subbReg _ | .andbReg _ | .orbReg _ | .xorbReg _ | .incbReg _ | .decbReg _ | .cmpbReg _
  | .shl _ | .shr _ | .rol _ | .ror _ | .nop | .halt | .di | .ei => ⟨4, 4⟩
  | .jrz _ | .jrnz _ | .jrc _ | .jrnc _ | .jrn _ | .jrnn _ | .jrv _ | .jrnv _ => ⟨8, 4⟩
  | .ldImm _ _ | .addImm _ _ | .subImm _ _ | .andImm _ _ | .orImm _ _ | .xorImm _ _ | .cmpImm _ _
  | .addbImm _ _ | .cmpbImm _ _ | .bit _ _ | .jmpReg _ | .jr _ => ⟨8, 8⟩
  | .jz _ | .jnz _ | .jc _ | .jnc _ | .jn _ | .jnn _ | .jv _ | .jnv _ => ⟨12, 8⟩
  | .ldwInd _ _ | .ldbInd _ _ | .stwInd _ _ | .stbInd _ _ | .ldwAbs _ _ | .stwAbs _ _ | .push _ | .pop _
  | .jmp _ => ⟨12, 12⟩
  | .ret | .reti => ⟨16, 16⟩
  | .callz _ | .callnz _ | .callc _ | .callnc _ | .calln _ | .callnn _ | .callv _ | .callnv _ => ⟨20, 8⟩
  | .call _ => ⟨20, 20⟩

/-- The Bytes column of the source (R81, R246). It differs from `Instr.ilen` in the nine rows of R83. -/
def sourceBytes : Instr → Nat
  | .ldReg _ _ | .push _ | .pop _ | .addReg _ | .subReg _ | .andReg _ | .orReg _ | .xorReg _ | .incReg _
  | .decReg _ | .cmpReg _ | .addbReg _ | .subbReg _ | .andbReg _ | .orbReg _ | .xorbReg _ | .incbReg _
  | .decbReg _ | .cmpbReg _ | .shl _ | .shr _ | .rol _ | .ror _ | .jmpReg _ | .ret | .reti | .nop | .halt | .di
  | .ei => 1
  | .ldwInd _ _ | .ldbInd _ _ | .stwInd _ _ | .stbInd _ _ | .addbImm _ _ | .cmpbImm _ _ | .bit _ _ | .jr _
  | .jrz _ | .jrnz _ | .jrc _ | .jrnc _ | .jrn _ | .jrnn _ | .jrv _ | .jrnv _ => 2
  | .ldImm _ _ | .ldwAbs _ _ | .stwAbs _ _ | .addImm _ _ | .subImm _ _ | .andImm _ _ | .orImm _ _ | .xorImm _ _
  | .cmpImm _ _ | .jmp _ | .jz _ | .jnz _ | .jc _ | .jnc _ | .jn _ | .jnn _ | .jv _ | .jnv _ | .call _
  | .callz _ | .callnz _ | .callc _ | .callnc _ | .calln _ | .callnn _ | .callv _ | .callnv _ => 3

end Sys2Proof.Machine
end

