-- ==== Sys2Proof/Safety.lean ====
section
/-! DEFINITION. What claims about runs are stated in: reachable states, the premise NoIRQ (spec/60_exceptions.md R215), the end
of a run (spec/70_reset_and_hazards.md R242), safe steps, and the model's invariant. -/

namespace Sys2Proof.Machine

/-- The premise NoIRQ (R215): the platform has no interrupt source. -/
abbrev NoIRQ (s : State) : Prop := s.cfg.intSources = []

/-- The end of a run (R242): halted, interrupts disabled, and none can arrive. -/
abbrev EndOfRun (s : State) : Prop := s.halted = true ∧ s.ime = false ∧ NoIRQ s

/-- The invariant of the model: the memory is in its canonical form. -/
abbrev Inv (s : State) : Prop := s.mem.wf = true

/-- A step that ends neither in a fault nor in a refusal (R211, R214). -/
def SafeStep (s : State) : Prop := ∃ t, step s = .next t

/-- The states that `k` steps lead to. -/
inductive Reaches : Nat → State → State → Prop where
  | refl (s : State) : Reaches 0 s s
  | step {k : Nat} {s t u : State} : Reaches k s t → Machine.step t = .next u → Reaches (k + 1) s u

/-- A state that a run from reset reaches, for some values of what the spec leaves unspecified after reset. -/
def Reachable (s : State) : Prop := ∃ p k, p.mem.wf = true ∧ Reaches k (State.resetWith p) s

end Sys2Proof.Machine
end

