-- ==== Sys2Proof/Certificates/Slice0/Obligations.lean ====
section
/-! DEFINITION. The statements for the provers, after the words they are made of. Numbers are written out (toNat, toInt) where a
rule of the spec gives a number, so that a statement does not repeat a definition of the model. -/

namespace Sys2Proof.Machine.Claims

/-! ## Words the statements are made of -/

/-- `i` answers a next state, and that state satisfies `P`. -/
def Does (i : Instr) (s : State) (P : State → Prop) : Prop := ∃ t, exec i s = .next t ∧ P t

/-- The number of a register (R88). -/
def regNum : Reg → Nat
  | .r0 => 0 | .r1 => 1 | .r2 => 2 | .r3 => 3 | .r4 => 4 | .r5 => 5 | .r6 => 6 | .r7 => 7

/-- The number of a condition (R89). -/
def condNum : Cond → Nat
  | .z => 0 | .nz => 1 | .c => 2 | .nc => 3 | .n => 4 | .nn => 5 | .v => 6 | .nv => 7

/-- A byte given by its number. -/
def byte (n : Nat) : Byte := BitVec.ofNat 8 n

/-- The byte of a word at the lower address (R52). -/
def firstByte (e : Endian) (w : Word) : Byte :=
  match e with
  | .little => byte (w.toNat % 256)
  | .big => byte (w.toNat / 256)

/-- The byte of a word at the higher address (R52). -/
def secondByte (e : Endian) (w : Word) : Byte :=
  match e with
  | .little => byte (w.toNat / 256)
  | .big => byte (w.toNat % 256)

/-- The number two bytes make, the one at the lower address first (R52, R54). -/
def wordValue (e : Endian) (a b : Byte) : Nat :=
  match e with
  | .little => a.toNat + 256 * b.toNat
  | .big => 256 * a.toNat + b.toNat

/-- The bytes of an instruction under ENC_P in either byte order, their number, which is `ilen`, and its cycles (R83, R246). -/
def HasForm (i : Instr) (bytes : Endian → List Byte) (met notMet : Nat) : Prop :=
  (∀ e, encode e i = bytes e ∧ Encoding.ilen .encP i = (bytes e).length) ∧ instrCycles i = ⟨met, notMet⟩

/-- The address after an instruction that stands at `pc` (R8), by the lengths of whatever `ENC` is (R83). -/
def nextPc (i : Instr) (s : State) : Word := s.pc + BitVec.ofNat 16 (s.cfg.enc.ilen i)

/-- No register changes but those listed. -/
def RegsKeptBut (ds : List Reg) (s t : State) : Prop := ∀ r, r ∉ ds → t.reg r = s.reg r

/-- Every byte of memory reads as before. -/
def MemKept (s t : State) : Prop := ∀ a, t.mem.read a = s.mem.read a

/-- The interrupt enable, the halt state and all that is no CPU state are as before. -/
def ControlKept (s t : State) : Prop :=
  t.ime = s.ime ∧ t.halted = s.halted ∧ t.env = s.env ∧ t.cfg = s.cfg ∧ t.tick = s.tick

/-- The frame of an instruction that writes the listed registers and flags, and nothing else but `pc`. -/
def Frame (ds : List Reg) (s t : State) : Prop :=
  RegsKeptBut ds s t ∧ MemKept s t ∧ ControlKept s t ∧ t.f.reserved = s.f.reserved

/-- An address that an access may use: plain memory, or a device's (R62). Any access to another faults (U18, D23). -/
def Usable (s : State) (a : Word) : Prop := s.regionAt a = .plain ∨ s.regionAt a = .device

/-- An even address whose two bytes an access may use. -/
def UsableWord (s : State) (a : Word) : Prop := a.toNat % 2 = 0 ∧ Usable s a ∧ Usable s (a + 1#16)

/-- The fault of an access to an address it may not use (R212). -/
def shutFault (s : State) (a : Word) : Fault :=
  if s.regionAt a = .unmapped then .unmapped a s.pc else .readOnly a s.pc

/-- The number a word read at `a` gives. -/
def loaded (s : State) (a : Word) : Nat := wordValue s.cfg.endian (s.byteAt .data a) (s.byteAt .data (a + 1#16))

/-- `t`'s memory is `s`'s with the word `v` stored at `a`: each byte to its address where that is plain memory (a device
region keeps nothing: the model's choice, log 19), and every other byte as before. -/
def StoresWord (s t : State) (a v : Word) : Prop :=
  (∀ b, b ≠ a → b ≠ a + 1#16 → t.mem.read b = s.mem.read b) ∧
  (t.mem.read a = if s.regionAt a = .plain then firstByte s.cfg.endian v else s.mem.read a) ∧
  (t.mem.read (a + 1#16) =
    if s.regionAt (a + 1#16) = .plain then secondByte s.cfg.endian v else s.mem.read (a + 1#16))

/-- Z and N of a result of width `w` (R28, R29). -/
def ZNOf {w : Nat} (res : BitVec w) (f : FReg) : Prop :=
  (f.z = true ↔ res.toNat = 0) ∧ (f.n = true ↔ 2 ^ (w - 1) ≤ res.toNat)

/-- V of an exact signed result: it does not fit the width (R31). -/
def VOf (w : Nat) (exact : Int) (f : FReg) : Prop :=
  f.v = true ↔ ¬ (-(2 ^ (w - 1) : Int) ≤ exact ∧ exact < (2 ^ (w - 1) : Int))

/-- `res` is `a + b` modulo 2^w. -/
def IsSum {w : Nat} (a b res : BitVec w) : Prop := res.toNat = (a.toNat + b.toNat) % 2 ^ w

/-- `res` is `a - b` modulo 2^w. -/
def IsDiff {w : Nat} (a b res : BitVec w) : Prop := (res.toNat : Int) = ((a.toNat : Int) - b.toNat) % (2 ^ w : Nat)

/-- Z, N, C, V of `a + b` (R10). -/
def SumFlags {w : Nat} (a b res : BitVec w) (f : FReg) : Prop :=
  ZNOf res f ∧ (f.c = true ↔ 2 ^ w ≤ a.toNat + b.toNat) ∧ VOf w (a.toInt + b.toInt) f

/-- C of `a - b` under either value of `SUB_CARRY` (R10). -/
def BorrowFlag {w : Nat} (p : SubCarry) (a b : BitVec w) (f : FReg) : Prop :=
  (p = .borrow → (f.c = true ↔ a.toNat < b.toNat)) ∧ (p = .notBorrow → (f.c = true ↔ b.toNat ≤ a.toNat))

/-- Z, N, C, V of `a - b` (R10). -/
def DiffFlags {w : Nat} (p : SubCarry) (a b res : BitVec w) (f : FReg) : Prop :=
  ZNOf res f ∧ BorrowFlag p a b f ∧ VOf w (a.toInt - b.toInt) f

/-- A byte of a register changes and its upper byte does not. -/
def UpperKept (d : Reg) (s t : State) : Prop := (t.reg d).toNat / 256 = (s.reg d).toNat / 256

/-- Instruction `i` adds `a` and `b` into register `d`. -/
def Adds16 (i : Instr) (d : Reg) (a b : State → Word) : Prop :=
  ∀ s, Does i s fun t => IsSum (a s) (b s) (t.reg d) ∧ SumFlags (a s) (b s) (t.reg d) t.f ∧
    t.pc = nextPc i s ∧ Frame [d] s t

/-- Instruction `i` subtracts `b` from `a` into register `d`. -/
def Subs16 (i : Instr) (d : Reg) (a b : State → Word) : Prop :=
  ∀ s, Does i s fun t => IsDiff (a s) (b s) (t.reg d) ∧ DiffFlags s.cfg.subCarry (a s) (b s) (t.reg d) t.f ∧
    t.pc = nextPc i s ∧ Frame [d] s t

/-- Instruction `i` compares `a` with `b`: the flags of the difference, no register. -/
def Compares {w : Nat} (i : Instr) (a b : State → BitVec w) : Prop :=
  ∀ s, Does i s fun t => (∃ res, IsDiff (a s) (b s) res ∧ DiffFlags s.cfg.subCarry (a s) (b s) res t.f) ∧
    t.pc = nextPc i s ∧ Frame [] s t

/-- Instruction `i` writes the bits `op (a bit) (b bit)` into register `d`, Z and N from them, and keeps C and V. -/
def Logics16 (i : Instr) (op : Bool → Bool → Bool) (d : Reg) (a b : State → Word) : Prop :=
  ∀ s, Does i s fun t => (∀ k < 16, (t.reg d).getLsbD k = op ((a s).getLsbD k) ((b s).getLsbD k)) ∧
    ZNOf (t.reg d) t.f ∧ t.f.c = s.f.c ∧ t.f.v = s.f.v ∧ t.pc = nextPc i s ∧ Frame [d] s t

/-- The byte twin of `Logics16`: the low byte of `d` is written and its upper byte kept. -/
def Logics8 (i : Instr) (op : Bool → Bool → Bool) (d : Reg) (a b : State → Byte) : Prop :=
  ∀ s, Does i s fun t => (∀ k < 8, (t.low d).getLsbD k = op ((a s).getLsbD k) ((b s).getLsbD k)) ∧ UpperKept d s t ∧
    ZNOf (t.low d) t.f ∧ t.f.c = s.f.c ∧ t.f.v = s.f.v ∧ t.pc = nextPc i s ∧ Frame [d] s t

/-- The byte twin of `Adds16`. -/
def Adds8 (i : Instr) (d : Reg) (a b : State → Byte) : Prop :=
  ∀ s, Does i s fun t => IsSum (a s) (b s) (t.low d) ∧ UpperKept d s t ∧ SumFlags (a s) (b s) (t.low d) t.f ∧
    t.pc = nextPc i s ∧ Frame [d] s t

/-- The byte twin of `Subs16`. -/
def Subs8 (i : Instr) (d : Reg) (a b : State → Byte) : Prop :=
  ∀ s, Does i s fun t => IsDiff (a s) (b s) (t.low d) ∧ UpperKept d s t ∧
    DiffFlags s.cfg.subCarry (a s) (b s) (t.low d) t.f ∧ t.pc = nextPc i s ∧ Frame [d] s t

/-- Z, N and V after a shift or rotate, where `SHIFT_ZNV` fixes them (R170). Under `draw` nothing is said. -/
def ShiftZNVKept (s t : State) (r : Reg) : Prop :=
  (s.cfg.shiftZNV = .unchanged → t.f.z = s.f.z ∧ t.f.n = s.f.n ∧ t.f.v = s.f.v) ∧
  (s.cfg.shiftZNV = .fromResult → ZNOf (t.reg r) t.f ∧ t.f.v = s.f.v)

/-- Instruction `i` leaves the number `res` in register `r` and the bit `out` in C. -/
def Shifts (i : Instr) (r : Reg) (res : State → Nat) (out : State → Prop) : Prop :=
  ∀ s, Does i s fun t => (t.reg r).toNat = res s ∧ (t.f.c = true ↔ out s) ∧ ShiftZNVKept s t r ∧
    t.pc = nextPc i s ∧ Frame [r] s t

/-- The old C as a number. -/
def carryIn (s : State) : Nat := if s.f.c then 1 else 0

/-- A transfer of control to `target`: nothing but `pc` changes. -/
def GoesTo (i : Instr) (s : State) (target : Word) : Prop :=
  Does i s fun t => t.pc = target ∧ t.f = s.f ∧ Frame [] s t

/-- A call to `target` with return address `ret` (R186): the word at the new `sp`, and nothing else but `sp` and `pc`. -/
def CallsTo (i : Instr) (s : State) (ret target : Word) : Prop :=
  Does i s fun t => t.pc = target ∧ t.sp = s.sp - 2#16 ∧ StoresWord s t (s.sp - 2#16) ret ∧ t.f = s.f ∧
    RegsKeptBut [.r7] s t ∧ ControlKept s t

/-- The flag a condition reads, and the value it wants (R180). -/
def CondHolds (f : FReg) : Cond → Prop
  | .z => f.z = true
  | .nz => f.z = false
  | .c => f.c = true
  | .nc => f.c = false
  | .n => f.n = true
  | .nn => f.n = false
  | .v => f.v = true
  | .nv => f.v = false

/-- `target` is `base` plus a signed offset, modulo 2^16 (R183). -/
def IsRelative (target base : Word) (n8 : Byte) : Prop := (target.toNat : Int) = ((base.toNat : Int) + n8.toInt) % 65536

/-- None of the beginnings of some bytes, but for the empty one, is an instruction or illegal: the fetch reads on. -/
def Undecided (s : State) (bytes : List Byte) : Prop :=
  ∀ n, 0 < n → n ≤ bytes.length → decodeWith s.cfg.enc s.cfg.endian (bytes.take n) = .error .truncated

/-- The bytes of the fetch at an address and after it, modulo 2^16 (R58). -/
def FetchesAt (s : State) (a : Word) : List Byte → Prop
  | [] => True
  | b :: rest => s.readByte .fetch a = .ok b ∧ FetchesAt s (a + 1#16) rest

/-- The address of the 16-bit data access an instruction makes (R53, R56). -/
def wordAccess (s : State) : Instr → Option Word
  | .ldwInd _ rs => some (s.reg rs)
  | .stwInd rd _ => some (s.reg rd)
  | .ldwAbs _ n16 => some n16
  | .stwAbs n16 _ => some n16
  | .push r => if r = .r7 ∧ s.cfg.spOperand = .refuse then none else some (s.sp - 2#16)
  | .pop r => if r = .r7 ∧ s.cfg.spOperand = .refuse then none else some s.sp
  | .call _ => some (s.sp - 2#16)
  | .callz _ => if s.f.z then some (s.sp - 2#16) else none
  | .callnz _ => if s.f.z then none else some (s.sp - 2#16)
  | .callc _ => if s.f.c then some (s.sp - 2#16) else none
  | .callnc _ => if s.f.c then none else some (s.sp - 2#16)
  | .calln _ => if s.f.n then some (s.sp - 2#16) else none
  | .callnn _ => if s.f.n then none else some (s.sp - 2#16)
  | .callv _ => if s.f.v then some (s.sp - 2#16) else none
  | .callnv _ => if s.f.v then none else some (s.sp - 2#16)
  | .ret => some s.sp
  | .reti => some s.sp
  | .ldReg _ _ | .ldImm _ _ | .ldbInd _ _ | .stbInd _ _ | .addReg _ | .addImm _ _ | .subReg _ | .subImm _ _
  | .andReg _ | .andImm _ _ | .orReg _ | .orImm _ _ | .xorReg _ | .xorImm _ _ | .incReg _ | .decReg _
  | .cmpReg _ | .cmpImm _ _ | .addbReg _ | .addbImm _ _ | .subbReg _ | .andbReg _ | .orbReg _ | .xorbReg _
  | .incbReg _ | .decbReg _ | .cmpbReg _ | .cmpbImm _ _ | .shl _ | .shr _ | .rol _ | .ror _ | .bit _ _ | .jmp _
  | .jmpReg _ | .jr _ | .jz _ | .jnz _ | .jc _ | .jnc _ | .jn _ | .jnn _ | .jv _ | .jnv _ | .jrz _ | .jrnz _
  | .jrc _ | .jrnc _ | .jrn _ | .jrnn _ | .jrv _ | .jrnv _ | .nop | .halt | .di | .ei => none

/-- The addresses of the bytes an instruction stores to (R56). -/
def storedBytes (s : State) : Instr → List Word
  | .stwInd rd _ => [s.reg rd, s.reg rd + 1#16]
  | .stbInd rd _ => [s.reg rd]
  | .stwAbs n16 _ => [n16, n16 + 1#16]
  | .push _ => [s.sp - 2#16, s.sp - 2#16 + 1#16]
  | .call _ => [s.sp - 2#16, s.sp - 2#16 + 1#16]
  | .callz _ => if s.f.z then [s.sp - 2#16, s.sp - 2#16 + 1#16] else []
  | .callnz _ => if s.f.z then [] else [s.sp - 2#16, s.sp - 2#16 + 1#16]
  | .callc _ => if s.f.c then [s.sp - 2#16, s.sp - 2#16 + 1#16] else []
  | .callnc _ => if s.f.c then [] else [s.sp - 2#16, s.sp - 2#16 + 1#16]
  | .calln _ => if s.f.n then [s.sp - 2#16, s.sp - 2#16 + 1#16] else []
  | .callnn _ => if s.f.n then [] else [s.sp - 2#16, s.sp - 2#16 + 1#16]
  | .callv _ => if s.f.v then [s.sp - 2#16, s.sp - 2#16 + 1#16] else []
  | .callnv _ => if s.f.v then [] else [s.sp - 2#16, s.sp - 2#16 + 1#16]
  | .ldReg _ _ | .ldImm _ _ | .ldwInd _ _ | .ldbInd _ _ | .ldwAbs _ _ | .pop _ | .addReg _ | .addImm _ _
  | .subReg _ | .subImm _ _ | .andReg _ | .andImm _ _ | .orReg _ | .orImm _ _ | .xorReg _ | .xorImm _ _
  | .incReg _ | .decReg _ | .cmpReg _ | .cmpImm _ _ | .addbReg _ | .addbImm _ _ | .subbReg _ | .andbReg _
  | .orbReg _ | .xorbReg _ | .incbReg _ | .decbReg _ | .cmpbReg _ | .cmpbImm _ _ | .shl _ | .shr _ | .rol _
  | .ror _ | .bit _ _ | .jmp _ | .jmpReg _ | .jr _ | .jz _ | .jnz _ | .jc _ | .jnc _ | .jn _ | .jnn _ | .jv _
  | .jnv _ | .jrz _ | .jrnz _ | .jrc _ | .jrnc _ | .jrn _ | .jrnn _ | .jrv _ | .jrnv _ | .ret | .reti | .nop
  | .halt | .di | .ei => []

/-- `b` is the first of the two addresses of the word at `a` that satisfies `P`. -/
def FirstOfTwo (P : Word → Prop) (a b : Word) : Prop := (b = a ∧ P a) ∨ (b = a + 1#16 ∧ ¬ P a ∧ P b)

/-- The registers an instruction writes (R21, R24, and the rule of each instruction). -/
def writtenRegs (s : State) : Instr → List Reg
  | .ldReg rd _ | .ldwInd rd _ | .ldbInd rd _ => [rd]
  | .ldImm r _ | .ldwAbs r _ => [r]
  | .push _ => [.r7]
  | .pop r => [r, .r7]
  | .addReg _ | .subReg _ | .andReg _ | .orReg _ | .xorReg _ => [.r0]
  | .addbReg _ | .subbReg _ | .andbReg _ | .orbReg _ | .xorbReg _ => [.r0]
  | .addImm r _ | .subImm r _ | .andImm r _ | .orImm r _ | .xorImm r _ | .addbImm r _ => [r]
  | .incReg r | .decReg r | .incbReg r | .decbReg r => [r]
  | .shl r | .shr r | .rol r | .ror r => [r]
  | .call _ | .ret | .reti => [.r7]
  | .callz _ => if s.f.z then [.r7] else []
  | .callnz _ => if s.f.z then [] else [.r7]
  | .callc _ => if s.f.c then [.r7] else []
  | .callnc _ => if s.f.c then [] else [.r7]
  | .calln _ => if s.f.n then [.r7] else []
  | .callnn _ => if s.f.n then [] else [.r7]
  | .callv _ => if s.f.v then [.r7] else []
  | .callnv _ => if s.f.v then [] else [.r7]
  | .stwInd _ _ | .stbInd _ _ | .stwAbs _ _ | .cmpReg _ | .cmpImm _ _ | .cmpbReg _ | .cmpbImm _ _ | .bit _ _
  | .jmp _ | .jmpReg _ | .jr _ | .jz _ | .jnz _ | .jc _ | .jnc _ | .jn _ | .jnn _ | .jv _ | .jnv _ | .jrz _
  | .jrnz _ | .jrc _ | .jrnc _ | .jrn _ | .jrnn _ | .jrv _ | .jrnv _ | .nop | .halt | .di | .ei => []

/-- One row of the table of flag writers (R36): whether Z, N, C, V may change. -/
structure FlagRow where
  z : Bool
  n : Bool
  c : Bool
  v : Bool

/-- The table of flag writers (R36). In the row of the shifts the letter P is read by `SHIFT_ZNV`. -/
def flagRow (p : ShiftZNV) : Instr → FlagRow
  | .addReg _ | .addImm _ _ | .addbReg _ | .addbImm _ _ => ⟨true, true, true, true⟩
  | .subReg _ | .subImm _ _ | .subbReg _ => ⟨true, true, true, true⟩
  | .cmpReg _ | .cmpImm _ _ | .cmpbReg _ | .cmpbImm _ _ => ⟨true, true, true, true⟩
  | .andReg _ | .andImm _ _ | .andbReg _ => ⟨true, true, false, false⟩
  | .orReg _ | .orImm _ _ | .orbReg _ => ⟨true, true, false, false⟩
  | .xorReg _ | .xorImm _ _ | .xorbReg _ => ⟨true, true, false, false⟩
  | .incReg _ | .decReg _ | .incbReg _ | .decbReg _ => ⟨true, true, false, true⟩
  | .shl _ | .shr _ | .rol _ | .ror _ => ⟨p != .unchanged, p != .unchanged, true, p == .draw⟩
  | .bit _ _ => ⟨true, false, false, false⟩
  | .ldReg _ _ | .ldImm _ _ | .ldwInd _ _ | .ldbInd _ _ | .stwInd _ _ | .stbInd _ _ | .ldwAbs _ _ | .stwAbs _ _
  | .push _ | .pop _ | .jmp _ | .jmpReg _ | .jr _ | .jz _ | .jnz _ | .jc _ | .jnc _ | .jn _ | .jnn _ | .jv _
  | .jnv _ | .jrz _ | .jrnz _ | .jrc _ | .jrnc _ | .jrn _ | .jrnn _ | .jrv _ | .jrnv _ | .call _ | .callz _
  | .callnz _ | .callc _ | .callnc _ | .calln _ | .callnn _ | .callv _ | .callnv _ | .ret | .reti | .nop | .halt
  | .di | .ei => ⟨false, false, false, false⟩

/-- Seventeen rotations to the left, one after another. -/
def RotatesLeft (r : Reg) : Nat → State → State → Prop
  | 0, s, t => t = s
  | k + 1, s, t => ∃ u, exec (.rol r) s = .next u ∧ RotatesLeft r k u t

/-- What a program can see of the CPU: registers, PC, F, and memory. -/
def CpuKept (s t : State) : Prop :=
  (∀ r, t.reg r = s.reg r) ∧ t.pc = s.pc ∧ t.f = s.f ∧ MemKept s t

/-- A halted CPU did nothing while a boundary passed. -/
def StaysHalted (s t : State) : Prop :=
  CpuKept s t ∧ t.halted = true ∧ t.ime = s.ime ∧ t.env = s.env.tail ∧ t.cfg = s.cfg ∧ t.tick = s.tick

end Sys2Proof.Machine.Claims

open Sys2Proof Sys2Proof.Machine Sys2Proof.Machine.Claims

/-! ## Encoding -/

/-- R82, R84 to R90, over all instructions: decoding what the encoder writes gives the instruction back, with every operand at
every value, in either byte order, whatever bytes follow. -/
def Obligations.EncodedInstructionDecodesBack : Prop :=
  ∀ (e : Endian) (i : Instr) (rest : List Byte), decode e (encode e i ++ rest) = .ok (i, rest)

/-- R82: no byte string is two instructions, and every decoded instruction is its own encoding: the other direction. -/
def Obligations.DecodedBytesAreTheEncoding : Prop :=
  ∀ (e : Endian) (bytes rest : List Byte) (i : Instr), decode e bytes = .ok (i, rest) → bytes = encode e i ++ rest

/-- R82, R93: three or more bytes are rejected exactly when they begin with an unassigned encoding. -/
def Obligations.RejectedExactlyWhenUnassigned : Prop :=
  ∀ (e : Endian) (b0 b1 b2 : Byte) (rest : List Byte),
    (∃ err, decode e (b0 :: b1 :: b2 :: rest) = .error err) ↔
      b0.toNat = 0x06 ∨ b0.toNat = 0x07 ∨ b0.toNat = 0x0B ∨ b0.toNat = 0x0C ∨ b0.toNat = 0x0D ∨
        (b0.toNat = 0x0F ∧ 0x80 ≤ b1.toNat)

/-- R6, R83, R95: under ENC_P the first byte tells the length, which is `ilen` and 1, 2 or 3; under any ENC, decoding an
instruction takes `ilen` bytes, the length function of that ENC. -/
def Obligations.FirstByteTellsLength : Prop :=
  (∀ (e : Endian) (i : Instr), ∃ b0 rest, encode e i = b0 :: rest ∧ fetchLength b0 = rest.length + 1 ∧
    Encoding.ilen .encP i = rest.length + 1 ∧ rest.length ≤ 2) ∧
  (∀ (enc : Encoding) (e : Endian) (bytes rest : List Byte) (i : Instr), enc.WellFormed →
    decodeWith enc e bytes = .ok (i, rest) → bytes.length = enc.ilen i + rest.length)

/-- Words written out from R85 to R90 decode to the instructions they stand for. -/
def Obligations.WordsOfTheSpecDecode : Prop :=
  decode .little [0x10#8, 0x00#8, 0x80#8] = .ok (.ldImm .r0 0x8000#16, []) ∧
  decode .big [0x10#8, 0x80#8, 0x00#8] = .ok (.ldImm .r0 0x8000#16, []) ∧
  decode .little [0x0E#8, 0xA5#8] = .ok (.stwInd .r4 .r5, []) ∧
  decode .little [0x41#8] = .ok (.addReg .r1, []) ∧
  decode .little [0x0F#8, 0x7A#8] = .ok (.decbReg .r2, []) ∧
  decode .little [0xE3#8, 0x0F#8] = .ok (.bit .r3 15#8, []) ∧
  decode .little [0xF1#8, 0xFC#8] = .ok (.jrnz 0xFC#8, []) ∧
  decode .little [0x05#8] = .ok (.reti, []) ∧
  decode .little [0x02#8] = .ok (.di, [])

/-! ## The step -/

/-- R11, R58: under any ENC, when the step at this boundary is an instruction and the bytes at `pc` and after it decode to `i` as
soon as the last of them is read, the step is `exec i`, in the state whose boundary is past and whose free values are new. -/
def Obligations.StepRunsDecodedInstruction : Prop :=
  ∀ (s : State) (got rest : List Byte) (b : Byte) (i : Instr), s.stepKind = .instruction →
    FetchesAt s.beginStep s.pc (got ++ [b]) → Undecided s got →
    decodeWith s.cfg.enc s.cfg.endian (got ++ [b]) = .ok (i, rest) → step s = exec i s.beginStep

/-- R11, R58, R82, R99: under ENC_P, when the bytes at `pc`, `pc + 1`, `pc + 2` (modulo 2^16) are the encoding of `i`, the step is
`exec i`. -/
def Obligations.StepRunsInstructionStoredAtPc : Prop :=
  ∀ (s : State) (i : Instr), s.stepKind = .instruction → s.cfg.enc = .encP →
    FetchesAt s.beginStep s.pc (encode s.cfg.endian i) → step s = exec i s.beginStep

/-- R93, R213: fetching an unassigned encoding is the fault IllegalInstruction(pc): those of ENC_P, and of any other ENC its own. -/
def Obligations.UnassignedFetchFaults : Prop :=
  ∀ (s : State), s.stepKind = .instruction →
    (∀ b0, s.cfg.enc = .encP → s.beginStep.readByte .fetch s.pc = .ok b0 →
      b0.toNat = 0x06 ∨ b0.toNat = 0x07 ∨ b0.toNat = 0x0B ∨ b0.toNat = 0x0C ∨ b0.toNat = 0x0D →
      step s = .fault (.illegalInstruction s.pc)) ∧
    (∀ b1, s.cfg.enc = .encP → s.beginStep.readByte .fetch s.pc = .ok 0x0F#8 →
      s.beginStep.readByte .fetch (s.pc + 1#16) = .ok b1 → 0x80 ≤ b1.toNat → step s = .fault (.illegalInstruction s.pc)) ∧
    (∀ got b, FetchesAt s.beginStep s.pc (got ++ [b]) → Undecided s got →
      decodeWith s.cfg.enc s.cfg.endian (got ++ [b]) = .error .unassigned → step s = .fault (.illegalInstruction s.pc))

/-- The memory's canonical form is kept by every step, from every state that has it. -/
def Obligations.EveryStepKeepsCanonicalMemory : Prop :=
  ∀ (s t : State), Inv s → step s = .next t → Inv t

/-- The memory after reset has its canonical form. -/
def Obligations.ResetMemoryIsCanonical : Prop := Inv State.reset

/-- R37, R240: after reset, whatever the unspecified state holds, the CPU is not halted and `pc` and `IME` are the parameters
RESET_PC and RESET_IME. The values of `State.reset` itself are the model's choice (log 8 to 14) and nothing is said of them. -/
def Obligations.ResetLeavesCpuRunning : Prop :=
  ∀ p : ResetParams, (State.resetWith p).halted = false ∧ (State.resetWith p).pc = p.resetPc ∧
    (State.resetWith p).ime = p.resetIme

/-- R32, R38: no step of any kind changes F bits 11:0 or a parameter. -/
def Obligations.NoStepChangesReservedBitsOrParameters : Prop :=
  ∀ (s t : State), step s = .next t → t.f.reserved = s.f.reserved ∧ t.cfg = s.cfg

/-- R33: `IME` is written by DI, EI, RETI and interrupt entry alone, as each of them writes it. -/
def Obligations.InterruptEnableChangesOnlyAsListed : Prop :=
  ∀ (s t : State), step s = .next t → t.ime ≠ s.ime →
    (∃ src, s.stepKind = .entry src ∧ t.ime = false) ∨
    (s.stepKind = .instruction ∧ s.beginStep.fetchInstr = .ok .di ∧ t.ime = false) ∨
    (s.stepKind = .instruction ∧ s.beginStep.fetchInstr = .ok .ei ∧ t.ime = true) ∨
    (s.stepKind = .instruction ∧ s.beginStep.fetchInstr = .ok .reti ∧ t.ime = true)

/-- R34: `halted` is set by HALT alone, and cleared by interrupt entry and by the wake rule alone. -/
def Obligations.HaltStateChangesOnlyAsListed : Prop :=
  ∀ (s t : State), step s = .next t →
    (s.halted = false → t.halted = true → s.stepKind = .instruction ∧ s.beginStep.fetchInstr = .ok .halt) ∧
    (s.halted = true → t.halted = false → (∃ src, s.stepKind = .entry src) ∨ s.stepKind = .wake)

/-! ## Rules over all instructions -/

/-- R36: the complete table of flag writers: a flag an instruction is not listed for keeps its value. -/
def Obligations.FlagsChangeOnlyAsListed : Prop :=
  ∀ (i : Instr) (s t : State), exec i s = .next t →
    ((flagRow s.cfg.shiftZNV i).z = false → t.f.z = s.f.z) ∧ ((flagRow s.cfg.shiftZNV i).n = false → t.f.n = s.f.n) ∧
    ((flagRow s.cfg.shiftZNV i).c = false → t.f.c = s.f.c) ∧ ((flagRow s.cfg.shiftZNV i).v = false → t.f.v = s.f.v)

/-- R56: memory changes at the bytes an instruction is listed as storing to and nowhere else. -/
def Obligations.MemoryChangesOnlyAsListed : Prop :=
  ∀ (i : Instr) (s t : State), exec i s = .next t → ∀ b, b ∉ storedBytes s i → t.mem.read b = s.mem.read b

/-- R21 to R24: an instruction changes the registers its rule writes and no other. -/
def Obligations.RegistersChangeOnlyAsListed : Prop :=
  ∀ (i : Instr) (s t : State), exec i s = .next t → RegsKeptBut (writtenRegs s i) s t

/-- R53, R212: Bus Error is raised by, and only by, a 16-bit data access at an odd address, with that address and the
instruction's `pc` as its record. -/
def Obligations.BusErrorExactlyWhenWordAccessIsOdd : Prop :=
  ∀ (i : Instr) (s : State) (a p : Word),
    exec i s = .fault (.busError a p) ↔ wordAccess s i = some a ∧ a.toNat % 2 = 1 ∧ p = s.pc

/-- R214: an instruction that is not one of the refused forms is never refused. -/
def Obligations.WellFormedInstructionIsNeverRefused : Prop :=
  ∀ (i : Instr) (s : State) (q : Refusal), i.wellFormed = true → exec i s ≠ .refused q

/-- R118, R119, R175, R214: `PUSH R7`, `POP R7` and BIT with an index above 15 are refused under the spec's decisions. -/
def Obligations.RefusedOperandForms : Prop :=
  ∀ s : State,
    (s.cfg.spOperand = .refuse → exec (.push .r7) s = .refused .pushSp ∧ exec (.pop .r7) s = .refused .popSp) ∧
    (∀ (r : Reg) (n8 : Byte), s.cfg.bitIndex = .refuse → 15 < n8.toNat → exec (.bit r n8) s = .refused (.bitIndex n8))

/-- The model's own policy `free` (log 7; no rule of the spec): `PUSH R7` moves `sp` and stores a free word there (a device
region keeps nothing: log 19), `POP R7` ends with a free word in R7, and everything else is as R118 and R119 give it for the
other registers. -/
def Obligations.FreePolicyRunsPushAndPopOfSp : Prop :=
  ∀ s : State, s.cfg.spOperand = .free →
    (UsableWord s (s.sp - 2#16) → Does (.push .r7) s fun t => t.sp = s.sp - 2#16 ∧
      (∃ v, StoresWord s t (s.sp - 2#16) v) ∧ t.pc = nextPc (.push .r7) s ∧ t.f = s.f ∧ RegsKeptBut [.r7] s t ∧ ControlKept s t) ∧
    (UsableWord s s.sp → Does (.pop .r7) s fun t => t.pc = nextPc (.pop .r7) s ∧ t.f = s.f ∧ Frame [.r7] s t)

/-! ## Load and store -/

/-- R110, R111. -/
def Obligations.RegisterLoadsCopy : Prop :=
  (∀ rd rs, HasForm (.ldReg rd rs) (fun _ => [0x0F#8, byte (8 * regNum rd + regNum rs)]) 4 4) ∧
  (∀ rd rs s, Does (.ldReg rd rs) s fun t =>
    t.reg rd = s.reg rs ∧ t.pc = nextPc (.ldReg rd rs) s ∧ t.f = s.f ∧ Frame [rd] s t) ∧
  (∀ r n16, HasForm (.ldImm r n16) (fun e => [byte (0x10 + regNum r), firstByte e n16, secondByte e n16]) 8 8) ∧
  (∀ r n16 s, Does (.ldImm r n16) s fun t => t.reg r = n16 ∧ t.pc = nextPc (.ldImm r n16) s ∧ t.f = s.f ∧ Frame [r] s t)

/-- R112, R116: a word load answers the word at its address, and faults at an odd one. -/
def Obligations.WordLoadsReadTheWord : Prop :=
  (∀ rd rs, HasForm (.ldwInd rd rs) (fun _ => [0x0E#8, byte (8 * regNum rd + regNum rs)]) 12 12) ∧
  (∀ rd rs s, (UsableWord s (s.reg rs) → Does (.ldwInd rd rs) s fun t =>
      (t.reg rd).toNat = loaded s (s.reg rs) ∧ t.pc = nextPc (.ldwInd rd rs) s ∧ t.f = s.f ∧ Frame [rd] s t) ∧
    ((s.reg rs).toNat % 2 = 1 → exec (.ldwInd rd rs) s = .fault (.busError (s.reg rs) s.pc))) ∧
  (∀ r n16, HasForm (.ldwAbs r n16) (fun e => [byte (0x18 + regNum r), firstByte e n16, secondByte e n16]) 12 12) ∧
  (∀ r n16 s, (UsableWord s n16 → Does (.ldwAbs r n16) s fun t =>
      (t.reg r).toNat = loaded s n16 ∧ t.pc = nextPc (.ldwAbs r n16) s ∧ t.f = s.f ∧ Frame [r] s t) ∧
    (n16.toNat % 2 = 1 → exec (.ldwAbs r n16) s = .fault (.busError n16 s.pc)))

/-- R113: a byte load writes all 16 bits of its register, the upper eight with 0, at odd and even addresses alike. -/
def Obligations.ByteLoadZeroExtends : Prop :=
  (∀ rd rs, HasForm (.ldbInd rd rs) (fun _ => [0x0E#8, byte (0x40 + 8 * regNum rd + regNum rs)]) 12 12) ∧
  (∀ rd rs s, Usable s (s.reg rs) → Does (.ldbInd rd rs) s fun t =>
    (t.reg rd).toNat = (s.byteAt .data (s.reg rs)).toNat ∧ t.pc = nextPc (.ldbInd rd rs) s ∧ t.f = s.f ∧ Frame [rd] s t)

/-- R114, R117: a word store writes the two bytes of the word at its address, and faults at an odd one. -/
def Obligations.WordStoresWriteTheWord : Prop :=
  (∀ rd rs, HasForm (.stwInd rd rs) (fun _ => [0x0E#8, byte (0x80 + 8 * regNum rd + regNum rs)]) 12 12) ∧
  (∀ rd rs s, (UsableWord s (s.reg rd) → Does (.stwInd rd rs) s fun t =>
      StoresWord s t (s.reg rd) (s.reg rs) ∧ t.pc = nextPc (.stwInd rd rs) s ∧ t.f = s.f ∧ RegsKeptBut [] s t ∧ ControlKept s t) ∧
    ((s.reg rd).toNat % 2 = 1 → exec (.stwInd rd rs) s = .fault (.busError (s.reg rd) s.pc))) ∧
  (∀ n16 r, HasForm (.stwAbs n16 r) (fun e => [byte (0x20 + regNum r), firstByte e n16, secondByte e n16]) 12 12) ∧
  (∀ n16 r s, (UsableWord s n16 → Does (.stwAbs n16 r) s fun t =>
      StoresWord s t n16 (s.reg r) ∧ t.pc = nextPc (.stwAbs n16 r) s ∧ t.f = s.f ∧ RegsKeptBut [] s t ∧ ControlKept s t) ∧
    (n16.toNat % 2 = 1 → exec (.stwAbs n16 r) s = .fault (.busError n16 s.pc)))

/-- R115: a byte store writes the low byte of its register at its address, odd or even, and no other byte. -/
def Obligations.ByteStoreWritesOneByte : Prop :=
  (∀ rd rs, HasForm (.stbInd rd rs) (fun _ => [0x0E#8, byte (0xC0 + 8 * regNum rd + regNum rs)]) 12 12) ∧
  (∀ rd rs s, Usable s (s.reg rd) → Does (.stbInd rd rs) s fun t =>
    (∀ b, b ≠ s.reg rd → t.mem.read b = s.mem.read b) ∧
    (t.mem.read (s.reg rd) =
      if s.regionAt (s.reg rd) = .plain then byte ((s.reg rs).toNat % 256) else s.mem.read (s.reg rd)) ∧
    t.pc = nextPc (.stbInd rd rs) s ∧ t.f = s.f ∧ RegsKeptBut [] s t ∧ ControlKept s t)

/-- R60, R118: a push stores the register's word at `sp - 2`, which becomes `sp`. A device region keeps nothing: the model's choice
(log 19). R7 is in RefusedOperandForms and FreePolicyRunsPushAndPopOfSp. -/
def Obligations.PushStoresAtTheNewTop : Prop :=
  (∀ r, HasForm (.push r) (fun _ => [byte (0x28 + regNum r)]) 12 12) ∧
  ∀ (r : Reg) (s : State), r ≠ .r7 →
    (UsableWord s (s.sp - 2#16) → Does (.push r) s fun t => t.sp = s.sp - 2#16 ∧
      StoresWord s t (s.sp - 2#16) (s.reg r) ∧ t.pc = nextPc (.push r) s ∧ t.f = s.f ∧ RegsKeptBut [.r7] s t ∧ ControlKept s t) ∧
    (s.sp.toNat % 2 = 1 → exec (.push r) s = .fault (.busError (s.sp - 2#16) s.pc))

/-- R61, R119: a pop reads the word at `sp` into the register and adds 2 to `sp`. R7 is in RefusedOperandForms and
FreePolicyRunsPushAndPopOfSp. -/
def Obligations.PopReadsTheTop : Prop :=
  (∀ r, HasForm (.pop r) (fun _ => [byte (0x30 + regNum r)]) 12 12) ∧
  ∀ (r : Reg) (s : State), r ≠ .r7 →
    (UsableWord s s.sp → Does (.pop r) s fun t => (t.reg r).toNat = loaded s s.sp ∧ t.sp = s.sp + 2#16 ∧
      t.pc = nextPc (.pop r) s ∧ t.f = s.f ∧ Frame [r, .r7] s t) ∧
    (s.sp.toNat % 2 = 1 → exec (.pop r) s = .fault (.busError s.sp s.pc))

/-- R61: on a stack of plain memory, a pop right after a push gives the pushed word and restores `sp`. -/
def Obligations.PopAfterPushRestores : Prop :=
  ∀ (q r : Reg) (s t : State), q ≠ .r7 → r ≠ .r7 → s.regionAt (s.sp - 2#16) = .plain →
    s.regionAt (s.sp - 2#16 + 1#16) = .plain → exec (.push q) s = .next t →
    Does (.pop r) t fun u => u.reg r = s.reg q ∧ u.sp = s.sp

/-! ## 16-bit arithmetic and logic -/

/-- R131, R132. -/
def Obligations.AdditionsOfWords : Prop :=
  (∀ rs, HasForm (.addReg rs) (fun _ => [byte (0x40 + regNum rs)]) 4 4 ∧
    Adds16 (.addReg rs) .r0 (fun s => s.reg .r0) (fun s => s.reg rs)) ∧
  (∀ r n16, HasForm (.addImm r n16) (fun e => [byte (0x80 + regNum r), firstByte e n16, secondByte e n16]) 8 8 ∧
    Adds16 (.addImm r n16) r (fun s => s.reg r) (fun _ => n16))

/-- R133, R134, under either value of SUB_CARRY. -/
def Obligations.SubtractionsOfWords : Prop :=
  (∀ rs, HasForm (.subReg rs) (fun _ => [byte (0x48 + regNum rs)]) 4 4 ∧
    Subs16 (.subReg rs) .r0 (fun s => s.reg .r0) (fun s => s.reg rs)) ∧
  (∀ r n16, HasForm (.subImm r n16) (fun e => [byte (0x88 + regNum r), firstByte e n16, secondByte e n16]) 8 8 ∧
    Subs16 (.subImm r n16) r (fun s => s.reg r) (fun _ => n16))

/-- R143, R144, under either value of SUB_CARRY. -/
def Obligations.ComparisonsOfWords : Prop :=
  (∀ rs, HasForm (.cmpReg rs) (fun _ => [byte (0x68 + regNum rs)]) 4 4 ∧
    Compares (.cmpReg rs) (fun s => s.reg .r0) (fun s => s.reg rs)) ∧
  (∀ r n16, HasForm (.cmpImm r n16) (fun e => [byte (0xA8 + regNum r), firstByte e n16, secondByte e n16]) 8 8 ∧
    Compares (.cmpImm r n16) (fun s => s.reg r) (fun _ => n16))

/-- R135 to R140: bit by bit, Z and N from the result, C and V kept. -/
def Obligations.LogicOfWords : Prop :=
  (∀ rs, HasForm (.andReg rs) (fun _ => [byte (0x50 + regNum rs)]) 4 4 ∧
    HasForm (.orReg rs) (fun _ => [byte (0x58 + regNum rs)]) 4 4 ∧
    HasForm (.xorReg rs) (fun _ => [byte (0x60 + regNum rs)]) 4 4) ∧
  (∀ r n16, HasForm (.andImm r n16) (fun e => [byte (0x90 + regNum r), firstByte e n16, secondByte e n16]) 8 8 ∧
    HasForm (.orImm r n16) (fun e => [byte (0x98 + regNum r), firstByte e n16, secondByte e n16]) 8 8 ∧
    HasForm (.xorImm r n16) (fun e => [byte (0xA0 + regNum r), firstByte e n16, secondByte e n16]) 8 8) ∧
  (∀ rs, Logics16 (.andReg rs) (fun a b => a && b) .r0 (fun s => s.reg .r0) (fun s => s.reg rs) ∧
    Logics16 (.orReg rs) (fun a b => a || b) .r0 (fun s => s.reg .r0) (fun s => s.reg rs) ∧
    Logics16 (.xorReg rs) (fun a b => a != b) .r0 (fun s => s.reg .r0) (fun s => s.reg rs)) ∧
  (∀ r n16, Logics16 (.andImm r n16) (fun a b => a && b) r (fun s => s.reg r) (fun _ => n16) ∧
    Logics16 (.orImm r n16) (fun a b => a || b) r (fun s => s.reg r) (fun _ => n16) ∧
    Logics16 (.xorImm r n16) (fun a b => a != b) r (fun s => s.reg r) (fun _ => n16))

/-- R141, R142: one more or one less, Z, N and V from it, C kept also when the register wraps. -/
def Obligations.IncrementAndDecrementOfWords : Prop :=
  (∀ r, HasForm (.incReg r) (fun _ => [byte (0x70 + regNum r)]) 4 4 ∧
    HasForm (.decReg r) (fun _ => [byte (0x78 + regNum r)]) 4 4) ∧
  ∀ (r : Reg) (s : State),
    (Does (.incReg r) s fun t => IsSum (s.reg r) 1#16 (t.reg r) ∧ ZNOf (t.reg r) t.f ∧
      (t.f.v = true ↔ (s.reg r).toNat = 0x7FFF) ∧ t.f.c = s.f.c ∧ t.pc = nextPc (.incReg r) s ∧ Frame [r] s t) ∧
    (Does (.decReg r) s fun t => IsDiff (s.reg r) 1#16 (t.reg r) ∧ ZNOf (t.reg r) t.f ∧
      (t.f.v = true ↔ (s.reg r).toNat = 0x8000) ∧ t.f.c = s.f.c ∧ t.pc = nextPc (.decReg r) s ∧ Frame [r] s t)

/-! ## 8-bit arithmetic and logic -/

/-- R151, R152. -/
def Obligations.AdditionsOfBytes : Prop :=
  (∀ rs, HasForm (.addbReg rs) (fun _ => [0x0F#8, byte (0x40 + regNum rs)]) 4 4 ∧
    Adds8 (.addbReg rs) .r0 (fun s => s.low .r0) (fun s => s.low rs)) ∧
  (∀ r n8, HasForm (.addbImm r n8) (fun _ => [byte (0xB0 + regNum r), n8]) 8 8 ∧
    Adds8 (.addbImm r n8) r (fun s => s.low r) (fun _ => n8))

/-- R153, R159, R160, under either value of SUB_CARRY. -/
def Obligations.SubtractionAndComparisonsOfBytes : Prop :=
  (∀ rs, HasForm (.subbReg rs) (fun _ => [0x0F#8, byte (0x48 + regNum rs)]) 4 4 ∧
    Subs8 (.subbReg rs) .r0 (fun s => s.low .r0) (fun s => s.low rs)) ∧
  (∀ rs, HasForm (.cmpbReg rs) (fun _ => [0x0F#8, byte (0x68 + regNum rs)]) 4 4 ∧
    Compares (.cmpbReg rs) (fun s => s.low .r0) (fun s => s.low rs)) ∧
  (∀ r n8, HasForm (.cmpbImm r n8) (fun _ => [byte (0xB8 + regNum r), n8]) 8 8 ∧
    Compares (.cmpbImm r n8) (fun s => s.low r) (fun _ => n8))

/-- R154 to R156. -/
def Obligations.LogicOfBytes : Prop :=
  (∀ rs, HasForm (.andbReg rs) (fun _ => [0x0F#8, byte (0x50 + regNum rs)]) 4 4 ∧
    HasForm (.orbReg rs) (fun _ => [0x0F#8, byte (0x58 + regNum rs)]) 4 4 ∧
    HasForm (.xorbReg rs) (fun _ => [0x0F#8, byte (0x60 + regNum rs)]) 4 4) ∧
  ∀ rs, Logics8 (.andbReg rs) (fun a b => a && b) .r0 (fun s => s.low .r0) (fun s => s.low rs) ∧
    Logics8 (.orbReg rs) (fun a b => a || b) .r0 (fun s => s.low .r0) (fun s => s.low rs) ∧
    Logics8 (.xorbReg rs) (fun a b => a != b) .r0 (fun s => s.low .r0) (fun s => s.low rs)

/-- R157, R158. -/
def Obligations.IncrementAndDecrementOfBytes : Prop :=
  (∀ r, HasForm (.incbReg r) (fun _ => [0x0F#8, byte (0x70 + regNum r)]) 4 4 ∧
    HasForm (.decbReg r) (fun _ => [0x0F#8, byte (0x78 + regNum r)]) 4 4) ∧
  ∀ (r : Reg) (s : State),
    (Does (.incbReg r) s fun t => IsSum (s.low r) 1#8 (t.low r) ∧ UpperKept r s t ∧ ZNOf (t.low r) t.f ∧
      (t.f.v = true ↔ (s.low r).toNat = 0x7F) ∧ t.f.c = s.f.c ∧ t.pc = nextPc (.incbReg r) s ∧ Frame [r] s t) ∧
    (Does (.decbReg r) s fun t => IsDiff (s.low r) 1#8 (t.low r) ∧ UpperKept r s t ∧ ZNOf (t.low r) t.f ∧
      (t.f.v = true ↔ (s.low r).toNat = 0x80) ∧ t.f.c = s.f.c ∧ t.pc = nextPc (.decbReg r) s ∧ Frame [r] s t)

/-! ## Shifts, rotates and the bit test -/

/-- R171 to R174: the result and C, and Z, N, V where SHIFT_ZNV fixes them. -/
def Obligations.ShiftsAndRotates : Prop :=
  ∀ r : Reg,
    HasForm (.shl r) (fun _ => [byte (0xC0 + regNum r)]) 4 4 ∧ HasForm (.shr r) (fun _ => [byte (0xC8 + regNum r)]) 4 4 ∧
    HasForm (.rol r) (fun _ => [byte (0xD0 + regNum r)]) 4 4 ∧ HasForm (.ror r) (fun _ => [byte (0xD8 + regNum r)]) 4 4 ∧
    Shifts (.shl r) r (fun s => 2 * (s.reg r).toNat % 65536) (fun s => 32768 ≤ (s.reg r).toNat) ∧
    Shifts (.shr r) r (fun s => (s.reg r).toNat / 2) (fun s => (s.reg r).toNat % 2 = 1) ∧
    Shifts (.rol r) r (fun s => (2 * (s.reg r).toNat + carryIn s) % 65536) (fun s => 32768 ≤ (s.reg r).toNat) ∧
    Shifts (.ror r) r (fun s => (s.reg r).toNat / 2 + 32768 * carryIn s) (fun s => (s.reg r).toNat % 2 = 1)

/-- R174: ROR undoes ROL and the reverse, C included. -/
def Obligations.RotatesUndoEachOther : Prop :=
  ∀ (r : Reg) (s t u : State),
    (exec (.rol r) s = .next t → exec (.ror r) t = .next u → u.reg r = s.reg r ∧ u.f.c = s.f.c) ∧
    (exec (.ror r) s = .next t → exec (.rol r) t = .next u → u.reg r = s.reg r ∧ u.f.c = s.f.c)

/-- R173: seventeen ROLs of one register restore it and C. -/
def Obligations.SeventeenRotationsRestore : Prop :=
  ∀ (r : Reg) (s : State), ∃ t, RotatesLeft r 17 s t ∧ t.reg r = s.reg r ∧ t.f.c = s.f.c

/-- R92, R175: BIT sets Z to the complement of the bit tested, by BIT_INDEX_POLICY above index 15, and changes nothing else. -/
def Obligations.BitTestSetsZero : Prop :=
  (∀ r n8, HasForm (.bit r n8) (fun _ => [byte (0xE0 + regNum r), n8]) 8 8) ∧
  ∀ (r : Reg) (n8 : Byte) (s : State), n8.toNat ≤ 15 ∨ s.cfg.bitIndex ≠ .refuse → Does (.bit r n8) s fun t =>
    (n8.toNat ≤ 15 → (t.f.z = true ↔ (s.reg r).toNat / 2 ^ n8.toNat % 2 = 0)) ∧
    (15 < n8.toNat → s.cfg.bitIndex = .mod16 → (t.f.z = true ↔ (s.reg r).toNat / 2 ^ (n8.toNat % 16) % 2 = 0)) ∧
    (15 < n8.toNat → s.cfg.bitIndex = .zero → t.f.z = true) ∧
    t.f.n = s.f.n ∧ t.f.c = s.f.c ∧ t.f.v = s.f.v ∧ t.pc = nextPc (.bit r n8) s ∧ Frame [] s t

/-! ## Control flow -/

/-- R181, R182: the target is the immediate, or the register's value; memory is not read, and any target is legal. -/
def Obligations.JumpsGoToTheirTarget : Prop :=
  (∀ n16, HasForm (.jmp n16) (fun e => [0x08#8, firstByte e n16, secondByte e n16]) 12 12) ∧
  (∀ n16 s, GoesTo (.jmp n16) s n16) ∧
  (∀ r, HasForm (.jmpReg r) (fun _ => [byte (0x38 + regNum r)]) 8 8) ∧
  (∀ r s, GoesTo (.jmpReg r) s (s.reg r))

/-- R183: the offset is signed and counts from the address after the JR, modulo 2^16. -/
def Obligations.RelativeJumpAddsSignedOffset : Prop :=
  (∀ n8, HasForm (.jr n8) (fun _ => [0x09#8, n8]) 8 8) ∧
  ∀ (n8 : Byte) (s : State), ∃ target, IsRelative target (nextPc (.jr n8) s) n8 ∧ GoesTo (.jr n8) s target

/-- R180, R184: the eight conditional jumps. -/
def Obligations.ConditionalJumps : Prop :=
  (∀ cc n16, HasForm (Instr.jcc cc n16) (fun e => [byte (0xE8 + condNum cc), firstByte e n16, secondByte e n16]) 12 8) ∧
  (∀ cc n16 s, (CondHolds s.f cc → GoesTo (Instr.jcc cc n16) s n16) ∧
    (¬ CondHolds s.f cc → GoesTo (Instr.jcc cc n16) s (nextPc (Instr.jcc cc n16) s)))

/-- R180, R185: the eight conditional relative jumps. -/
def Obligations.ConditionalRelativeJumps : Prop :=
  (∀ cc n8, HasForm (Instr.jrcc cc n8) (fun _ => [byte (0xF0 + condNum cc), n8]) 8 4) ∧
  ∀ cc n8 s,
    (CondHolds s.f cc → ∃ target, IsRelative target (nextPc (Instr.jrcc cc n8) s) n8 ∧ GoesTo (Instr.jrcc cc n8) s target) ∧
    (¬ CondHolds s.f cc → GoesTo (Instr.jrcc cc n8) s (nextPc (Instr.jrcc cc n8) s))

/-- R186: CALL pushes the address after itself and goes to its target. -/
def Obligations.CallPushesReturnAddress : Prop :=
  (∀ n16, HasForm (.call n16) (fun e => [0x0A#8, firstByte e n16, secondByte e n16]) 20 20) ∧
  (∀ n16 s, (UsableWord s (s.sp - 2#16) → CallsTo (.call n16) s (nextPc (.call n16) s) n16) ∧
    (s.sp.toNat % 2 = 1 → exec (.call n16) s = .fault (.busError (s.sp - 2#16) s.pc)))

/-- R180, R187: the eight conditional calls: a call when the condition holds; else nothing is pushed, even with an odd `sp`. A
device region keeps nothing of the pushed word: the model's choice (log 19). -/
def Obligations.ConditionalCalls : Prop :=
  (∀ cc n16, HasForm (Instr.callcc cc n16) (fun e => [byte (0xF8 + condNum cc), firstByte e n16, secondByte e n16]) 20 8) ∧
  ∀ cc n16 s,
    (CondHolds s.f cc → UsableWord s (s.sp - 2#16) → CallsTo (Instr.callcc cc n16) s (nextPc (Instr.callcc cc n16) s) n16) ∧
    (CondHolds s.f cc → s.sp.toNat % 2 = 1 → exec (Instr.callcc cc n16) s = .fault (.busError (s.sp - 2#16) s.pc)) ∧
    (¬ CondHolds s.f cc → GoesTo (Instr.callcc cc n16) s (nextPc (Instr.callcc cc n16) s))

/-- R188: RET goes to the word at `sp` and adds 2 to `sp`. -/
def Obligations.ReturnPopsProgramCounter : Prop :=
  HasForm .ret (fun _ => [0x04#8]) 16 16 ∧
  (∀ s, (UsableWord s s.sp → Does .ret s fun t => t.pc.toNat = loaded s s.sp ∧ t.sp = s.sp + 2#16 ∧ t.f = s.f ∧
      Frame [.r7] s t) ∧
    (s.sp.toNat % 2 = 1 → exec .ret s = .fault (.busError s.sp s.pc)))

/-- R189, R220: RETI is RET and sets IME; it restores nothing else, in particular no flag. -/
def Obligations.ReturnFromInterruptEnables : Prop :=
  HasForm .reti (fun _ => [0x05#8]) 16 16 ∧
  ∀ s, (UsableWord s s.sp → Does .reti s fun t => t.pc.toNat = loaded s s.sp ∧ t.sp = s.sp + 2#16 ∧ t.ime = true ∧
      t.f = s.f ∧ RegsKeptBut [.r7] s t ∧ MemKept s t ∧ t.halted = s.halted ∧ t.env = s.env ∧ t.cfg = s.cfg ∧
      t.tick = s.tick) ∧
    (s.sp.toNat % 2 = 1 → exec .reti s = .fault (.busError s.sp s.pc))

/-- R186, R188: on a stack of plain memory, RET right after CALL goes to the instruction after the CALL and restores `sp`. -/
def Obligations.ReturnAfterCallResumes : Prop :=
  ∀ (n16 : Word) (s t : State), s.regionAt (s.sp - 2#16) = .plain → s.regionAt (s.sp - 2#16 + 1#16) = .plain →
    exec (.call n16) s = .next t → Does .ret t fun u => u.pc = nextPc (.call n16) s ∧ u.sp = s.sp

/-! ## CPU control -/

/-- R200. -/
def Obligations.NopChangesOnlyPc : Prop :=
  HasForm .nop (fun _ => [0x00#8]) 4 4 ∧ ∀ s, Does .nop s fun t => t.pc = nextPc .nop s ∧ t.f = s.f ∧ Frame [] s t

/-- R201 to R203: HALT sets `halted` and keeps IME; DI clears IME; EI sets it; nothing else but `pc` changes. -/
def Obligations.HaltAndInterruptEnableInstructions : Prop :=
  HasForm .halt (fun _ => [0x01#8]) 4 4 ∧ HasForm .di (fun _ => [0x02#8]) 4 4 ∧ HasForm .ei (fun _ => [0x03#8]) 4 4 ∧
  ∀ s,
    (Does .halt s fun t => t.halted = true ∧ t.ime = s.ime ∧ t.pc = nextPc .halt s ∧ t.f = s.f ∧ RegsKeptBut [] s t ∧
      MemKept s t ∧ t.env = s.env ∧ t.cfg = s.cfg ∧ t.tick = s.tick) ∧
    (Does .di s fun t => t.ime = false ∧ t.halted = s.halted ∧ t.pc = nextPc .di s ∧ t.f = s.f ∧ RegsKeptBut [] s t ∧
      MemKept s t ∧ t.env = s.env ∧ t.cfg = s.cfg ∧ t.tick = s.tick) ∧
    (Does .ei s fun t => t.ime = true ∧ t.halted = s.halted ∧ t.pc = nextPc .ei s ∧ t.f = s.f ∧ RegsKeptBut [] s t ∧
      MemKept s t ∧ t.env = s.env ∧ t.cfg = s.cfg ∧ t.tick = s.tick)

/-! ## Interrupts, halt and the platform -/

/-- R216, R218: with IME = 0 or no request no interrupt is accepted by a running CPU; with IME = 1 and a request pending, the
oracle has the entry or the next instruction. -/
def Obligations.AcceptanceAtStepBoundary : Prop :=
  ∀ s : State, s.halted = false →
    (s.ime = false ∨ s.pending = none → s.stepKind = .instruction) ∧
    (∀ src, s.ime = true → s.pending = some src →
      (s.chosen = true → s.stepKind = .entry src) ∧ (s.chosen = false → s.stepKind = .instruction))

/-- R219: interrupt entry clears `halted` and IME, pushes `pc` alone and goes to the vector; F is neither saved nor changed; an
odd `sp` is a Bus Error; a source whose vector is not supplied is refused. The model's choices: a device region keeps nothing
of the pushed word (log 19), and the record's pc in the Bus Error is the interrupted pc (log 39). An even `sp` over a byte that
may not be written is in PlatformRangesFault. -/
def Obligations.InterruptEntrySavesPcAlone : Prop :=
  ∀ (s : State) (src : IntSource), s.stepKind = .entry src →
    (∀ v, src.vector = some v → UsableWord s (s.sp - 2#16) → ∃ t, step s = .next t ∧ t.pc = v ∧ t.halted = false ∧
      t.ime = false ∧ t.sp = s.sp - 2#16 ∧ StoresWord s t (s.sp - 2#16) s.pc ∧ t.f = s.f ∧ RegsKeptBut [.r7] s t ∧
      t.cfg = s.cfg) ∧
    (∀ v, src.vector = some v → s.sp.toNat % 2 = 1 → step s = .fault (.busError (s.sp - 2#16) s.pc)) ∧
    (src.vector = none → step s = .refused (.intVectorOpen src.id))

/-- R220: on a stack of plain memory, RETI right after an entry resumes where the entry interrupted, with `sp` and every other
register, F and IME = 1 as they were. -/
def Obligations.ReturnUndoesInterruptEntry : Prop :=
  ∀ (s t : State) (src : IntSource), s.ime = true → s.stepKind = .entry src → s.regionAt (s.sp - 2#16) = .plain →
    s.regionAt (s.sp - 2#16 + 1#16) = .plain → step s = .next t →
    Does .reti t fun u => u.pc = s.pc ∧ (∀ r, u.reg r = s.reg r) ∧ u.f = s.f ∧ u.ime = s.ime

/-- R222: what a halted CPU does. (a) No request: nothing, but that the boundary passes. (b) A request and IME = 1: interrupt
entry. (c) A request and IME = 0: by HALT_WAKE_MASKED. -/
def Obligations.HaltedCpuFollowsWakeRule : Prop :=
  ∀ s : State, s.halted = true →
    (s.pending = none → ∃ t, step s = .next t ∧ StaysHalted s t) ∧
    (∀ src, s.pending = some src → s.ime = true → s.stepKind = .entry src) ∧
    (∀ src, s.pending = some src → s.ime = false →
      (s.cfg.haltWake = some .wake → ∃ t, step s = .next t ∧ t.halted = false ∧ t.ime = false ∧ CpuKept s t) ∧
      (s.cfg.haltWake = some .stay → ∃ t, step s = .next t ∧ StaysHalted s t) ∧
      (s.cfg.haltWake = none → step s = .refused .haltWakeOpen))

/-- R242: from the end of a run every run of steps leaves the CPU as it is, still at the end of the run. That there are such
steps at all, where R201 and R222 a give that CPU none, is the model's choice (log 16). -/
def Obligations.EndOfRunIsQuiescent : Prop :=
  ∀ (s : State) (k : Nat), EndOfRun s → ∃ t, Reaches k s t ∧ CpuKept s t ∧ EndOfRun t

/-- R62, R212, U18, D23: under a MEMMAP, every access to an unmapped or read-only address is a fault with the first such address
as its record: a byte load or store, the word access of any instruction at an even address, the fetch of the first byte or of any
further byte of an instruction, and the push of an interrupt entry at an even `sp`. The record's pc in the entry's fault is the
interrupted pc, the model's choice (log 39); that the lower byte of a word comes first is too (log 34). -/
def Obligations.PlatformRangesFault : Prop :=
  ∀ s : State,
    (∀ rd rs, ¬ Usable s (s.reg rs) → exec (.ldbInd rd rs) s = .fault (shutFault s (s.reg rs))) ∧
    (∀ rd rs, ¬ Usable s (s.reg rd) → exec (.stbInd rd rs) s = .fault (shutFault s (s.reg rd))) ∧
    (∀ i a b, wordAccess s i = some a → a.toNat % 2 = 0 → FirstOfTwo (fun x => ¬ Usable s x) a b →
      exec i s = .fault (shutFault s b)) ∧
    (∀ got, s.stepKind = .instruction → FetchesAt s.beginStep s.pc got → Undecided s got →
      ¬ Usable s (s.pc + BitVec.ofNat 16 got.length) → step s = .fault (shutFault s (s.pc + BitVec.ofNat 16 got.length))) ∧
    (∀ src v b, s.stepKind = .entry src → src.vector = some v → s.sp.toNat % 2 = 0 →
      FirstOfTwo (fun x => ¬ Usable s x) (s.sp - 2#16) b → step s = .fault (shutFault s b))

/-- R59, R244: a byte stored in plain memory is what a later fetch of that address reads. -/
def Obligations.FetchSeesStoredByte : Prop :=
  ∀ (rd rs : Reg) (s t : State), s.regionAt (s.reg rd) = .plain → exec (.stbInd rd rs) s = .next t →
    t.readByte .fetch (s.reg rd) = .ok (byte ((s.reg rs).toNat % 256))
end

