-- ==== Sys2Proof/Laws/State.lean ====
section
/-! SUPPORT. The state record: one lemma for each field and each update, true by rfl, and the laws of the register file. -/

namespace Sys2Proof.Machine

@[simp] theorem State.setReg_regs (s : State) (r : Reg) (v : Word) : (s.setReg r v).regs = s.regs.set r v := rfl
@[simp] theorem State.setReg_pc (s : State) (r : Reg) (v : Word) : (s.setReg r v).pc = s.pc := rfl
@[simp] theorem State.setReg_f (s : State) (r : Reg) (v : Word) : (s.setReg r v).f = s.f := rfl
@[simp] theorem State.setReg_ime (s : State) (r : Reg) (v : Word) : (s.setReg r v).ime = s.ime := rfl
@[simp] theorem State.setReg_halted (s : State) (r : Reg) (v : Word) : (s.setReg r v).halted = s.halted := rfl
@[simp] theorem State.setReg_mem (s : State) (r : Reg) (v : Word) : (s.setReg r v).mem = s.mem := rfl
@[simp] theorem State.setReg_env (s : State) (r : Reg) (v : Word) : (s.setReg r v).env = s.env := rfl
@[simp] theorem State.setReg_cfg (s : State) (r : Reg) (v : Word) : (s.setReg r v).cfg = s.cfg := rfl
@[simp] theorem State.setReg_tick (s : State) (r : Reg) (v : Word) : (s.setReg r v).tick = s.tick := rfl

@[simp] theorem State.setLow_regs (s : State) (r : Reg) (v : Byte) : (s.setLow r v).regs = s.regs.set r (Word.hi (s.reg r) ++ v) := rfl
@[simp] theorem State.setLow_pc (s : State) (r : Reg) (v : Byte) : (s.setLow r v).pc = s.pc := rfl
@[simp] theorem State.setLow_f (s : State) (r : Reg) (v : Byte) : (s.setLow r v).f = s.f := rfl
@[simp] theorem State.setLow_ime (s : State) (r : Reg) (v : Byte) : (s.setLow r v).ime = s.ime := rfl
@[simp] theorem State.setLow_halted (s : State) (r : Reg) (v : Byte) : (s.setLow r v).halted = s.halted := rfl
@[simp] theorem State.setLow_mem (s : State) (r : Reg) (v : Byte) : (s.setLow r v).mem = s.mem := rfl
@[simp] theorem State.setLow_env (s : State) (r : Reg) (v : Byte) : (s.setLow r v).env = s.env := rfl
@[simp] theorem State.setLow_cfg (s : State) (r : Reg) (v : Byte) : (s.setLow r v).cfg = s.cfg := rfl
@[simp] theorem State.setLow_tick (s : State) (r : Reg) (v : Byte) : (s.setLow r v).tick = s.tick := rfl

@[simp] theorem State.setPc_regs (s : State) (t : Word) : (s.setPc t).regs = s.regs := rfl
@[simp] theorem State.setPc_pc (s : State) (t : Word) : (s.setPc t).pc = t := rfl
@[simp] theorem State.setPc_f (s : State) (t : Word) : (s.setPc t).f = s.f := rfl
@[simp] theorem State.setPc_ime (s : State) (t : Word) : (s.setPc t).ime = s.ime := rfl
@[simp] theorem State.setPc_halted (s : State) (t : Word) : (s.setPc t).halted = s.halted := rfl
@[simp] theorem State.setPc_mem (s : State) (t : Word) : (s.setPc t).mem = s.mem := rfl
@[simp] theorem State.setPc_env (s : State) (t : Word) : (s.setPc t).env = s.env := rfl
@[simp] theorem State.setPc_cfg (s : State) (t : Word) : (s.setPc t).cfg = s.cfg := rfl
@[simp] theorem State.setPc_tick (s : State) (t : Word) : (s.setPc t).tick = s.tick := rfl

@[simp] theorem State.setF_regs (s : State) (g : FReg) : (s.setF g).regs = s.regs := rfl
@[simp] theorem State.setF_pc (s : State) (g : FReg) : (s.setF g).pc = s.pc := rfl
@[simp] theorem State.setF_f (s : State) (g : FReg) : (s.setF g).f = g := rfl
@[simp] theorem State.setF_ime (s : State) (g : FReg) : (s.setF g).ime = s.ime := rfl
@[simp] theorem State.setF_halted (s : State) (g : FReg) : (s.setF g).halted = s.halted := rfl
@[simp] theorem State.setF_mem (s : State) (g : FReg) : (s.setF g).mem = s.mem := rfl
@[simp] theorem State.setF_env (s : State) (g : FReg) : (s.setF g).env = s.env := rfl
@[simp] theorem State.setF_cfg (s : State) (g : FReg) : (s.setF g).cfg = s.cfg := rfl
@[simp] theorem State.setF_tick (s : State) (g : FReg) : (s.setF g).tick = s.tick := rfl

@[simp] theorem State.setIme_regs (s : State) (b : Bool) : (s.setIme b).regs = s.regs := rfl
@[simp] theorem State.setIme_pc (s : State) (b : Bool) : (s.setIme b).pc = s.pc := rfl
@[simp] theorem State.setIme_f (s : State) (b : Bool) : (s.setIme b).f = s.f := rfl
@[simp] theorem State.setIme_ime (s : State) (b : Bool) : (s.setIme b).ime = b := rfl
@[simp] theorem State.setIme_halted (s : State) (b : Bool) : (s.setIme b).halted = s.halted := rfl
@[simp] theorem State.setIme_mem (s : State) (b : Bool) : (s.setIme b).mem = s.mem := rfl
@[simp] theorem State.setIme_env (s : State) (b : Bool) : (s.setIme b).env = s.env := rfl
@[simp] theorem State.setIme_cfg (s : State) (b : Bool) : (s.setIme b).cfg = s.cfg := rfl
@[simp] theorem State.setIme_tick (s : State) (b : Bool) : (s.setIme b).tick = s.tick := rfl

@[simp] theorem State.setHalted_regs (s : State) (b : Bool) : (s.setHalted b).regs = s.regs := rfl
@[simp] theorem State.setHalted_pc (s : State) (b : Bool) : (s.setHalted b).pc = s.pc := rfl
@[simp] theorem State.setHalted_f (s : State) (b : Bool) : (s.setHalted b).f = s.f := rfl
@[simp] theorem State.setHalted_ime (s : State) (b : Bool) : (s.setHalted b).ime = s.ime := rfl
@[simp] theorem State.setHalted_halted (s : State) (b : Bool) : (s.setHalted b).halted = b := rfl
@[simp] theorem State.setHalted_mem (s : State) (b : Bool) : (s.setHalted b).mem = s.mem := rfl
@[simp] theorem State.setHalted_env (s : State) (b : Bool) : (s.setHalted b).env = s.env := rfl
@[simp] theorem State.setHalted_cfg (s : State) (b : Bool) : (s.setHalted b).cfg = s.cfg := rfl
@[simp] theorem State.setHalted_tick (s : State) (b : Bool) : (s.setHalted b).tick = s.tick := rfl

@[simp] theorem State.setMem_regs (s : State) (m : Memory) : (s.setMem m).regs = s.regs := rfl
@[simp] theorem State.setMem_pc (s : State) (m : Memory) : (s.setMem m).pc = s.pc := rfl
@[simp] theorem State.setMem_f (s : State) (m : Memory) : (s.setMem m).f = s.f := rfl
@[simp] theorem State.setMem_ime (s : State) (m : Memory) : (s.setMem m).ime = s.ime := rfl
@[simp] theorem State.setMem_halted (s : State) (m : Memory) : (s.setMem m).halted = s.halted := rfl
@[simp] theorem State.setMem_mem (s : State) (m : Memory) : (s.setMem m).mem = m := rfl
@[simp] theorem State.setMem_env (s : State) (m : Memory) : (s.setMem m).env = s.env := rfl
@[simp] theorem State.setMem_cfg (s : State) (m : Memory) : (s.setMem m).cfg = s.cfg := rfl
@[simp] theorem State.setMem_tick (s : State) (m : Memory) : (s.setMem m).tick = s.tick := rfl

@[simp] theorem State.advance_regs (s : State) (i : Instr) : (s.advance i).regs = s.regs := rfl
@[simp] theorem State.advance_pc (s : State) (i : Instr) : (s.advance i).pc = s.npc i := rfl
@[simp] theorem State.advance_f (s : State) (i : Instr) : (s.advance i).f = s.f := rfl
@[simp] theorem State.advance_ime (s : State) (i : Instr) : (s.advance i).ime = s.ime := rfl
@[simp] theorem State.advance_halted (s : State) (i : Instr) : (s.advance i).halted = s.halted := rfl
@[simp] theorem State.advance_mem (s : State) (i : Instr) : (s.advance i).mem = s.mem := rfl
@[simp] theorem State.advance_env (s : State) (i : Instr) : (s.advance i).env = s.env := rfl
@[simp] theorem State.advance_cfg (s : State) (i : Instr) : (s.advance i).cfg = s.cfg := rfl
@[simp] theorem State.advance_tick (s : State) (i : Instr) : (s.advance i).tick = s.tick := rfl

@[simp] theorem State.passBoundary_regs (s : State) : (s.passBoundary).regs = s.regs := rfl
@[simp] theorem State.passBoundary_pc (s : State) : (s.passBoundary).pc = s.pc := rfl
@[simp] theorem State.passBoundary_f (s : State) : (s.passBoundary).f = s.f := rfl
@[simp] theorem State.passBoundary_ime (s : State) : (s.passBoundary).ime = s.ime := rfl
@[simp] theorem State.passBoundary_halted (s : State) : (s.passBoundary).halted = s.halted := rfl
@[simp] theorem State.passBoundary_mem (s : State) : (s.passBoundary).mem = s.mem := rfl
@[simp] theorem State.passBoundary_env (s : State) : (s.passBoundary).env = s.env.tail := rfl
@[simp] theorem State.passBoundary_cfg (s : State) : (s.passBoundary).cfg = s.cfg := rfl
@[simp] theorem State.passBoundary_tick (s : State) : (s.passBoundary).tick = s.tick := rfl

@[simp] theorem State.beginStep_regs (s : State) : (s.beginStep).regs = s.regs := rfl
@[simp] theorem State.beginStep_pc (s : State) : (s.beginStep).pc = s.pc := rfl
@[simp] theorem State.beginStep_f (s : State) : (s.beginStep).f = s.f := rfl
@[simp] theorem State.beginStep_ime (s : State) : (s.beginStep).ime = s.ime := rfl
@[simp] theorem State.beginStep_halted (s : State) : (s.beginStep).halted = s.halted := rfl
@[simp] theorem State.beginStep_mem (s : State) : (s.beginStep).mem = s.mem := rfl
@[simp] theorem State.beginStep_env (s : State) : (s.beginStep).env = s.env.tail := rfl
@[simp] theorem State.beginStep_cfg (s : State) : (s.beginStep).cfg = s.cfg := rfl
@[simp] theorem State.beginStep_tick (s : State) : (s.beginStep).tick = s.tick + 1 := rfl

/-! ## The register file -/

theorem Regs.get_set (g : Regs) (d r : Reg) (v : Word) : (g.set d v).get r = if r = d then v else g.get r := by
  cases d <;> cases r <;> rfl

@[simp] theorem Regs.get_set_same (g : Regs) (r : Reg) (v : Word) : (g.set r v).get r = v := by
  rw [Regs.get_set, if_pos rfl]

theorem Regs.get_set_other (g : Regs) {d r : Reg} (h : r ≠ d) (v : Word) : (g.set d v).get r = g.get r := by
  rw [Regs.get_set, if_neg h]

/-- A register file is its eight registers. -/
theorem Regs.ext_get {g h : Regs} (e : ∀ r, g.get r = h.get r) : g = h := by
  cases g
  cases h
  have h0 := e .r0
  have h1 := e .r1
  have h2 := e .r2
  have h3 := e .r3
  have h4 := e .r4
  have h5 := e .r5
  have h6 := e .r6
  have h7 := e .r7
  simp only [Regs.get] at h0 h1 h2 h3 h4 h5 h6 h7
  subst_vars
  rfl

/-- Writing a register its own value changes nothing. -/
theorem Regs.set_get (g : Regs) (r : Reg) : g.set r (g.get r) = g := by
  cases r <;> rfl

theorem State.reg_setReg (s : State) (d r : Reg) (v : Word) : (s.setReg d v).reg r = if r = d then v else s.reg r :=
  Regs.get_set s.regs d r v

@[simp] theorem State.reg_setReg_same (s : State) (r : Reg) (v : Word) : (s.setReg r v).reg r = v :=
  Regs.get_set_same s.regs r v

theorem State.reg_setReg_other (s : State) {d r : Reg} (h : r ≠ d) (v : Word) : (s.setReg d v).reg r = s.reg r :=
  Regs.get_set_other s.regs h v

@[simp] theorem State.reg_setPc (s : State) (t : Word) (q : Reg) : (s.setPc t).reg q = s.reg q := rfl
@[simp] theorem State.reg_setF (s : State) (g : FReg) (q : Reg) : (s.setF g).reg q = s.reg q := rfl
@[simp] theorem State.reg_setIme (s : State) (b : Bool) (q : Reg) : (s.setIme b).reg q = s.reg q := rfl
@[simp] theorem State.reg_setHalted (s : State) (b : Bool) (q : Reg) : (s.setHalted b).reg q = s.reg q := rfl
@[simp] theorem State.reg_setMem (s : State) (m : Memory) (q : Reg) : (s.setMem m).reg q = s.reg q := rfl
@[simp] theorem State.reg_advance (s : State) (i : Instr) (q : Reg) : (s.advance i).reg q = s.reg q := rfl
@[simp] theorem State.reg_passBoundary (s : State) (q : Reg) : (s.passBoundary).reg q = s.reg q := rfl
@[simp] theorem State.reg_beginStep (s : State) (q : Reg) : (s.beginStep).reg q = s.reg q := rfl

@[simp] theorem State.npc_setReg (s : State) (r : Reg) (v : Word) (j : Instr) : (s.setReg r v).npc j = s.npc j := rfl
@[simp] theorem State.npc_setLow (s : State) (r : Reg) (v : Byte) (j : Instr) : (s.setLow r v).npc j = s.npc j := rfl
@[simp] theorem State.npc_setF (s : State) (g : FReg) (j : Instr) : (s.setF g).npc j = s.npc j := rfl
@[simp] theorem State.npc_setIme (s : State) (b : Bool) (j : Instr) : (s.setIme b).npc j = s.npc j := rfl
@[simp] theorem State.npc_setHalted (s : State) (b : Bool) (j : Instr) : (s.setHalted b).npc j = s.npc j := rfl
@[simp] theorem State.npc_setMem (s : State) (m : Memory) (j : Instr) : (s.setMem m).npc j = s.npc j := rfl
@[simp] theorem State.npc_passBoundary (s : State) (j : Instr) : (s.passBoundary).npc j = s.npc j := rfl
@[simp] theorem State.npc_beginStep (s : State) (j : Instr) : (s.beginStep).npc j = s.npc j := rfl

@[simp] theorem State.regionAt_setReg (s : State) (r : Reg) (v : Word) (a : Word) : (s.setReg r v).regionAt a = s.regionAt a := rfl
@[simp] theorem State.regionAt_setLow (s : State) (r : Reg) (v : Byte) (a : Word) : (s.setLow r v).regionAt a = s.regionAt a := rfl
@[simp] theorem State.regionAt_setPc (s : State) (t : Word) (a : Word) : (s.setPc t).regionAt a = s.regionAt a := rfl
@[simp] theorem State.regionAt_setF (s : State) (g : FReg) (a : Word) : (s.setF g).regionAt a = s.regionAt a := rfl
@[simp] theorem State.regionAt_setIme (s : State) (b : Bool) (a : Word) : (s.setIme b).regionAt a = s.regionAt a := rfl
@[simp] theorem State.regionAt_setHalted (s : State) (b : Bool) (a : Word) : (s.setHalted b).regionAt a = s.regionAt a := rfl
@[simp] theorem State.regionAt_setMem (s : State) (m : Memory) (a : Word) : (s.setMem m).regionAt a = s.regionAt a := rfl
@[simp] theorem State.regionAt_advance (s : State) (i : Instr) (a : Word) : (s.advance i).regionAt a = s.regionAt a := rfl
@[simp] theorem State.regionAt_passBoundary (s : State) (a : Word) : (s.passBoundary).regionAt a = s.regionAt a := rfl
@[simp] theorem State.regionAt_beginStep (s : State) (a : Word) : (s.beginStep).regionAt a = s.regionAt a := rfl

/-! ## Bytes of a register -/

/-- A bit of two bytes joined. -/
theorem Word.getLsbD_join (h l : Byte) (i : Nat) :
    BitVec.getLsbD (w := 16) (h ++ l) i = if i < 8 then l.getLsbD i else h.getLsbD (i - 8) := by
  exact (BitVec.getLsbD_append (x := h) (y := l) (i := i)).trans (by split <;> simp_all)

@[simp] theorem Word.lo_append (h l : Byte) : Word.lo (h ++ l) = l := by
  apply BitVec.eq_of_getLsbD_eq
  intro i hi
  simp only [Word.lo, BitVec.getLsbD_extractLsb', Word.getLsbD_join, Nat.zero_add, hi, if_true, decide_true, Bool.true_and]

@[simp] theorem Word.hi_append (h l : Byte) : Word.hi (h ++ l) = h := by
  apply BitVec.eq_of_getLsbD_eq
  intro i hi
  have h1 : ¬ 8 + i < 8 := by omega
  have h2 : 8 + i - 8 = i := by omega
  simp only [Word.hi, BitVec.getLsbD_extractLsb', Word.getLsbD_join, h1, h2, hi, if_false, decide_true, Bool.true_and]

@[simp] theorem Word.hi_append_lo (w : Word) : Word.hi w ++ Word.lo w = w := by
  apply BitVec.eq_of_getLsbD_eq (w := 16)
  intro i hi
  rw [Word.getLsbD_join]
  split
  · rename_i h
    simp [Word.lo, h]
  · rename_i h
    have h2 : i - 8 < 8 := by omega
    have h3 : 8 + (i - 8) = i := by omega
    simp only [Word.hi, BitVec.getLsbD_extractLsb', h2, h3, decide_true, Bool.true_and]

/-- A word read in the order it was written. -/
@[simp] theorem joinWord_wordBytes (e : Endian) (w : Word) : joinWord e (wordBytes e w).1 (wordBytes e w).2 = w := by
  cases e <;> simp [joinWord, wordBytes]

/-- A byte write reads back (R8). -/
@[simp] theorem State.low_setLow (s : State) (r : Reg) (v : Byte) : (s.setLow r v).low r = v := by
  simp [State.setLow, State.low]

/-- A byte write leaves bits 15:8 of its register unchanged (R24, R150). -/
theorem State.hi_setLow (s : State) (r : Reg) (v : Byte) : Word.hi ((s.setLow r v).reg r) = Word.hi (s.reg r) := by
  simp [State.setLow]

theorem State.reg_setLow_other (s : State) {d r : Reg} (h : r ≠ d) (v : Byte) : (s.setLow d v).reg r = s.reg r :=
  State.reg_setReg_other s h _

/-! ## The layout of F (R27) -/

theorem FReg.ofWord_toWord (f : FReg) : FReg.ofWord f.toWord = f := by
  obtain ⟨z, n, c, v, r⟩ := f
  have key : ∀ i, BitVec.getLsbD (w := 16) (FReg.toWord ⟨z, n, c, v, r⟩) i =
      if i < 12 then r.getLsbD i else BitVec.getLsbD (w := 4)
        (BitVec.ofBool z ++ BitVec.ofBool n ++ BitVec.ofBool c ++ BitVec.ofBool v) (i - 12) := fun i =>
    (BitVec.getLsbD_append (x := BitVec.ofBool z ++ BitVec.ofBool n ++ BitVec.ofBool c ++ BitVec.ofBool v) (y := r)
      (i := i)).trans (by split <;> simp_all)
  have hr : (FReg.ofWord (FReg.toWord ⟨z, n, c, v, r⟩)).reserved = r := by
    apply BitVec.eq_of_getLsbD_eq
    intro i hi
    simp only [FReg.ofWord, BitVec.getLsbD_extractLsb', key, Nat.zero_add, hi, if_true, decide_true, Bool.true_and]
  have h15 := key 15
  have h14 := key 14
  have h13 := key 13
  have h12 := key 12
  simp only [FReg.ofWord, FReg.mk.injEq] at hr ⊢
  refine ⟨h15.trans ?_, h14.trans ?_, h13.trans ?_, h12.trans ?_, hr⟩ <;>
    cases z <;> cases n <;> cases c <;> cases v <;> rfl

end Sys2Proof.Machine
end

