-- ==== Sys2Proof/Laws/Decode.lean ====
section
/-! SUPPORT. The small lemmas of the encoding's fields, and what decoding under any `ENC` can answer. -/

namespace Sys2Proof

@[simp] theorem Reg.ofCode_code (r : Reg) : Reg.ofCode r.code = r := by
  cases r <;> rfl

@[simp] theorem Reg.code_ofCode (c : BitVec 3) : (Reg.ofCode c).code = c := by
  revert c
  decide

@[simp] theorem Cond.ofCode_code (k : Cond) : Cond.ofCode k.code = k := by
  cases k <;> rfl

@[simp] theorem Cond.code_ofCode (c : BitVec 3) : (Cond.ofCode c).code = c := by
  revert c
  decide

@[simp] theorem wordBytes_joinWord (e : Endian) (a b : Byte) : wordBytes e (joinWord e a b) = (a, b) := by
  cases e <;> simp [joinWord, wordBytes]

/-- A byte is its group and its low field (R84). -/
theorem group_append_low (b : Byte) : b.extractLsb' 3 5 ++ b.extractLsb' 0 3 = b := by
  revert b
  decide

/-! ## Any encoding -/

@[simp] theorem decodeWith_encP (e : Endian) (bytes : List Byte) : decodeWith .encP e bytes = decode e bytes := rfl

@[simp] theorem ilen_encP (i : Instr) : Encoding.ilen .encP i = i.ilen := rfl

theorem afterOpcode_ok {opcode bytes rest : List Byte} : afterOpcode opcode bytes = .ok rest ↔ bytes = opcode ++ rest := by
  induction opcode generalizing bytes with
  | nil => simp [afterOpcode]
  | cons o opcode ih =>
    cases bytes with
    | nil => simp [afterOpcode]
    | cons b bytes =>
      by_cases h : o = b
      · simp [afterOpcode, h, ih]
      · simp [afterOpcode, h, eq_comm]

theorem afterOpcode_truncated {opcode bytes : List Byte} (h : afterOpcode opcode bytes = .error .truncated) :
    bytes.length < opcode.length := by
  induction opcode generalizing bytes with
  | nil => simp [afterOpcode] at h
  | cons o opcode ih =>
    cases bytes with
    | nil => simp
    | cons b bytes =>
      simp only [afterOpcode] at h
      split at h
      · simpa using ih h
      · cases h

/-- A row is one for every instruction it reads, and reads as many bytes as it has. -/
theorem EncRow.read_ok {row : EncRow} {e : Endian} {bytes rest : List Byte} {i : Instr} (h : row.read e bytes = .ok (i, rest)) :
    row.isFor i = true ∧ bytes.length = row.length + rest.length := by
  have twice8 : ∀ (j : Instr) (a b : Byte), (j.withN8 a).withN8 b = j.withN8 b := fun j a b => by cases j <;> rfl
  have twice16 : ∀ (j : Instr) (a b : Word), (j.withN16 a).withN16 b = j.withN16 b := fun j a b => by cases j <;> rfl
  unfold EncRow.read at h
  split at h
  · cases h
  · rename_i tail ht
    rw [afterOpcode_ok.mp ht]
    unfold EncRow.isFor EncRow.length
    split at h
    · rename_i ho
      cases h
      simp [ho, OperandBytes.length]
    · rename_i ho
      split at h
      · cases h
        simp [ho, OperandBytes.length, twice8]
        omega
      · cases h
    · rename_i ho
      split at h
      · cases h
        simp [ho, OperandBytes.length, twice16]
        omega
      · cases h

theorem EncRow.read_truncated {row : EncRow} {e : Endian} {bytes : List Byte} (h : row.read e bytes = .error .truncated) :
    bytes.length < row.length := by
  unfold EncRow.read at h
  unfold EncRow.length
  split at h
  · rename_i err he
    cases h
    have := afterOpcode_truncated he
    omega
  · rename_i tail ht
    rw [afterOpcode_ok.mp ht]
    split at h
    · cases h
    · rename_i ho
      split at h
      · cases h
      · simp [ho, OperandBytes.length]
    · rename_i ho
      split at h
      · cases h
      · rename_i hne
        match tail with
        | [] => simp [ho, OperandBytes.length]
        | [_] => simp [ho, OperandBytes.length]
        | a :: b :: t => exact absurd rfl (hne a b t)

/-- What rows decode, one of them reads. -/
theorem decodeRows_ok {rows : List EncRow} {e : Endian} {bytes : List Byte} {found : Instr × List Byte}
    (h : decodeRows rows e bytes = .ok found) : ∃ row ∈ rows, row.read e bytes = .ok found := by
  induction rows with
  | nil => cases h
  | cons row others ih =>
    simp only [decodeRows] at h
    split at h
    · obtain ⟨r, hr, hd⟩ := ih h
      exact ⟨r, List.mem_cons_of_mem _ hr, hd⟩
    · cases h
    · rename_i f hf
      cases h
      exact ⟨row, List.mem_cons_self, hf⟩

/-- The fetch reads at least one byte. -/
theorem one_le_longest (enc : Encoding) : 1 ≤ enc.longest := by
  cases enc with
  | encP => decide
  | table rows =>
    change 1 ≤ rowsLongest rows
    induction rows with
    | nil => decide
    | cons row others ih =>
      have : rowsLongest (row :: others) = max row.length (rowsLongest others) := rfl
      omega

/-- Too few bytes are fewer than the longest instruction has, so that the fetch never gives up on them. -/
theorem decodeWith_truncated {enc : Encoding} {e : Endian} {bytes : List Byte}
    (h : decodeWith enc e bytes = .error .truncated) : bytes.length < enc.longest := by
  cases enc with
  | encP =>
    match bytes, h with
    | [], _ => simp [Encoding.longest]
    | [_], _ => simp [Encoding.longest]
    | [_, _], _ => simp [Encoding.longest]
    | b0 :: b1 :: b2 :: rest, h =>
      exfalso
      simp only [decodeWith, decode] at h
      split at h <;> first | cases h | skip
      split at h
      · cases h
      · rename_i err herr
        simp only [decodePageB] at herr
        cases h
        split at herr
        · cases herr
        · split at herr <;> cases herr
        · cases herr
  | table rows =>
    change decodeRows rows e bytes = _ at h
    change bytes.length < rowsLongest rows
    induction rows with
    | nil => cases h
    | cons row others ih =>
      simp only [decodeRows] at h
      have hm : rowsLongest (row :: others) = max row.length (rowsLongest others) := rfl
      split at h
      · have := ih h
        omega
      · rename_i ht
        have := EncRow.read_truncated ht
        omega
      · cases h

/-- `ilen` is the length of every row for the instruction, where rows for one instruction have one length. -/
theorem rowsIlen_eq {rows : List EncRow} {row : EncRow} {i : Instr} (hw : (Encoding.table rows).WellFormed) (hr : row ∈ rows)
    (hi : row.isFor i = true) : rowsIlen rows i = row.length := by
  have key : ∀ l : List EncRow, (∀ q ∈ l, q ∈ rows) → row ∈ l → rowsIlen l i = row.length := by
    intro l hsub hmem
    induction l with
    | nil => cases hmem
    | cons q others ih =>
      simp only [rowsIlen]
      split
      · rename_i hq
        exact hw q (hsub q List.mem_cons_self) row hr i hq hi
      · rename_i hq
        rcases List.mem_cons.mp hmem with rfl | hmem
        · exact absurd hi hq
        · exact ih (fun p hp => hsub p (List.mem_cons_of_mem _ hp)) hmem
  exact key rows (fun _ h => h) hr

end Sys2Proof
end

