-- ==== Sys2Proof/Laws/Flags.lean ====
section
/-! SUPPORT. The numbers that the arithmetic, the shifts and the byte operations compute: each shared operation of
Machine/Flags.lean read with toNat and toInt. -/

namespace Sys2Proof.Machine

/-! ## Joined bits -/

theorem toNat_append {n m : Nat} (a : BitVec n) (b : BitVec m) : (a ++ b).toNat = a.toNat * 2 ^ m + b.toNat := by
  rw [BitVec.toNat_append, Nat.shiftLeft_eq, Nat.mul_comm, ← Nat.two_pow_add_eq_or_of_lt b.isLt]

theorem Word.lo_toNat (w : Word) : (Word.lo w).toNat = w.toNat % 256 := by
  simp [Word.lo]

theorem Word.hi_toNat (w : Word) : (Word.hi w).toNat = w.toNat / 256 := by
  have h := w.isLt
  simp [Word.hi, Nat.shiftRight_eq_div_pow]
  omega

theorem joinWord_little_toNat (a b : Byte) : (joinWord .little a b).toNat = a.toNat + 256 * b.toNat := by
  have h := toNat_append b a
  simp only [joinWord]
  omega

theorem joinWord_big_toNat (a b : Byte) : (joinWord .big a b).toNat = 256 * a.toNat + b.toNat := by
  have h := toNat_append a b
  simp only [joinWord]
  omega

/-- The upper byte of a register whose low byte is written (R24). -/
theorem State.upper_setLow (s : State) (r : Reg) (v : Byte) :
    ((s.setLow r v).reg r).toNat / 256 = (s.reg r).toNat / 256 := by
  rw [← Word.hi_toNat, ← Word.hi_toNat, State.hi_setLow]

/-! ## Flags of a result (R10, R28, R29) -/

theorem FReg.setZN_z (f : FReg) {w : Nat} (res : BitVec w) : (f.setZN res).z = true ↔ res.toNat = 0 := by
  simp [FReg.setZN, BitVec.toNat_eq]

theorem FReg.setZN_n (f : FReg) {w : Nat} (res : BitVec w) : (f.setZN res).n = true ↔ 2 ^ (w - 1) ≤ res.toNat := by
  rcases Nat.eq_zero_or_pos w with rfl | hw
  · simp [FReg.setZN, BitVec.eq_nil res]
  · simp [FReg.setZN, BitVec.msb_eq_decide]

/-! ## Sums and differences (R10) -/

theorem addW_carry {w : Nat} (a b : BitVec w) : (addW w a b).carry = true ↔ 2 ^ w ≤ a.toNat + b.toNat := by
  simp [addW]

/-- V after an addition: the exact signed sum does not fit (R31, R145). -/
theorem addW_ovf {w : Nat} (a b : BitVec w) : (addW w a b).ovf = true ↔
    ¬ (-(2 ^ (w - 1) : Int) ≤ a.toInt + b.toInt ∧ a.toInt + b.toInt < (2 ^ (w - 1) : Int)) := by
  have h : (addW w a b).ovf = a.saddOverflow b := by
    rw [BitVec.saddOverflow_eq]
    rfl
  rw [h]
  simp only [BitVec.saddOverflow, Bool.or_eq_true, decide_eq_true_eq]
  omega

theorem subW_carry_borrow {w : Nat} (a b : BitVec w) : (subW .borrow w a b).carry = true ↔ a.toNat < b.toNat := by
  simp [subW]

theorem subW_carry_notBorrow {w : Nat} (a b : BitVec w) : (subW .notBorrow w a b).carry = true ↔ b.toNat ≤ a.toNat := by
  simp [subW]

/-- V after a subtraction: the exact signed difference does not fit (R31, R145). -/
theorem subW_ovf {w : Nat} (p : SubCarry) (a b : BitVec w) : (subW p w a b).ovf = true ↔
    ¬ (-(2 ^ (w - 1) : Int) ≤ a.toInt - b.toInt ∧ a.toInt - b.toInt < (2 ^ (w - 1) : Int)) := by
  have h : (subW p w a b).ovf = a.ssubOverflow b := by
    rw [BitVec.ssubOverflow_eq]
    simp only [subW]
    cases a.msb <;> cases b.msb <;> simp
  rw [h]
  simp only [BitVec.ssubOverflow, Bool.or_eq_true, decide_eq_true_eq]
  omega

/-! ## Shifts (R171 to R174) -/

theorem shiftLeft_res_toNat (v : Word) (inn : Bool) : (shiftLeft v inn).res.toNat = (2 * v.toNat + inn.toNat) % 65536 := by
  have h := toNat_append (v.extractLsb' 0 15) (BitVec.ofBool inn)
  have hv := v.isLt
  simp only [shiftLeft]
  rw [show BitVec.toNat (w := 16) (v.extractLsb' 0 15 ++ BitVec.ofBool inn) = _ from h]
  have hb : inn.toNat < 2 := Bool.toNat_lt inn
  simp only [BitVec.extractLsb'_toNat, BitVec.toNat_ofBool, Nat.shiftRight_zero]
  omega

theorem shiftRight_res_toNat (v : Word) (inn : Bool) :
    (shiftRight v inn).res.toNat = v.toNat / 2 + 32768 * inn.toNat := by
  have h := toNat_append (BitVec.ofBool inn) (v.extractLsb' 1 15)
  have hv := v.isLt
  simp only [shiftRight]
  rw [show BitVec.toNat (w := 16) (BitVec.ofBool inn ++ v.extractLsb' 1 15) = _ from h]
  simp only [BitVec.extractLsb'_toNat, BitVec.toNat_ofBool, Nat.shiftRight_eq_div_pow]
  omega

theorem shiftLeft_out (v : Word) (inn : Bool) : (shiftLeft v inn).out = true ↔ 32768 ≤ v.toNat := by
  have h : v.msb = decide (32768 ≤ v.toNat) := BitVec.msb_eq_decide v
  rw [BitVec.msb_eq_getLsbD_last] at h
  simp only [shiftLeft]
  simp at h
  simp [h]

theorem shiftRight_out (v : Word) (inn : Bool) : (shiftRight v inn).out = true ↔ v.toNat % 2 = 1 := by
  simp [shiftRight, BitVec.getLsbD, Nat.testBit_zero]

/-- C after a shift is the bit moved out, whatever `SHIFT_ZNV` is (R170). -/
@[simp] theorem FReg.shifted_c (f : FReg) (p : ShiftZNV) (t : Nat) (o : ShiftOut) : (f.shifted p t o).c = o.out := by
  cases p <;> rfl

@[simp] theorem FReg.shifted_reserved (f : FReg) (p : ShiftZNV) (t : Nat) (o : ShiftOut) :
    (f.shifted p t o).reserved = f.reserved := by
  cases p <;> rfl

/-! ## Relative targets (R183) -/

/-- The target is `npc` plus the signed offset, modulo 2^16. -/
theorem relTarget_toNat (s : State) (i : Instr) (n8 : Byte) :
    ((s.relTarget i n8).toNat : Int) = (((s.npc i).toNat : Int) + n8.toInt) % 65536 := by
  have h : (n8.signExtend 16).toInt = n8.toInt := BitVec.toInt_signExtend_of_le (by decide)
  rw [← h, BitVec.toInt_eq_toNat_cond]
  have h1 := (s.npc i).isLt
  have h2 := (n8.signExtend 16).isLt
  simp only [State.relTarget, BitVec.toNat_add]
  split <;> omega

end Sys2Proof.Machine
end

