-- ==== Sys2Proof/Laws/Memory.lean ====
section
/-! SUPPORT. The laws of memory: a read after a write, and the canonical form, which every memory operation keeps. -/

namespace Sys2Proof.Machine

/-! ## Cells -/

theorem cellAt_cons (a : Nat) (b : Byte) (cs : List Host.Cell) (j : Nat) :
    cellAt ((a, b) :: cs) j = if a = j then some b else cellAt cs j := rfl

theorem cellAt_insert (cs : List Host.Cell) (k j : Nat) (v : Byte) :
    cellAt (cellInsert cs k v) j = if k = j then some v else cellAt cs j := by
  induction cs with
  | nil => rfl
  | cons c cs ih =>
    obtain ⟨a, b⟩ := c
    unfold cellInsert
    split
    · rfl
    · split
      · rename_i h
        rw [cellAt_cons, cellAt_cons, h]
        split <;> rfl
      · rename_i h
        rw [cellAt_cons, cellAt_cons, ih]
        by_cases h1 : a = j
        · have h2 : k ≠ j := fun e => h (e.trans h1.symm)
          rw [if_pos h1, if_neg h2, if_pos h1]
        · rw [if_neg h1, if_neg h1]

theorem cellAt_erase (cs : List Host.Cell) (k j : Nat) :
    cellAt (cellErase cs k) j = if k = j then none else cellAt cs j := by
  induction cs with
  | nil => simp [cellErase, cellAt]
  | cons c cs ih =>
    obtain ⟨a, b⟩ := c
    unfold cellErase
    split
    · rename_i h
      rw [ih, cellAt_cons, h]
      split <;> rfl
    · rename_i h
      rw [cellAt_cons, cellAt_cons, ih]
      by_cases h1 : a = j
      · have h2 : k ≠ j := fun e => h (h1.trans e.symm)
        rw [if_pos h1, if_neg h2, if_pos h1]
      · rw [if_neg h1, if_neg h1]

/-- Every cell after an insertion is the new one or was there before. -/
theorem mem_cellInsert {cs : List Host.Cell} {k : Nat} {v : Byte} {x : Host.Cell} (h : x ∈ cellInsert cs k v) :
    x = (k, v) ∨ x ∈ cs := by
  induction cs with
  | nil => exact .inl (List.mem_singleton.mp h)
  | cons c cs ih =>
    obtain ⟨a, b⟩ := c
    unfold cellInsert at h
    split at h
    · exact List.mem_cons.mp h
    · split at h
      · exact (List.mem_cons.mp h).imp id (List.mem_cons_of_mem _)
      · rcases List.mem_cons.mp h with h | h
        · exact .inr (h ▸ List.mem_cons_self)
        · exact (ih h).imp id (List.mem_cons_of_mem _)

/-- Every cell after an erasure was there before. -/
theorem mem_cellErase {cs : List Host.Cell} {k : Nat} {x : Host.Cell} (h : x ∈ cellErase cs k) : x ∈ cs := by
  induction cs with
  | nil => simp [cellErase] at h
  | cons c cs ih =>
    obtain ⟨a, b⟩ := c
    by_cases h1 : a = k
    · simp only [cellErase, h1, if_true] at h
      exact List.mem_cons_of_mem _ (ih h)
    · simp only [cellErase, h1, if_false, List.mem_cons] at h
      rcases h with h | h
      · exact h ▸ List.mem_cons_self
      · exact List.mem_cons_of_mem _ (ih h)

theorem cellInsert_ascending (cs : List Host.Cell) (k : Nat) (v : Byte) (h : cs.Pairwise (fun x y => x.1 < y.1)) :
    (cellInsert cs k v).Pairwise (fun x y => x.1 < y.1) := by
  induction cs with
  | nil => simp [cellInsert]
  | cons c cs ih =>
    obtain ⟨a, b⟩ := c
    obtain ⟨hd, tl⟩ := List.pairwise_cons.mp h
    by_cases h1 : k < a
    · simp only [cellInsert, h1, if_true]
      refine List.pairwise_cons.mpr ⟨fun x hx => ?_, h⟩
      rcases List.mem_cons.mp hx with rfl | hx
      · exact h1
      · exact Nat.lt_trans h1 (hd x hx)
    · by_cases h2 : k = a
      · subst h2
        simpa [cellInsert] using List.pairwise_cons.mpr ⟨hd, tl⟩
      · simp only [cellInsert, h1, h2, if_false]
        refine List.pairwise_cons.mpr ⟨fun x hx => ?_, ih tl⟩
        rcases mem_cellInsert hx with rfl | hx
        · show a < k
          omega
        · exact hd x hx

theorem cellErase_ascending (cs : List Host.Cell) (k : Nat) (h : cs.Pairwise (fun x y => x.1 < y.1)) :
    (cellErase cs k).Pairwise (fun x y => x.1 < y.1) := by
  induction cs with
  | nil => simp [cellErase]
  | cons c cs ih =>
    obtain ⟨a, b⟩ := c
    obtain ⟨hd, tl⟩ := List.pairwise_cons.mp h
    by_cases h1 : a = k
    · simpa [cellErase, h1] using ih tl
    · simp only [cellErase, h1, if_false]
      exact List.pairwise_cons.mpr ⟨fun x hx => hd x (mem_cellErase hx), ih tl⟩

/-! ## Reads and writes -/

/-- A read after a write: the value written at that address, what stood there at every other. -/
theorem Memory.read_write (m : Memory) (a b : Word) (v : Byte) : (m.write a v).read b = if a = b then v else m.read b := by
  have e : (a.toNat = b.toNat) = (a = b) := propext BitVec.toNat_inj
  unfold Memory.write
  split
  · rename_i h
    simp only [Memory.read, Memory.unlisted, cellAt_erase, e]
    split
    · exact h.symm
    · rfl
  · simp only [Memory.read, Memory.unlisted, cellAt_insert, e]
    split <;> rfl

@[simp] theorem Memory.read_write_same (m : Memory) (a : Word) (v : Byte) : (m.write a v).read a = v := by
  rw [Memory.read_write, if_pos rfl]

theorem Memory.read_write_other (m : Memory) {a b : Word} (h : b ≠ a) (v : Byte) : (m.write a v).read b = m.read b := by
  rw [Memory.read_write, if_neg (Ne.symm h)]

@[simp] theorem Memory.write_fill (m : Memory) (a : Word) (v : Byte) : (m.write a v).fill = m.fill := by
  unfold Memory.write
  split <;> rfl

/-! ## The canonical form -/

theorem Memory.wf_iff (m : Memory) :
    m.wf = true ↔ m.cells.Pairwise (fun x y => x.1 < y.1) ∧ ∀ x ∈ m.cells, x.1 < 65536 ∧ x.2 ≠ m.fill := by
  simp [Memory.wf, Memory.unlisted]

/-- A write keeps the canonical form. -/
theorem Memory.write_wf (m : Memory) (a : Word) (v : Byte) (h : m.wf = true) : (m.write a v).wf = true := by
  rw [Memory.wf_iff] at h ⊢
  obtain ⟨hp, hm⟩ := h
  unfold Memory.write
  split
  · exact ⟨cellErase_ascending _ _ hp, fun x hx => hm x (mem_cellErase hx)⟩
  · rename_i hv
    refine ⟨cellInsert_ascending _ _ _ hp, fun x hx => ?_⟩
    rcases mem_cellInsert hx with rfl | hx
    · exact ⟨a.isLt, hv⟩
    · exact hm x hx

/-- Placing bytes keeps the canonical form. -/
theorem Memory.place_wf (m : Memory) (a : Word) (bs : List Byte) (h : m.wf = true) : (m.place a bs).wf = true := by
  induction bs generalizing m a with
  | nil => exact h
  | cons b bs ih => exact ih _ _ (Memory.write_wf m a b h)

end Sys2Proof.Machine
end

