-- ==== Sys2Proof/Laws/Ops.lean ====
section
/-! SUPPORT. What each shared operation can do, said once: a later proof cites these lemmas and unfolds no operation. -/

namespace Sys2Proof.Machine

/-! ## conclude -/

theorem conclude_next {α : Type} {r : Except Fault α} {k : α → State} {t : State} :
    conclude r k = .next t ↔ ∃ x, r = .ok x ∧ t = k x := by
  cases r with
  | error e => simp [conclude]
  | ok x => simp [conclude, eq_comm]

theorem conclude_fault {α : Type} {r : Except Fault α} {k : α → State} {e : Fault} :
    conclude r k = .fault e ↔ r = .error e := by
  cases r <;> simp [conclude]

theorem conclude_refused {α : Type} {r : Except Fault α} {k : α → State} {q : Refusal} :
    conclude r k ≠ .refused q := by
  cases r <;> simp [conclude]

/-! ## Alignment -/

/-- Misaligned means odd (R53). -/
theorem misaligned_iff (a : Word) : misaligned a = true ↔ a.toNat % 2 = 1 := by
  simp [misaligned, BitVec.getLsbD, Nat.testBit_zero]

theorem aligned_iff (a : Word) : misaligned a = false ↔ a.toNat % 2 = 0 := by
  have h := misaligned_iff a
  cases hm : misaligned a
  · simp [hm] at h
    simp
    omega
  · simp [hm] at h
    simp
    omega

/-- An even address and the one after it are different addresses. -/
theorem succ_ne (a : Word) : a + 1#16 ≠ a := by
  intro h
  have h2 := congrArg BitVec.toNat h
  have h3 := a.isLt
  rw [BitVec.toNat_add] at h2
  simp at h2
  omega

/-! ## Reads -/

/-- A byte read (R62, U18): at an address that is plain memory or a device's. -/
theorem readByte_ok {s : State} {k : AccessKind} {a : Word} {b : Byte} :
    s.readByte k a = .ok b ↔ (s.regionAt a = .plain ∨ s.regionAt a = .device) ∧ b = s.byteAt k a := by
  unfold State.readByte
  cases h : s.regionAt a <;> simp [eq_comm]

theorem readByte_error {s : State} {k : AccessKind} {a : Word} {e : Fault} :
    s.readByte k a = .error e ↔ (s.regionAt a = .readOnly ∧ e = .readOnly a s.pc) ∨
      (s.regionAt a = .unmapped ∧ e = .unmapped a s.pc) := by
  unfold State.readByte
  cases h : s.regionAt a <;> simp [eq_comm]

/-- Outside device regions a read answers the byte of memory (R62). -/
theorem byteAt_memory {s : State} {k : AccessKind} {a : Word} (h : s.regionAt a ≠ .device) : s.byteAt k a = s.mem.read a := by
  unfold State.byteAt
  split <;> simp_all

theorem memRead8_ok {s : State} {a : Word} {b : Byte} :
    s.memRead8 a = .ok b ↔ (s.regionAt a = .plain ∨ s.regionAt a = .device) ∧ b = s.byteAt .data a := readByte_ok

theorem memRead8_error {s : State} {a : Word} {e : Fault} :
    s.memRead8 a = .error e ↔ (s.regionAt a = .readOnly ∧ e = .readOnly a s.pc) ∨
      (s.regionAt a = .unmapped ∧ e = .unmapped a s.pc) := readByte_error

/-- An address at which a read faults is neither plain memory nor a device's. -/
theorem readByte_error_shut {s : State} {k : AccessKind} {a : Word} {e : Fault} (h : s.readByte k a = .error e) :
    ¬ (s.regionAt a = .plain ∨ s.regionAt a = .device) := by
  rcases readByte_error.mp h with ⟨h, _⟩ | ⟨h, _⟩ <;> simp [h]

/-- A word read (R54): at an even address with both bytes plain memory or a device's, the two bytes in the order of `ENDIAN`. -/
theorem memRead16_ok {s : State} {a : Word} {w : Word} :
    s.memRead16 a = .ok w ↔ misaligned a = false ∧ (s.regionAt a = .plain ∨ s.regionAt a = .device) ∧
      (s.regionAt (a + 1#16) = .plain ∨ s.regionAt (a + 1#16) = .device) ∧
      w = joinWord s.cfg.endian (s.byteAt .data a) (s.byteAt .data (a + 1#16)) := by
  unfold State.memRead16
  cases hm : misaligned a
  · cases h0 : s.readByte .data a with
    | error e => simp [readByte_error_shut h0]
    | ok b0 =>
      obtain ⟨h0a, rfl⟩ := readByte_ok.mp h0
      cases h1 : s.readByte .data (a + 1#16) with
      | error e => simp [readByte_error_shut h1]
      | ok b1 =>
        obtain ⟨h1a, rfl⟩ := readByte_ok.mp h1
        exact ⟨fun h => ⟨rfl, h0a, h1a, (Except.ok.inj h).symm⟩, fun h => congrArg Except.ok h.2.2.2.symm⟩
  · simp

/-- A word read that faults: Bus Error at an odd address, else the first byte that may not be read. -/
theorem memRead16_error {s : State} {a : Word} {e : Fault} (h : s.memRead16 a = .error e) :
    (misaligned a = true ∧ e = .busError a s.pc) ∨ (misaligned a = false ∧ (s.readByte .data a = .error e ∨
      (s.regionAt a = .plain ∨ s.regionAt a = .device) ∧ s.readByte .data (a + 1#16) = .error e)) := by
  unfold State.memRead16 at h
  split at h
  · rename_i hm
    exact .inl ⟨hm, by simpa using h.symm⟩
  · rename_i hm
    refine .inr ⟨by simpa using hm, ?_⟩
    split at h
    · rename_i e' he
      cases h
      exact .inl he
    · rename_i b0 h0
      split at h
      · rename_i e' he
        cases h
        exact .inr ⟨(readByte_ok.mp h0).1, he⟩
      · cases h

theorem memRead16_odd {s : State} {a : Word} (h : misaligned a = true) : s.memRead16 a = .error (.busError a s.pc) := by
  simp [State.memRead16, h]

/-! ## Writes -/

/-- A byte written (R55): into plain memory, or into a device region with no effect on memory. -/
theorem writeByte_ok {s t : State} {a : Word} {v : Byte} :
    s.writeByte a v = .ok t ↔ (s.regionAt a = .plain ∧ t = s.setMem (s.mem.write a v)) ∨ (s.regionAt a = .device ∧ t = s) := by
  unfold State.writeByte
  cases h : s.regionAt a <;> simp [eq_comm]

theorem writeByte_error {s : State} {a : Word} {v : Byte} {e : Fault} :
    s.writeByte a v = .error e ↔ (s.regionAt a = .readOnly ∧ e = .readOnly a s.pc) ∨
      (s.regionAt a = .unmapped ∧ e = .unmapped a s.pc) := by
  unfold State.writeByte
  cases h : s.regionAt a <;> simp [eq_comm]

/-- A byte write changes memory at its address alone, and nothing but memory. -/
theorem writeByte_frame {s t : State} {a : Word} {v : Byte} (h : s.writeByte a v = .ok t) :
    t = s.setMem t.mem ∧ (∀ b, b ≠ a → t.mem.read b = s.mem.read b) ∧
      t.mem.read a = if s.regionAt a = .plain then v else s.mem.read a := by
  rcases writeByte_ok.mp h with ⟨hr, rfl⟩ | ⟨hr, rfl⟩
  · refine ⟨rfl, fun b hb => Memory.read_write_other _ hb v, ?_⟩
    simp [hr]
  · refine ⟨rfl, fun _ _ => rfl, ?_⟩
    simp [hr]

theorem writeByte_wf {s t : State} {a : Word} {v : Byte} (h : s.writeByte a v = .ok t) (hw : s.mem.wf = true) :
    t.mem.wf = true := by
  rcases writeByte_ok.mp h with ⟨_, rfl⟩ | ⟨_, rfl⟩
  · exact Memory.write_wf _ _ _ hw
  · exact hw

/-- What a word write that answers a next state has done (R55): nothing but memory is changed, and of memory the two bytes
alone, each to its byte of the word where its address is plain memory. -/
theorem memWrite16_frame {s t : State} {a v : Word} (h : s.memWrite16 a v = .ok t) :
    misaligned a = false ∧ t = s.setMem t.mem ∧ (∀ b, b ≠ a → b ≠ a + 1#16 → t.mem.read b = s.mem.read b) ∧
      (t.mem.read a = if s.regionAt a = .plain then (wordBytes s.cfg.endian v).1 else s.mem.read a) ∧
      (t.mem.read (a + 1#16) = if s.regionAt (a + 1#16) = .plain then (wordBytes s.cfg.endian v).2 else s.mem.read (a + 1#16)) := by
  unfold State.memWrite16 at h
  split at h
  · cases h
  · rename_i hm
    split at h
    · cases h
    · rename_i u hu
      obtain ⟨u1, u2, u3⟩ := writeByte_frame hu
      obtain ⟨t1, t2, t3⟩ := writeByte_frame h
      have e1 : u.regionAt (a + 1#16) = s.regionAt (a + 1#16) := by rw [u1]; rfl
      refine ⟨by simpa using hm, ?_, ?_, ?_, ?_⟩
      · rw [t1, u1]; rfl
      · intro b h1 h2
        rw [t2 b h2, u2 b h1]
      · rw [t2 a (succ_ne a).symm, u3]
      · rw [t3, e1, u2 (a + 1#16) (succ_ne a)]

theorem memWrite16_wf {s t : State} {a v : Word} (h : s.memWrite16 a v = .ok t) (hw : s.mem.wf = true) : t.mem.wf = true := by
  unfold State.memWrite16 at h
  split at h
  · cases h
  · split at h
    · cases h
    · rename_i u hu
      exact writeByte_wf h (writeByte_wf hu hw)

/-- A word write completes at an even address whose two bytes are neither read-only nor unmapped. -/
theorem memWrite16_completes {s : State} {a : Word} (v : Word) (hm : misaligned a = false)
    (h0 : s.regionAt a = .plain ∨ s.regionAt a = .device)
    (h1 : s.regionAt (a + 1#16) = .plain ∨ s.regionAt (a + 1#16) = .device) : ∃ t, s.memWrite16 a v = .ok t := by
  have step2 : ∀ u : State, u.regionAt (a + 1#16) = s.regionAt (a + 1#16) →
      ∃ t, u.writeByte (a + 1#16) (wordBytes s.cfg.endian v).2 = .ok t := by
    intro u hu
    rcases h1 with h1 | h1
    · exact ⟨_, writeByte_ok.mpr (.inl ⟨hu.trans h1, rfl⟩)⟩
    · exact ⟨_, writeByte_ok.mpr (.inr ⟨hu.trans h1, rfl⟩)⟩
  unfold State.memWrite16
  rw [if_neg (by simp [hm])]
  rcases h0 with h0 | h0
  · rw [writeByte_ok.mpr (.inl ⟨h0, rfl⟩)]
    exact step2 _ rfl
  · rw [writeByte_ok.mpr (.inr ⟨h0, rfl⟩)]
    exact step2 _ rfl

/-- A word write that faults: Bus Error at an odd address, else a byte that may not be written. -/
theorem memWrite16_error {s : State} {a v : Word} {e : Fault} (h : s.memWrite16 a v = .error e) :
    (misaligned a = true ∧ e = .busError a s.pc) ∨ (misaligned a = false ∧ ∃ b, (b = a ∨ b = a + 1#16) ∧
      ((s.regionAt b = .readOnly ∧ e = .readOnly b s.pc) ∨ (s.regionAt b = .unmapped ∧ e = .unmapped b s.pc))) := by
  unfold State.memWrite16 at h
  split at h
  · rename_i hm
    exact .inl ⟨hm, by simpa using h.symm⟩
  · rename_i hm
    refine .inr ⟨by simpa using hm, ?_⟩
    split at h
    · rename_i e' he
      cases h
      exact ⟨a, .inl rfl, writeByte_error.mp he⟩
    · rename_i u hu
      have hu' := (writeByte_frame hu).1
      refine ⟨a + 1#16, .inr rfl, ?_⟩
      have := writeByte_error.mp h
      rwa [hu'] at this

theorem memWrite16_odd {s : State} {a : Word} (v : Word) (h : misaligned a = true) :
    s.memWrite16 a v = .error (.busError a s.pc) := by
  simp [State.memWrite16, h]

/-! ## The stack -/

/-- What a push that answers a next state has done (R60). -/
theorem push16_frame {s t : State} {v : Word} (h : s.push16 v = .ok t) :
    misaligned (s.sp - 2#16) = false ∧ t = (s.setReg .r7 (s.sp - 2#16)).setMem t.mem ∧
      (∀ b, b ≠ s.sp - 2#16 → b ≠ s.sp - 2#16 + 1#16 → t.mem.read b = s.mem.read b) ∧
      (t.mem.read (s.sp - 2#16) =
        if s.regionAt (s.sp - 2#16) = .plain then (wordBytes s.cfg.endian v).1 else s.mem.read (s.sp - 2#16)) ∧
      (t.mem.read (s.sp - 2#16 + 1#16) =
        if s.regionAt (s.sp - 2#16 + 1#16) = .plain then (wordBytes s.cfg.endian v).2 else s.mem.read (s.sp - 2#16 + 1#16)) :=
  memWrite16_frame h

theorem push16_wf {s t : State} {v : Word} (h : s.push16 v = .ok t) (hw : s.mem.wf = true) : t.mem.wf = true :=
  memWrite16_wf h hw

/-- What a pop answers (R61). -/
theorem pop16_ok {s : State} {p : Word × State} :
    s.pop16 = .ok p ↔ s.memRead16 s.sp = .ok p.1 ∧ p.2 = s.setReg .r7 (s.sp + 2#16) := by
  unfold State.pop16
  split
  · rename_i e he
    simp [he]
  · rename_i w hw
    obtain ⟨x, y⟩ := p
    simp [hw, eq_comm]

theorem pop16_error {s : State} {e : Fault} : s.pop16 = .error e ↔ s.memRead16 s.sp = .error e := by
  unfold State.pop16
  split
  · rename_i e' he
    simp [he]
  · rename_i w hw
    simp [hw]

theorem push16_odd {s : State} (v : Word) (h : s.sp.toNat % 2 = 1) : s.push16 v = .error (.busError (s.sp - 2#16) s.pc) := by
  refine memWrite16_odd (s := s.setReg .r7 (s.sp - 2#16)) v ((misaligned_iff _).mpr ?_)
  rw [BitVec.toNat_sub]
  simp
  omega

/-- A pop from a state whose `sp`, memory and parameters are those a push on plain memory left: the pushed word, and the old
`sp` (R60, R61). -/
theorem pop16_after_push16 {s u t : State} {v : Word} (h0 : s.regionAt (s.sp - 2#16) = .plain)
    (h1 : s.regionAt (s.sp - 2#16 + 1#16) = .plain) (h : s.push16 v = .ok u) (hm : t.mem = u.mem) (hs : t.sp = u.sp)
    (hc : t.cfg = u.cfg) : t.pop16 = .ok (v, t.setReg .r7 s.sp) := by
  obtain ⟨ha, he, _, hb, hd⟩ := push16_frame h
  have spu : u.sp = s.sp - 2#16 := by
    rw [he]
    exact State.reg_setReg_same s .r7 _
  have cu : u.cfg = s.cfg := by
    rw [he]
    rfl
  have reg : ∀ a, t.regionAt a = s.regionAt a := fun a => by simp [State.regionAt, hc, cu]
  have b0 : t.byteAt .data (s.sp - 2#16) = (wordBytes s.cfg.endian v).1 := by
    rw [byteAt_memory (by simp [reg, h0]), hm, hb, if_pos h0]
  have b1 : t.byteAt .data (s.sp - 2#16 + 1#16) = (wordBytes s.cfg.endian v).2 := by
    rw [byteAt_memory (by simp [reg, h1]), hm, hd, if_pos h1]
  refine pop16_ok.mpr ⟨?_, by rw [hs, spu]; simp⟩
  rw [hs, spu]
  refine memRead16_ok.mpr ⟨ha, by simp [reg, h0], by simp [reg, h1], ?_⟩
  rw [b0, b1, hc, cu, joinWord_wordBytes]

/-! ## Interrupts -/

/-- What an interrupt entry that answers a next state has done (R219). -/
theorem takeInterrupt_next {src : IntSource} {s t : State} :
    takeInterrupt src s = .next t ↔ ∃ v u, src.vector = some v ∧
      ((s.setHalted false).setIme false).push16 s.pc = .ok u ∧ t = u.setPc v := by
  unfold takeInterrupt
  split
  · rename_i h
    simp [h]
  · rename_i v h
    simp [conclude_next, h]

/-- What a return from interrupt that answers a next state has done (R189). -/
theorem returnFromInterrupt_next {s t : State} :
    returnFromInterrupt s = .next t ↔ ∃ w, s.memRead16 s.sp = .ok w ∧
      t = ((s.setReg .r7 (s.sp + 2#16)).setPc w).setIme true := by
  unfold returnFromInterrupt
  rw [conclude_next]
  constructor
  · rintro ⟨p, hp, rfl⟩
    obtain ⟨h1, h2⟩ := pop16_ok.mp hp
    exact ⟨p.1, h1, by rw [h2]⟩
  · rintro ⟨w, hw, rfl⟩
    exact ⟨(w, s.setReg .r7 (s.sp + 2#16)), pop16_ok.mpr ⟨hw, rfl⟩, rfl⟩

/-! ## Shared last steps of the meanings -/

@[simp] theorem jumpIf_taken {s : State} {cc : Cond} {i : Instr} {target : Word} (h : s.f.holds cc = true) :
    s.jumpIf cc i target = .next (s.setPc target) := if_pos h

@[simp] theorem jumpIf_notTaken {s : State} {cc : Cond} {i : Instr} {target : Word} (h : s.f.holds cc = false) :
    s.jumpIf cc i target = .next (s.advance i) := if_neg (by simp [h])

@[simp] theorem callIf_taken {s : State} {cc : Cond} {i : Instr} {target : Word} (h : s.f.holds cc = true) :
    s.callIf cc i target = s.callTo i target := if_pos h

@[simp] theorem callIf_notTaken {s : State} {cc : Cond} {i : Instr} {target : Word} (h : s.f.holds cc = false) :
    s.callIf cc i target = .next (s.advance i) := if_neg (by simp [h])

theorem callTo_next {s t : State} {i : Instr} {target : Word} :
    s.callTo i target = .next t ↔ ∃ u, s.push16 (s.npc i) = .ok u ∧ t = u.setPc target := conclude_next

end Sys2Proof.Machine
end

