-- ==== Sys2Proof/Laws/PerInstr.lean ====
section
/-! SUPPORT. Families of statements made per instruction (LAWS.json). -/

namespace Sys2Proof.Laws

/-- The encoding of an instruction has `ilen` bytes, in either byte order (R83, R84). -/
def EncodedLength.Statement (i : Instr) : Prop := ∀ e, (encode e i).length = i.ilen

theorem EncodedLength.ldReg (rd : Reg) (rs : Reg) : EncodedLength.Statement (.ldReg rd rs) := fun _ => rfl
theorem EncodedLength.ldImm (r : Reg) (n16 : Word) : EncodedLength.Statement (.ldImm r n16) := fun _ => rfl
theorem EncodedLength.ldwInd (rd : Reg) (rs : Reg) : EncodedLength.Statement (.ldwInd rd rs) := fun _ => rfl
theorem EncodedLength.ldbInd (rd : Reg) (rs : Reg) : EncodedLength.Statement (.ldbInd rd rs) := fun _ => rfl
theorem EncodedLength.stwInd (rd : Reg) (rs : Reg) : EncodedLength.Statement (.stwInd rd rs) := fun _ => rfl
theorem EncodedLength.stbInd (rd : Reg) (rs : Reg) : EncodedLength.Statement (.stbInd rd rs) := fun _ => rfl
theorem EncodedLength.ldwAbs (r : Reg) (n16 : Word) : EncodedLength.Statement (.ldwAbs r n16) := fun _ => rfl
theorem EncodedLength.stwAbs (n16 : Word) (r : Reg) : EncodedLength.Statement (.stwAbs n16 r) := fun _ => rfl
theorem EncodedLength.push (r : Reg) : EncodedLength.Statement (.push r) := fun _ => rfl
theorem EncodedLength.pop (r : Reg) : EncodedLength.Statement (.pop r) := fun _ => rfl
theorem EncodedLength.addReg (rs : Reg) : EncodedLength.Statement (.addReg rs) := fun _ => rfl
theorem EncodedLength.addImm (r : Reg) (n16 : Word) : EncodedLength.Statement (.addImm r n16) := fun _ => rfl
theorem EncodedLength.subReg (rs : Reg) : EncodedLength.Statement (.subReg rs) := fun _ => rfl
theorem EncodedLength.subImm (r : Reg) (n16 : Word) : EncodedLength.Statement (.subImm r n16) := fun _ => rfl
theorem EncodedLength.andReg (rs : Reg) : EncodedLength.Statement (.andReg rs) := fun _ => rfl
theorem EncodedLength.andImm (r : Reg) (n16 : Word) : EncodedLength.Statement (.andImm r n16) := fun _ => rfl
theorem EncodedLength.orReg (rs : Reg) : EncodedLength.Statement (.orReg rs) := fun _ => rfl
theorem EncodedLength.orImm (r : Reg) (n16 : Word) : EncodedLength.Statement (.orImm r n16) := fun _ => rfl
theorem EncodedLength.xorReg (rs : Reg) : EncodedLength.Statement (.xorReg rs) := fun _ => rfl
theorem EncodedLength.xorImm (r : Reg) (n16 : Word) : EncodedLength.Statement (.xorImm r n16) := fun _ => rfl
theorem EncodedLength.incReg (r : Reg) : EncodedLength.Statement (.incReg r) := fun _ => rfl
theorem EncodedLength.decReg (r : Reg) : EncodedLength.Statement (.decReg r) := fun _ => rfl
theorem EncodedLength.cmpReg (rs : Reg) : EncodedLength.Statement (.cmpReg rs) := fun _ => rfl
theorem EncodedLength.cmpImm (r : Reg) (n16 : Word) : EncodedLength.Statement (.cmpImm r n16) := fun _ => rfl
theorem EncodedLength.addbReg (rs : Reg) : EncodedLength.Statement (.addbReg rs) := fun _ => rfl
theorem EncodedLength.addbImm (r : Reg) (n8 : Byte) : EncodedLength.Statement (.addbImm r n8) := fun _ => rfl
theorem EncodedLength.subbReg (rs : Reg) : EncodedLength.Statement (.subbReg rs) := fun _ => rfl
theorem EncodedLength.andbReg (rs : Reg) : EncodedLength.Statement (.andbReg rs) := fun _ => rfl
theorem EncodedLength.orbReg (rs : Reg) : EncodedLength.Statement (.orbReg rs) := fun _ => rfl
theorem EncodedLength.xorbReg (rs : Reg) : EncodedLength.Statement (.xorbReg rs) := fun _ => rfl
theorem EncodedLength.incbReg (r : Reg) : EncodedLength.Statement (.incbReg r) := fun _ => rfl
theorem EncodedLength.decbReg (r : Reg) : EncodedLength.Statement (.decbReg r) := fun _ => rfl
theorem EncodedLength.cmpbReg (rs : Reg) : EncodedLength.Statement (.cmpbReg rs) := fun _ => rfl
theorem EncodedLength.cmpbImm (r : Reg) (n8 : Byte) : EncodedLength.Statement (.cmpbImm r n8) := fun _ => rfl
theorem EncodedLength.shl (r : Reg) : EncodedLength.Statement (.shl r) := fun _ => rfl
theorem EncodedLength.shr (r : Reg) : EncodedLength.Statement (.shr r) := fun _ => rfl
theorem EncodedLength.rol (r : Reg) : EncodedLength.Statement (.rol r) := fun _ => rfl
theorem EncodedLength.ror (r : Reg) : EncodedLength.Statement (.ror r) := fun _ => rfl
theorem EncodedLength.bit (r : Reg) (n8 : Byte) : EncodedLength.Statement (.bit r n8) := fun _ => rfl
theorem EncodedLength.jmp (n16 : Word) : EncodedLength.Statement (.jmp n16) := fun _ => rfl
theorem EncodedLength.jmpReg (r : Reg) : EncodedLength.Statement (.jmpReg r) := fun _ => rfl
theorem EncodedLength.jr (n8 : Byte) : EncodedLength.Statement (.jr n8) := fun _ => rfl
theorem EncodedLength.jz (n16 : Word) : EncodedLength.Statement (.jz n16) := fun _ => rfl
theorem EncodedLength.jnz (n16 : Word) : EncodedLength.Statement (.jnz n16) := fun _ => rfl
theorem EncodedLength.jc (n16 : Word) : EncodedLength.Statement (.jc n16) := fun _ => rfl
theorem EncodedLength.jnc (n16 : Word) : EncodedLength.Statement (.jnc n16) := fun _ => rfl
theorem EncodedLength.jn (n16 : Word) : EncodedLength.Statement (.jn n16) := fun _ => rfl
theorem EncodedLength.jnn (n16 : Word) : EncodedLength.Statement (.jnn n16) := fun _ => rfl
theorem EncodedLength.jv (n16 : Word) : EncodedLength.Statement (.jv n16) := fun _ => rfl
theorem EncodedLength.jnv (n16 : Word) : EncodedLength.Statement (.jnv n16) := fun _ => rfl
theorem EncodedLength.jrz (n8 : Byte) : EncodedLength.Statement (.jrz n8) := fun _ => rfl
theorem EncodedLength.jrnz (n8 : Byte) : EncodedLength.Statement (.jrnz n8) := fun _ => rfl
theorem EncodedLength.jrc (n8 : Byte) : EncodedLength.Statement (.jrc n8) := fun _ => rfl
theorem EncodedLength.jrnc (n8 : Byte) : EncodedLength.Statement (.jrnc n8) := fun _ => rfl
theorem EncodedLength.jrn (n8 : Byte) : EncodedLength.Statement (.jrn n8) := fun _ => rfl
theorem EncodedLength.jrnn (n8 : Byte) : EncodedLength.Statement (.jrnn n8) := fun _ => rfl
theorem EncodedLength.jrv (n8 : Byte) : EncodedLength.Statement (.jrv n8) := fun _ => rfl
theorem EncodedLength.jrnv (n8 : Byte) : EncodedLength.Statement (.jrnv n8) := fun _ => rfl
theorem EncodedLength.call (n16 : Word) : EncodedLength.Statement (.call n16) := fun _ => rfl
theorem EncodedLength.callz (n16 : Word) : EncodedLength.Statement (.callz n16) := fun _ => rfl
theorem EncodedLength.callnz (n16 : Word) : EncodedLength.Statement (.callnz n16) := fun _ => rfl
theorem EncodedLength.callc (n16 : Word) : EncodedLength.Statement (.callc n16) := fun _ => rfl
theorem EncodedLength.callnc (n16 : Word) : EncodedLength.Statement (.callnc n16) := fun _ => rfl
theorem EncodedLength.calln (n16 : Word) : EncodedLength.Statement (.calln n16) := fun _ => rfl
theorem EncodedLength.callnn (n16 : Word) : EncodedLength.Statement (.callnn n16) := fun _ => rfl
theorem EncodedLength.callv (n16 : Word) : EncodedLength.Statement (.callv n16) := fun _ => rfl
theorem EncodedLength.callnv (n16 : Word) : EncodedLength.Statement (.callnv n16) := fun _ => rfl
theorem EncodedLength.ret : EncodedLength.Statement .ret := fun _ => rfl
theorem EncodedLength.reti : EncodedLength.Statement .reti := fun _ => rfl
theorem EncodedLength.nop : EncodedLength.Statement .nop := fun _ => rfl
theorem EncodedLength.halt : EncodedLength.Statement .halt := fun _ => rfl
theorem EncodedLength.di : EncodedLength.Statement .di := fun _ => rfl
theorem EncodedLength.ei : EncodedLength.Statement .ei := fun _ => rfl

end Sys2Proof.Laws
end

