-- ==== Sys2Proof/Laws/Step.lean ====
section
/-! SUPPORT. What the fetch and the step can do, said once. -/

namespace Sys2Proof.Machine

/-! ## The fetch -/

/-! One byte more of the fetch (R58): it faults, or the bytes so far are an instruction, illegal, or too few. -/

theorem fetchMore_fault {s : State} {a : Word} {got : List Byte} {n : Nat} {e : Fault} (h : s.readByte .fetch a = .error e) :
    s.fetchMore a got (n + 1) = .error e := by
  simp only [State.fetchMore, h]

theorem fetchMore_ok {s : State} {a : Word} {got rest : List Byte} {n : Nat} {b : Byte} {i : Instr}
    (h : s.readByte .fetch a = .ok b) (hd : decodeWith s.cfg.enc s.cfg.endian (got ++ [b]) = .ok (i, rest)) :
    s.fetchMore a got (n + 1) = .ok i := by
  simp only [State.fetchMore, h, hd]

theorem fetchMore_unassigned {s : State} {a : Word} {got : List Byte} {n : Nat} {b : Byte} (h : s.readByte .fetch a = .ok b)
    (hd : decodeWith s.cfg.enc s.cfg.endian (got ++ [b]) = .error .unassigned) :
    s.fetchMore a got (n + 1) = .error (.illegalInstruction s.pc) := by
  simp only [State.fetchMore, h, hd]

theorem fetchMore_truncated {s : State} {a : Word} {got : List Byte} {n : Nat} {b : Byte} (h : s.readByte .fetch a = .ok b)
    (hd : decodeWith s.cfg.enc s.cfg.endian (got ++ [b]) = .error .truncated) :
    s.fetchMore a got (n + 1) = s.fetchMore (a + 1#16) (got ++ [b]) n := by
  simp only [State.fetchMore, h, hd]

/-! ## The step -/

theorem runInstr_next {s t : State} : runInstr s = .next t ↔ ∃ i, s.fetchInstr = .ok i ∧ exec i s = .next t := by
  unfold runInstr
  cases h : s.fetchInstr <;> simp

/-- Everything a step that answers a next state can have been (R11, R219, R222). -/
theorem step_next {s t : State} : step s = .next t ↔
    (s.stepKind = .instruction ∧ ∃ i, s.beginStep.fetchInstr = .ok i ∧ exec i s.beginStep = .next t) ∨
    (∃ src, s.stepKind = .entry src ∧ takeInterrupt src s.beginStep = .next t) ∨
    (s.stepKind = .wake ∧ t = s.passBoundary.setHalted false) ∨
    (s.stepKind = .idle ∧ t = s.passBoundary) := by
  unfold step
  cases h : s.stepKind with
  | instruction => simp [runInstr_next]
  | entry src => simp
  | wake => simp [eq_comm]
  | idle => simp [eq_comm]
  | openWake => simp

/-- What an interrupt entry that answers a next state leaves (R219). -/
theorem takeInterrupt_frame {src : IntSource} {s t : State} (h : takeInterrupt src s = .next t) :
    ∃ v, src.vector = some v ∧ misaligned (s.sp - 2#16) = false ∧
      t = ((((s.setHalted false).setIme false).setReg .r7 (s.sp - 2#16)).setMem t.mem).setPc v ∧
      (∀ b, b ≠ s.sp - 2#16 → b ≠ s.sp - 2#16 + 1#16 → t.mem.read b = s.mem.read b) := by
  obtain ⟨v, u, hv, hu, rfl⟩ := takeInterrupt_next.mp h
  obtain ⟨hm, he, hk, _⟩ := push16_frame hu
  refine ⟨v, hv, hm, ?_, hk⟩
  show u.setPc v = _
  rw [he]
  rfl

end Sys2Proof.Machine
end

