-- ==== Sys2Proof/Tests/Slice0.lean ====
section
/-! SUPPORT. Tests: the checks of WellFormed, words written out from the encoding tables, one step of each instruction from the
vectors of spec/95_test_vectors.md (V1 to V182; where a comment names a rule instead, the expected values were worked out by
hand from it), and for every obligation with hypotheses a state and operands that meet them. -/

namespace Sys2Proof.Tests

open Sys2Proof.Machine Sys2Proof.Machine.Claims

/-! ## Small states -/

/-- A state with some registers, F as a word, bytes in memory and an instruction's bytes at `pc = 0x0100`. -/
def before (regs : List (Reg × Word)) (flags : Word) (data : List (Word × List Byte)) (code : List Byte) : State :=
  let s := { State.reset with pc := 0x0100, f := FReg.ofWord flags, mem := State.reset.mem.place 0x0100 code }
  let s := regs.foldl (fun s p => s.setReg p.1 p.2) s
  data.foldl (fun s p => s.setMem (s.mem.place p.1 p.2)) s

/-- The same with an interrupt enable. -/
def withIme (b : Bool) (s : State) : State := s.setIme b

/-- The same under other parameters. -/
def withCfg (c : Config) (s : State) : State := { s with cfg := c }

/-- What a next state shows. -/
def after {α : Type} (r : Result) (look : State → α) : Option α :=
  match r with
  | .next t => some (look t)
  | .fault _ => none
  | .refused _ => none

/-- The fault of an outcome. -/
def faultOf (r : Result) : Option Fault :=
  match r with
  | .next _ => none
  | .fault e => some e
  | .refused _ => none

/-- The refusal of an outcome. -/
def refusalOf (r : Result) : Option Refusal :=
  match r with
  | .next _ => none
  | .fault _ => none
  | .refused q => some q

/-! ## WellFormed -/

theorem test_wellFormed_refuses_push_r7 : Instr.wellFormed (.push .r7) = false := by decide
theorem test_wellFormed_refuses_pop_r7 : Instr.wellFormed (.pop .r7) = false := by decide
theorem test_wellFormed_refuses_bit_index_16 : Instr.wellFormed (.bit .r0 16) = false := by decide
theorem test_wellFormed_accepts_boundary :
    (Instr.wellFormed (.push .r6) && Instr.wellFormed (.pop .r6) && Instr.wellFormed (.bit .r7 15)) = true := by decide

/-! ## Decoding: words from the tables of spec/30_encoding.md R85 to R87 -/

/-- Every listed word is one whole instruction, and it is the listed one. -/
def decodesTo (table : List (List Byte × Instr)) : Bool :=
  table.all fun row =>
    match decode .little row.1 with
    | .ok (i, []) => decide (i = row.2)
    | .ok (_, _ :: _) => false
    | .error _ => false

/-- R110 to R119. -/
theorem test_decode_load_store : decodesTo [
    ([0x0F, 0x0A], .ldReg .r1 .r2), ([0x10, 0x00, 0x80], .ldImm .r0 0x8000), ([0x0E, 0x13], .ldwInd .r2 .r3),
    ([0x0E, 0x53], .ldbInd .r2 .r3), ([0x0E, 0xA5], .stwInd .r4 .r5), ([0x0E, 0xE5], .stbInd .r4 .r5),
    ([0x18, 0x00, 0xC0], .ldwAbs .r0 0xC000), ([0x20, 0x00, 0xC0], .stwAbs 0xC000 .r0), ([0x2E], .push .r6),
    ([0x31], .pop .r1)] = true := by decide

/-- R131 to R144. -/
theorem test_decode_alu16 : decodesTo [
    ([0x41], .addReg .r1), ([0x83, 0x00, 0x01], .addImm .r3 0x0100), ([0x49], .subReg .r1),
    ([0x88, 0x00, 0x01], .subImm .r0 0x0100), ([0x51], .andReg .r1), ([0x90, 0xFF, 0x00], .andImm .r0 0x00FF),
    ([0x59], .orReg .r1), ([0x98, 0xF0, 0xF0], .orImm .r0 0xF0F0), ([0x61], .xorReg .r1),
    ([0xA0, 0xFF, 0xFF], .xorImm .r0 0xFFFF), ([0x72], .incReg .r2), ([0x7A], .decReg .r2), ([0x69], .cmpReg .r1),
    ([0xAD, 0x00, 0x40], .cmpImm .r5 0x4000)] = true := by decide

/-- R151 to R160. -/
theorem test_decode_alu8 : decodesTo [
    ([0x0F, 0x41], .addbReg .r1), ([0xB4, 0xFF], .addbImm .r4 0xFF), ([0x0F, 0x49], .subbReg .r1),
    ([0x0F, 0x51], .andbReg .r1), ([0x0F, 0x59], .orbReg .r1), ([0x0F, 0x61], .xorbReg .r1),
    ([0x0F, 0x72], .incbReg .r2), ([0x0F, 0x7F], .decbReg .r7), ([0x0F, 0x69], .cmpbReg .r1),
    ([0xBB, 0x80], .cmpbImm .r3 0x80)] = true := by decide

/-- R171 to R175. -/
theorem test_decode_shift_bit : decodesTo [
    ([0xC3], .shl .r3), ([0xC8], .shr .r0), ([0xD5], .rol .r5), ([0xD8], .ror .r0), ([0xE3, 0x0F], .bit .r3 15)] = true := by decide

/-- R181 to R185. -/
theorem test_decode_jumps : decodesTo [
    ([0x08, 0x34, 0x12], .jmp 0x1234), ([0x3F], .jmpReg .r7), ([0x09, 0x10], .jr 0x10),
    ([0xE8, 0x34, 0x12], .jz 0x1234), ([0xE9, 0x34, 0x12], .jnz 0x1234), ([0xEA, 0x34, 0x12], .jc 0x1234),
    ([0xEB, 0x34, 0x12], .jnc 0x1234), ([0xEC, 0x34, 0x12], .jn 0x1234), ([0xED, 0x34, 0x12], .jnn 0x1234),
    ([0xEE, 0x34, 0x12], .jv 0x1234), ([0xEF, 0x34, 0x12], .jnv 0x1234), ([0xF0, 0xFC], .jrz 0xFC),
    ([0xF1, 0xFC], .jrnz 0xFC), ([0xF2, 0xFC], .jrc 0xFC), ([0xF3, 0xFC], .jrnc 0xFC), ([0xF4, 0xFC], .jrn 0xFC),
    ([0xF5, 0xFC], .jrnn 0xFC), ([0xF6, 0xFC], .jrv 0xFC), ([0xF7, 0xFC], .jrnv 0xFC)] = true := by decide

/-- R186 to R189. -/
theorem test_decode_calls : decodesTo [
    ([0x0A, 0x00, 0x20], .call 0x2000), ([0xF8, 0x00, 0x20], .callz 0x2000), ([0xF9, 0x00, 0x20], .callnz 0x2000),
    ([0xFA, 0x00, 0x20], .callc 0x2000), ([0xFB, 0x00, 0x20], .callnc 0x2000), ([0xFC, 0x00, 0x20], .calln 0x2000),
    ([0xFD, 0x00, 0x20], .callnn 0x2000), ([0xFE, 0x00, 0x20], .callv 0x2000), ([0xFF, 0x00, 0x20], .callnv 0x2000),
    ([0x04], .ret), ([0x05], .reti)] = true := by decide

/-- R200 to R203. -/
theorem test_decode_cpu_control : decodesTo [
    ([0x00], .nop), ([0x01], .halt), ([0x02], .di), ([0x03], .ei)] = true := by decide

/-- R90 under `ENDIAN = big` (V5). -/
theorem test_decode_big_endian_immediate : decode .big [0x10, 0x80, 0x00] = .ok (.ldImm .r0 0x8000, []) := rfl

/-- V170, V171: a prefix byte followed by the other's value is no double prefix. -/
theorem test_decode_second_byte_0E :
    decodesTo [([0x0E, 0x0E], .ldwInd .r1 .r6), ([0x0F, 0x0E], .ldReg .r1 .r6), ([0x0E, 0xFF], .stbInd .r7 .r7)] = true := by decide

/-- R93: the unassigned encodings. -/
theorem test_decode_refuses_unassigned :
    ([[0x06], [0x07], [0x0B], [0x0C], [0x0D], [0x0F, 0x80], [0x0F, 0xFF]].all fun bytes =>
      match decode .little bytes with
      | .error .unassigned => true
      | .error .truncated => false
      | .ok _ => false) = true := by decide

/-- R100: numbers of the opcode table, one byte, three bytes, and a prefixed row (log 3). -/
theorem test_table_words :
    (decodeTableWord 8 0x41, decodeTableWord 24 0x800010, decodeTableWord 16 0x0E13, decodeTableWord 8 0x06) =
      (some (.addReg .r1), some (.ldImm .r0 0x8000), some (.ldwInd .r2 .r3), none) := by decide

/-- An encoding of our own: NOP in one byte, BIT R2 in two, LD R3, n16 in four. -/
def otherEnc : Encoding :=
  .table [⟨[0x42], .nop, .none⟩, ⟨[0xA1], .bit .r2 0, .n8⟩, ⟨[0xA0, 0x01], .ldImm .r3 0, .n16⟩]

/-- The same machine under that encoding. -/
def withOtherEnc (e : Endian) (s : State) : State := withCfg { Config.default with enc := otherEnc, endian := e } s

/-- R6, R83, U19: under another ENC the same instruction has other bytes and another length, and its meaning is the same. -/
theorem test_other_encoding_runs :
    (after (step (withOtherEnc .little (before [] 0x0000 [] [0xA0, 0x01, 0x34, 0x12]))) (fun t => (t.reg .r3, t.pc)),
      after (step (withOtherEnc .big (before [] 0x0000 [] [0xA0, 0x01, 0x34, 0x12]))) (fun t => (t.reg .r3, t.pc)),
      after (step (withOtherEnc .little (before [(.r2, 0x0008)] 0x8000 [] [0xA1, 0x03]))) (fun t => (t.f.z, t.pc))) =
    (some (0x1234, 0x0104), some (0x3412, 0x0104), some (false, 0x0102)) := by decide

/-- R213: the illegal bytes of that ENC are its own: 0x00 (NOP in ENC_P), and 0xA0 not followed by 0x01. -/
theorem test_other_encoding_faults :
    (faultOf (step (withOtherEnc .little (before [] 0x0000 [] [0x00]))),
      faultOf (step (withOtherEnc .little (before [] 0x0000 [] [0xA0, 0x02])))) =
    (some (.illegalInstruction 0x0100), some (.illegalInstruction 0x0100)) := by decide

/-- R244, log 30: a word placed for the fetch runs as the first instruction after reset. -/
theorem test_withFetchWord_runs :
    after (step (State.reset.withFetchWord 24 0x123417)) (fun t => (t.reg .r7, t.pc)) = some (0x1234, 0x0003) := by decide

/-! ## One step of each instruction -/

/-- V1. -/
theorem test_ldReg_copies :
  after (step (before [(.r1, 0x0000), (.r2, 0xBEEF)] 0x0000 [] [0x0F, 0x0A]))
    (fun t => (t.reg .r1, t.pc)) = some (0xBEEF, 0x0102) := by decide

/-- V4. -/
theorem test_ldImm_low_byte_first :
  after (step (before [] 0x0000 [] [0x10, 0x00, 0x80]))
    (fun t => (t.reg .r0, t.pc)) = some (0x8000, 0x0103) := by decide

/-- V7. -/
theorem test_ldwInd_low_byte_at_lower_address :
  after (step (before [(.r2, 0xFFFF), (.r3, 0xC000)] 0x0000 [(0xC000, [0x34, 0x12])] [0x0E, 0x13]))
    (fun t => (t.reg .r2, t.pc)) = some (0x1234, 0x0102) := by decide

/-- V9. -/
theorem test_ldwInd_odd_address :
  faultOf (step (before [(.r2, 0xFFFF), (.r3, 0xC001)] 0x0000 [(0xC001, [0x34, 0x12])] [0x0E, 0x13])) =
    some (.busError 0xC001 0x0100) := by decide

/-- V12. -/
theorem test_ldbInd_zero_extends :
  after (step (before [(.r2, 0xFFFF), (.r3, 0xC001)] 0x0000 [(0xC001, [0x9A])] [0x0E, 0x53]))
    (fun t => (t.reg .r2, t.pc)) = some (0x009A, 0x0102) := by decide

/-- V14. -/
theorem test_stwInd_low_byte_at_lower_address :
  after (step (before [(.r4, 0xC100), (.r5, 0xABCD)] 0x0000 [] [0x0E, 0xA5]))
    (fun t => (t.mem.read 0xC100, t.mem.read 0xC101, t.pc)) = some (0xCD, 0xAB, 0x0102) := by decide

/-- V16. -/
theorem test_stwInd_odd_address :
  faultOf (step (before [(.r4, 0xC101), (.r5, 0xABCD)] 0x0000 [] [0x0E, 0xA5])) =
    some (.busError 0xC101 0x0100) := by decide

/-- V18. -/
theorem test_stbInd_one_byte :
  after (step (before [(.r4, 0xC101), (.r5, 0xABCD)] 0x0000 [] [0x0E, 0xE5]))
    (fun t => (t.mem.read 0xC101, t.pc)) = some (0xCD, 0x0102) := by decide

/-- V20. -/
theorem test_ldwAbs_reads :
  after (step (before [] 0x0000 [(0xC000, [0x78, 0x56])] [0x18, 0x00, 0xC0]))
    (fun t => (t.reg .r0, t.pc)) = some (0x5678, 0x0103) := by decide

/-- V21. -/
theorem test_ldwAbs_odd_address :
  faultOf (step (before [] 0x0000 [(0xC001, [0x78, 0x56])] [0x18, 0x01, 0xC0])) =
    some (.busError 0xC001 0x0100) := by decide

/-- V22. -/
theorem test_stwAbs_writes :
  after (step (before [(.r0, 0x000F)] 0x0000 [] [0x20, 0x00, 0xC0]))
    (fun t => (t.mem.read 0xC000, t.mem.read 0xC001, t.pc)) = some (0x0F, 0x00, 0x0103) := by decide

/-- V23. -/
theorem test_stwAbs_odd_address :
  faultOf (step (before [(.r0, 0x000F)] 0x0000 [] [0x20, 0x01, 0xC0])) =
    some (.busError 0xC001 0x0100) := by decide

/-- V25. -/
theorem test_push_sp_wraps :
  after (step (before [(.r6, 0xAAAA), (.r7, 0x0000)] 0x0000 [] [0x2E]))
    (fun t => (t.reg .r7, t.mem.read 0xFFFE, t.mem.read 0xFFFF, t.pc)) = some (0xFFFE, 0xAA, 0xAA, 0x0101) := by decide

/-- V26. -/
theorem test_push_odd_sp :
  faultOf (step (before [(.r0, 0x1234), (.r7, 0xD001)] 0x0000 [] [0x28])) =
    some (.busError 0xCFFF 0x0100) := by decide

/-- V28. -/
theorem test_pop_keeps_flags :
  after (step (before [(.r1, 0x0000), (.r7, 0xCFFE)] 0xA000 [(0xCFFE, [0x34, 0x12])] [0x31]))
    (fun t => (t.reg .r1, t.reg .r7, t.f.toWord, t.pc)) = some (0x1234, 0xD000, 0xA000, 0x0101) := by decide

/-- V29. -/
theorem test_pop_sp_wraps :
  after (step (before [(.r7, 0xFFFE)] 0x0000 [(0xFFFE, [0x01, 0x00])] [0x30]))
    (fun t => (t.reg .r0, t.reg .r7, t.pc)) = some (0x0001, 0x0000, 0x0101) := by decide

/-- V34. -/
theorem test_addReg_carry_and_overflow :
  after (step (before [(.r0, 0x8000), (.r1, 0x8000)] 0x0000 [] [0x41]))
    (fun t => (t.reg .r0, t.f.toWord, t.pc)) = some (0x0000, 0xB000, 0x0101) := by decide

/-- V35. -/
theorem test_addReg_rewrites_flags :
  after (step (before [(.r0, 0x0001), (.r1, 0x0002)] 0xF000 [] [0x41]))
    (fun t => (t.reg .r0, t.f.toWord, t.pc)) = some (0x0003, 0x0000, 0x0101) := by decide

/-- V38. -/
theorem test_addImm_any_register :
  after (step (before [(.r3, 0x0005)] 0x0000 [] [0x83, 0xFF, 0xFF]))
    (fun t => (t.reg .r3, t.f.toWord, t.pc)) = some (0x0004, 0x2000, 0x0103) := by decide

/-- V40. -/
theorem test_subReg_borrow :
  after (step (before [(.r0, 0x0000), (.r1, 0x0001)] 0x0000 [] [0x49]))
    (fun t => (t.reg .r0, t.f.toWord, t.pc)) = some (0xFFFF, 0x6000, 0x0101) := by decide

/-- V44. -/
theorem test_subReg_overflow :
  after (step (before [(.r0, 0x8000), (.r1, 0x0001)] 0x0000 [] [0x49]))
    (fun t => (t.reg .r0, t.f.toWord, t.pc)) = some (0x7FFF, 0x1000, 0x0101) := by decide

/-- V47. -/
theorem test_subImm_overflow :
  after (step (before [(.r0, 0x8000)] 0x0000 [] [0x88, 0x00, 0x01]))
    (fun t => (t.reg .r0, t.f.toWord, t.pc)) = some (0x7F00, 0x1000, 0x0103) := by decide

/-- V48. -/
theorem test_andReg_keeps_carry_and_overflow :
  after (step (before [(.r0, 0x0F0F), (.r1, 0xF0F0)] 0x3000 [] [0x51]))
    (fun t => (t.reg .r0, t.f.toWord, t.pc)) = some (0x0000, 0xB000, 0x0101) := by decide

/-- V50. -/
theorem test_andImm_masks :
  after (step (before [(.r0, 0x12AB)] 0x0000 [] [0x90, 0xFF, 0x00]))
    (fun t => (t.reg .r0, t.f.toWord, t.pc)) = some (0x00AB, 0x0000, 0x0103) := by decide

/-- V51. -/
theorem test_orReg_sets_negative :
  after (step (before [(.r0, 0x0001), (.r1, 0x8000)] 0x0000 [] [0x59]))
    (fun t => (t.reg .r0, t.f.toWord, t.pc)) = some (0x8001, 0x4000, 0x0101) := by decide

/-- V52. -/
theorem test_orImm_keeps_carry :
  after (step (before [(.r0, 0x0F0F)] 0x2000 [] [0x98, 0xF0, 0xF0]))
    (fun t => (t.reg .r0, t.f.toWord, t.pc)) = some (0xFFFF, 0x6000, 0x0103) := by decide

/-- V53. -/
theorem test_xorReg_clears :
  after (step (before [(.r0, 0x1234), (.r1, 0x1234)] 0x0000 [] [0x61]))
    (fun t => (t.reg .r0, t.f.toWord, t.pc)) = some (0x0000, 0x8000, 0x0101) := by decide

/-- V55. -/
theorem test_xorImm_complements :
  after (step (before [(.r0, 0x00FF)] 0x0000 [] [0xA0, 0xFF, 0xFF]))
    (fun t => (t.reg .r0, t.f.toWord, t.pc)) = some (0xFF00, 0x4000, 0x0103) := by decide

/-- V56. -/
theorem test_incReg_overflow_keeps_carry :
  after (step (before [(.r2, 0x7FFF)] 0x2000 [] [0x72]))
    (fun t => (t.reg .r2, t.f.toWord, t.pc)) = some (0x8000, 0x7000, 0x0101) := by decide

/-- V57. -/
theorem test_incReg_wraps :
  after (step (before [(.r2, 0xFFFF)] 0x0000 [] [0x72]))
    (fun t => (t.reg .r2, t.f.toWord, t.pc)) = some (0x0000, 0x8000, 0x0101) := by decide

/-- V60. -/
theorem test_decReg_wraps :
  after (step (before [(.r2, 0x0000)] 0x0000 [] [0x7A]))
    (fun t => (t.reg .r2, t.f.toWord, t.pc)) = some (0xFFFF, 0x4000, 0x0101) := by decide

/-- V61. -/
theorem test_decReg_overflow :
  after (step (before [(.r2, 0x8000)] 0x0000 [] [0x7A]))
    (fun t => (t.reg .r2, t.f.toWord, t.pc)) = some (0x7FFF, 0x1000, 0x0101) := by decide

/-- V63. -/
theorem test_cmpReg_below :
  after (step (before [(.r0, 0x0001), (.r1, 0x0002)] 0x0000 [] [0x69]))
    (fun t => (t.f.toWord, t.pc)) = some (0x6000, 0x0101) := by decide

/-- V64. -/
theorem test_cmpReg_signed_less :
  after (step (before [(.r0, 0x8000), (.r1, 0x0001)] 0x0000 [] [0x69]))
    (fun t => (t.f.toWord, t.pc)) = some (0x1000, 0x0101) := by decide

/-- V66. -/
theorem test_cmpImm_any_register :
  after (step (before [(.r5, 0x4000)] 0x0000 [] [0xAD, 0x00, 0x40]))
    (fun t => (t.f.toWord, t.pc)) = some (0x8000, 0x0103) := by decide

/-- V67. -/
theorem test_addbReg_carry_stays_out_of_upper_byte :
  after (step (before [(.r0, 0x12FF), (.r1, 0x3401)] 0x0000 [] [0x0F, 0x41]))
    (fun t => (t.reg .r0, t.f.toWord, t.pc)) = some (0x1200, 0xA000, 0x0102) := by decide

/-- V68. -/
theorem test_addbReg_overflow :
  after (step (before [(.r0, 0x007F), (.r1, 0x0001)] 0x0000 [] [0x0F, 0x41]))
    (fun t => (t.reg .r0, t.f.toWord, t.pc)) = some (0x0080, 0x5000, 0x0102) := by decide

/-- V71. -/
theorem test_addbImm_any_register :
  after (step (before [(.r4, 0x0100)] 0x0000 [] [0xB4, 0xFF]))
    (fun t => (t.reg .r4, t.f.toWord, t.pc)) = some (0x01FF, 0x4000, 0x0102) := by decide

/-- V72. -/
theorem test_subbReg_borrow_stays_out_of_upper_byte :
  after (step (before [(.r0, 0x5500), (.r1, 0x0001)] 0x0000 [] [0x0F, 0x49]))
    (fun t => (t.reg .r0, t.f.toWord, t.pc)) = some (0x55FF, 0x6000, 0x0102) := by decide

/-- V75. -/
theorem test_andbReg_zero_from_low_byte :
  after (step (before [(.r0, 0xFF3C), (.r1, 0x00C3)] 0x3000 [] [0x0F, 0x51]))
    (fun t => (t.reg .r0, t.f.toWord, t.pc)) = some (0xFF00, 0xB000, 0x0102) := by decide

/-- V76. -/
theorem test_orbReg_negative_is_bit_7 :
  after (step (before [(.r0, 0x0001), (.r1, 0xFF80)] 0x0000 [] [0x0F, 0x59]))
    (fun t => (t.reg .r0, t.f.toWord, t.pc)) = some (0x0081, 0x4000, 0x0102) := by decide

/-- V78. -/
theorem test_xorbReg_clears_low_byte :
  after (step (before [(.r0, 0xA55A)] 0x0000 [] [0x0F, 0x60]))
    (fun t => (t.reg .r0, t.f.toWord, t.pc)) = some (0xA500, 0x8000, 0x0102) := by decide

/-- V79. -/
theorem test_incbReg_wraps_in_byte :
  after (step (before [(.r2, 0x12FF)] 0x0000 [] [0x0F, 0x72]))
    (fun t => (t.reg .r2, t.f.toWord, t.pc)) = some (0x1200, 0x8000, 0x0102) := by decide

/-- V81. -/
theorem test_decbReg_wraps_in_byte :
  after (step (before [(.r2, 0x1200)] 0x2000 [] [0x0F, 0x7A]))
    (fun t => (t.reg .r2, t.f.toWord, t.pc)) = some (0x12FF, 0x6000, 0x0102) := by decide

/-- V83. -/
theorem test_cmpbReg_ignores_upper_bytes :
  after (step (before [(.r0, 0x1234), (.r1, 0xFF34)] 0x0000 [] [0x0F, 0x69]))
    (fun t => (t.f.toWord, t.pc)) = some (0x8000, 0x0102) := by decide

/-- V86. -/
theorem test_cmpbImm_any_register :
  after (step (before [(.r3, 0xFF7F)] 0x0000 [] [0xBB, 0x80]))
    (fun t => (t.f.toWord, t.pc)) = some (0x7000, 0x0102) := by decide

/-- V87. -/
theorem test_shl_moves_bit_15_to_carry :
  after (step (before [(.r0, 0x8001)] 0x0000 [] [0xC0]))
    (fun t => (t.reg .r0, t.f.toWord, t.pc)) = some (0x0002, 0x2000, 0x0101) := by decide

/-- V88. -/
theorem test_shl_leaves_zero_flag :
  after (step (before [(.r0, 0x8000)] 0x0000 [] [0xC0]))
    (fun t => (t.reg .r0, t.f.toWord, t.pc)) = some (0x0000, 0x2000, 0x0101) := by decide

/-- V91. -/
theorem test_shr_is_logical :
  after (step (before [(.r0, 0x8001)] 0x0000 [] [0xC8]))
    (fun t => (t.reg .r0, t.f.toWord, t.pc)) = some (0x4000, 0x2000, 0x0101) := by decide

/-- V94. -/
theorem test_rol_old_carry_enters :
  after (step (before [(.r0, 0x8000)] 0x0000 [] [0xD0]))
    (fun t => (t.reg .r0, t.f.toWord, t.pc)) = some (0x0000, 0x2000, 0x0101) := by decide

/-- V95. -/
theorem test_rol_clears_carry :
  after (step (before [(.r5, 0x0001)] 0x2000 [] [0xD5]))
    (fun t => (t.reg .r5, t.f.toWord, t.pc)) = some (0x0003, 0x0000, 0x0101) := by decide

/-- V97. -/
theorem test_ror_old_carry_enters :
  after (step (before [(.r0, 0x0000)] 0x2000 [] [0xD8]))
    (fun t => (t.reg .r0, t.f.toWord, t.pc)) = some (0x8000, 0x0000, 0x0101) := by decide

/-- V98. -/
theorem test_ror_both_ways :
  after (step (before [(.r0, 0x0003)] 0x2000 [] [0xD8]))
    (fun t => (t.reg .r0, t.f.toWord, t.pc)) = some (0x8001, 0x2000, 0x0101) := by decide

/-- V99. -/
theorem test_bit_one_clears_zero :
  after (step (before [(.r0, 0x0080)] 0xF000 [] [0xE0, 0x07]))
    (fun t => (t.f.toWord, t.pc)) = some (0x7000, 0x0102) := by decide

/-- V105. -/
theorem test_jmp_absolute :
  after (step (before [] 0x0000 [] [0x08, 0x34, 0x12]))
    (fun t => t.pc) = some 0x1234 := by decide

/-- V108. -/
theorem test_jmpReg_odd_target :
  after (step (before [(.r0, 0x4001)] 0x0000 [] [0x38]))
    (fun t => t.pc) = some 0x4001 := by decide

/-- V112. -/
theorem test_jr_to_itself :
  after (step (before [] 0x0000 [] [0x09, 0xFE]))
    (fun t => t.pc) = some 0x0100 := by decide

/-- V113. -/
theorem test_jr_farthest_back :
  after (step (before [] 0x0000 [] [0x09, 0x80]))
    (fun t => t.pc) = some 0x0082 := by decide

/-- V117. -/
theorem test_jz_taken :
  after (step (before [] 0x8000 [] [0xE8, 0x34, 0x12]))
    (fun t => (t.f.toWord, t.pc)) = some (0x8000, 0x1234) := by decide

/-- V119. -/
theorem test_jnz_not_taken :
  after (step (before [] 0x8000 [] [0xE9, 0x34, 0x12]))
    (fun t => (t.f.toWord, t.pc)) = some (0x8000, 0x0103) := by decide

/-- V121. -/
theorem test_jc_taken :
  after (step (before [] 0x2000 [] [0xEA, 0x34, 0x12]))
    (fun t => (t.f.toWord, t.pc)) = some (0x2000, 0x1234) := by decide

/-- V123. -/
theorem test_jnc_not_taken :
  after (step (before [] 0x2000 [] [0xEB, 0x34, 0x12]))
    (fun t => (t.f.toWord, t.pc)) = some (0x2000, 0x0103) := by decide

/-- V125. -/
theorem test_jn_taken :
  after (step (before [] 0x4000 [] [0xEC, 0x34, 0x12]))
    (fun t => (t.f.toWord, t.pc)) = some (0x4000, 0x1234) := by decide

/-- V128. -/
theorem test_jnn_taken :
  after (step (before [] 0x0000 [] [0xED, 0x34, 0x12]))
    (fun t => (t.f.toWord, t.pc)) = some (0x0000, 0x1234) := by decide

/-- V130. -/
theorem test_jv_not_taken :
  after (step (before [] 0x0000 [] [0xEE, 0x34, 0x12]))
    (fun t => (t.f.toWord, t.pc)) = some (0x0000, 0x0103) := by decide

/-- V132. -/
theorem test_jnv_taken :
  after (step (before [] 0x0000 [] [0xEF, 0x34, 0x12]))
    (fun t => (t.f.toWord, t.pc)) = some (0x0000, 0x1234) := by decide

/-- R185. -/
theorem test_jrnz_taken :
  after (step (before [] 0x0000 [] [0xF1, 0xFC]))
    (fun t => (t.f.toWord, t.pc)) = some (0x0000, 0x00FE) := by decide

/-- V135. -/
theorem test_jrc_taken :
  after (step (before [] 0x2000 [] [0xF2, 0x10]))
    (fun t => (t.f.toWord, t.pc)) = some (0x2000, 0x0112) := by decide

/-- V136. -/
theorem test_jrnc_not_taken :
  after (step (before [] 0x2000 [] [0xF3, 0x10]))
    (fun t => (t.f.toWord, t.pc)) = some (0x2000, 0x0102) := by decide

/-- V137. -/
theorem test_jrn_backward :
  after (step (before [] 0x4000 [] [0xF4, 0xF0]))
    (fun t => (t.f.toWord, t.pc)) = some (0x4000, 0x00F2) := by decide

/-- V138. -/
theorem test_jrnn_not_taken :
  after (step (before [] 0x4000 [] [0xF5, 0x02]))
    (fun t => (t.f.toWord, t.pc)) = some (0x4000, 0x0102) := by decide

/-- V139. -/
theorem test_jrv_taken :
  after (step (before [] 0x1000 [] [0xF6, 0x02]))
    (fun t => (t.f.toWord, t.pc)) = some (0x1000, 0x0104) := by decide

/-- V140. -/
theorem test_jrnv_not_taken :
  after (step (before [] 0x1000 [] [0xF7, 0x02]))
    (fun t => (t.f.toWord, t.pc)) = some (0x1000, 0x0102) := by decide

/-- V141. -/
theorem test_jrz_taken :
  after (step (before [] 0x8000 [] [0xF0, 0x02]))
    (fun t => (t.f.toWord, t.pc)) = some (0x8000, 0x0104) := by decide

/-- V142. -/
theorem test_call_pushes_next_address :
  after (step (before [(.r7, 0xD000)] 0x0000 [] [0x0A, 0x00, 0x20]))
    (fun t => (t.reg .r7, t.mem.read 0xCFFE, t.mem.read 0xCFFF, t.pc)) = some (0xCFFE, 0x03, 0x01, 0x2000) := by decide

/-- V144. -/
theorem test_call_odd_sp :
  faultOf (step (before [(.r7, 0xD001)] 0x0000 [] [0x0A, 0x00, 0x20])) =
    some (.busError 0xCFFF 0x0100) := by decide

/-- R187. -/
theorem test_callz_taken :
  after (step (before [(.r7, 0xD000)] 0x8000 [] [0xF8, 0x00, 0x20]))
    (fun t => (t.reg .r7, t.mem.read 0xCFFE, t.mem.read 0xCFFF, t.f.toWord, t.pc)) =
      some (0xCFFE, 0x03, 0x01, 0x8000, 0x2000) := by decide

/-- V150. -/
theorem test_callnz_odd_sp :
  faultOf (step (before [(.r7, 0xD001)] 0x0000 [] [0xF9, 0x00, 0x20])) =
    some (.busError 0xCFFF 0x0100) := by decide

/-- V147. -/
theorem test_callc_taken :
  after (step (before [(.r7, 0xD000)] 0x2000 [] [0xFA, 0x00, 0x20]))
    (fun t => (t.reg .r7, t.mem.read 0xCFFE, t.mem.read 0xCFFF, t.f.toWord, t.pc)) =
      some (0xCFFE, 0x03, 0x01, 0x2000, 0x2000) := by decide

/-- R187. -/
theorem test_callnc_not_taken :
  after (step (before [(.r7, 0xD000)] 0x2000 [] [0xFB, 0x00, 0x20]))
    (fun t => (t.f.toWord, t.pc)) = some (0x2000, 0x0103) := by decide

/-- R187. -/
theorem test_calln_taken :
  after (step (before [(.r7, 0xD000)] 0x4000 [] [0xFC, 0x00, 0x20]))
    (fun t => (t.reg .r7, t.mem.read 0xCFFE, t.mem.read 0xCFFF, t.f.toWord, t.pc)) =
      some (0xCFFE, 0x03, 0x01, 0x4000, 0x2000) := by decide

/-- R187. -/
theorem test_callnn_not_taken :
  after (step (before [(.r7, 0xD000)] 0x4000 [] [0xFD, 0x00, 0x20]))
    (fun t => (t.f.toWord, t.pc)) = some (0x4000, 0x0103) := by decide

/-- R187. -/
theorem test_callv_taken :
  after (step (before [(.r7, 0xD000)] 0x1000 [] [0xFE, 0x00, 0x20]))
    (fun t => (t.reg .r7, t.mem.read 0xCFFE, t.mem.read 0xCFFF, t.f.toWord, t.pc)) =
      some (0xCFFE, 0x03, 0x01, 0x1000, 0x2000) := by decide

/-- V151. -/
theorem test_callnv_taken :
  after (step (before [(.r7, 0xD000)] 0x0000 [] [0xFF, 0x00, 0x30]))
    (fun t => (t.reg .r7, t.mem.read 0xCFFE, t.mem.read 0xCFFF, t.f.toWord, t.pc)) =
      some (0xCFFE, 0x03, 0x01, 0x0000, 0x3000) := by decide

/-- V152. -/
theorem test_ret_pops :
  after (step (withIme false (before [(.r7, 0xCFFE)] 0x0000 [(0xCFFE, [0x03, 0x01])] [0x04])))
    (fun t => (t.reg .r7, t.ime, t.pc)) = some (0xD000, false, 0x0103) := by decide

/-- V153. -/
theorem test_ret_odd_sp :
  faultOf (step (before [(.r7, 0xCFFF)] 0x0000 [(0xCFFF, [0x03, 0x01])] [0x04])) =
    some (.busError 0xCFFF 0x0100) := by decide

/-- V154. -/
theorem test_reti_enables :
  after (step (withIme false (before [(.r7, 0xCFFE)] 0x0000 [(0xCFFE, [0x45, 0x03])] [0x05])))
    (fun t => (t.reg .r7, t.ime, t.pc)) = some (0xD000, true, 0x0345) := by decide

/-- V155. -/
theorem test_reti_odd_sp :
  faultOf (step (before [(.r7, 0xCFFF)] 0x0000 [(0xCFFF, [0x45, 0x03])] [0x05])) =
    some (.busError 0xCFFF 0x0100) := by decide

/-- V156. -/
theorem test_nop_only_pc :
  after (step (withIme true (before [] 0xA000 [] [0x00])))
    (fun t => (t.f.toWord, t.ime, t.pc)) = some (0xA000, true, 0x0101) := by decide

/-- V157. -/
theorem test_halt_halts :
  after (step (withIme false (before [] 0x0000 [] [0x01])))
    (fun t => (t.ime, t.halted, t.pc)) = some (false, true, 0x0101) := by decide

/-- V159. -/
theorem test_di_clears :
  after (step (withIme true (before [] 0x0000 [] [0x02])))
    (fun t => (t.ime, t.pc)) = some (false, 0x0101) := by decide

/-- V161. -/
theorem test_ei_sets :
  after (step (withIme false (before [] 0x0000 [] [0x03])))
    (fun t => (t.ime, t.pc)) = some (true, 0x0101) := by decide

/-- V73: the sense of C under `SUB_CARRY = not_borrow`. -/
theorem test_subb_not_borrow :
  after (step (withCfg { Config.default with subCarry := .notBorrow }
      (before [(.r0, 0x5500), (.r1, 0x0001)] 0x0000 [] [0x0F, 0x49])))
    (fun t => (t.reg .r0, t.f.toWord)) = some (0x55FF, 0x4000) := by decide

/-- R170, R172: Z and N from the result under `SHIFT_ZNV = from_result`. -/
theorem test_shr_from_result :
  after (step (withCfg { Config.default with shiftZNV := .fromResult } (before [(.r0, 0x0001)] 0x5000 [] [0xC8])))
    (fun t => (t.reg .r0, t.f.toWord)) = some (0x0000, 0xB000) := by decide

/-! ## Interrupts and halt -/

/-- A machine with one request pending at this boundary, whose handler is at 0x0040 (spec/95_test_vectors.md 2.8). -/
def irqState (pc sp : Word) (ime halted enter : Bool) (wake : Option HaltWake) : State :=
  { before [(.r7, sp)] 0xA000 [] [0x00] with
    pc := pc
    ime := ime
    halted := halted
    env := [⟨[1], enter⟩]
    cfg := { Config.default with intSources := [⟨1, some 0x0040⟩], haltWake := wake } }

/-- V176. -/
theorem test_entry_pushes_pc_and_keeps_flags :
  after (step (irqState 0x0123 0xD000 true false true none))
    (fun t => (t.reg .r7, t.mem.read 0xCFFE, t.mem.read 0xCFFF, t.ime, t.pc, t.f.toWord)) =
      some (0xCFFE, 0x23, 0x01, false, 0x0040, 0xA000) := by decide

/-- V177. -/
theorem test_entry_wakes_halted :
  after (step (irqState 0x0301 0xD000 true true false none))
    (fun t => (t.mem.read 0xCFFE, t.halted, t.pc)) = some (0x01, false, 0x0040) := by decide

/-- V178. -/
theorem test_entry_odd_sp :
  faultOf (step (irqState 0x0123 0xD001 true false true none)) = some (.busError 0xCFFF 0x0123) := by decide

/-- V179: masked, so the NOP at `pc` runs. -/
theorem test_masked_request_waits :
  after (step (irqState 0x0100 0xD000 false false true none)) (fun t => (t.reg .r7, t.pc)) = some (0xD000, 0x0101) := by decide

/-- V180: the other choice of the oracle, the NOP at `pc`. -/
theorem test_unmasked_request_may_wait :
  after (step (irqState 0x0100 0xD000 true false false none)) (fun t => (t.reg .r7, t.pc)) = some (0xD000, 0x0101) := by decide

/-- V181: `wake`, `stay`, and OPEN. -/
theorem test_masked_wake :
  (after (step (irqState 0x0100 0xD000 false true true (some .wake))) (fun t => (t.halted, t.reg .r7, t.pc)),
    after (step (irqState 0x0100 0xD000 false true true (some .stay))) (fun t => (t.halted, t.reg .r7, t.pc)),
    refusalOf (step (irqState 0x0100 0xD000 false true true none))) =
  (some (false, 0xD000, 0x0100), some (true, 0xD000, 0x0100), some .haltWakeOpen) := by decide

/-- V182: a halted CPU with no request keeps its state. -/
theorem test_halted_stays :
  after (step { before [] 0x0000 [] [0x04] with halted := true }) (fun t => (t.halted, t.pc)) = some (true, 0x0100) := by decide

/-! ## Witnesses: a state and operands that meet the hypotheses of each obligation that has some -/

/-- A machine whose map has an unmapped, a read-only and a device range, one byte each but for the first. -/
def mappedState (regs : List (Reg × Word)) (code : List Byte) : State :=
  withCfg { Config.default with memmap := [⟨0x8000, 0x8003, .unmapped⟩, ⟨0x8005, 0x8005, .readOnly⟩, ⟨0x8006, 0x8006, .device⟩] }
    (before regs 0x0000 [] code)

/-- That map with some bytes of an instruction before a shut address. -/
def fetchEdge (pc : Word) (code : List Byte) : State :=
  let s := mappedState [] []
  { s with pc := pc, mem := s.mem.place pc code }

/-- That map with a request pending and interrupts enabled. -/
def entryEdge (sp : Word) : State :=
  withCfg { (mappedState [] []).cfg with intSources := [⟨1, some 0x0040⟩] } (irqState 0x0123 sp true false true none)

/-- One byte of which decoding has not decided; a longer beginning adds one byte to one such. -/
theorem undecided_one {s : State} {b : Byte} (h : decodeWith s.cfg.enc s.cfg.endian [b] = .error .truncated) :
    Undecided s [b] := by
  intro n h0 h1
  have hn : n = 1 := by
    simp at h1
    omega
  rw [hn]
  exact h

theorem undecided_snoc {s : State} {got : List Byte} {b : Byte} (h : Undecided s got)
    (hb : decodeWith s.cfg.enc s.cfg.endian (got ++ [b]) = .error .truncated) : Undecided s (got ++ [b]) := by
  intro n h0 h1
  rcases Nat.lt_or_ge got.length n with hn | hn
  · rw [List.take_of_length_le (by simp; omega)]
    exact hb
  · rw [List.take_append_of_le_length hn]
    exact h n h0 hn

theorem witness_DecodedBytesAreTheEncoding :
    decode .little [0xFF, 0xFF, 0xFF, 0x07] = .ok (.callnv 0xFFFF, [0x07]) := rfl

/-- An instruction of four bytes under another encoding, in which rows for one instruction have one length. -/
theorem witness_FirstByteTellsLength :
    otherEnc.WellFormed ∧ decodeWith otherEnc .little [0xA0, 0x01, 0x34, 0x12, 0x42] = .ok (.ldImm .r3 0x1234, [0x42]) := by
  refine ⟨?_, rfl⟩
  intro p hp q hq i h1 h2
  simp only [List.mem_cons, List.mem_nil_iff, or_false] at hp hq
  rcases hp with rfl | rfl | rfl <;> rcases hq with rfl | rfl | rfl <;> first | rfl | (cases i <;> simp_all [EncRow.isFor, Instr.withN8, Instr.withN16, Instr.mapImm])

/-- Under ENC_P, and under another encoding. -/
theorem witness_StepRunsDecodedInstruction :
    (let s := before [] 0x0000 [] [0x10, 0x00, 0x80]
     s.stepKind = .instruction ∧ FetchesAt s.beginStep s.pc [0x10, 0x00, 0x80] ∧
      Undecided s [0x10, 0x00] ∧
      decodeWith s.cfg.enc s.cfg.endian [0x10, 0x00, 0x80] = .ok (.ldImm .r0 0x8000, [])) ∧
    (let s := withOtherEnc .big (before [] 0x0000 [] [0xA0, 0x01, 0x34, 0x12])
     s.stepKind = .instruction ∧ FetchesAt s.beginStep s.pc [0xA0, 0x01, 0x34, 0x12] ∧
      Undecided s [0xA0, 0x01, 0x34] ∧
      decodeWith s.cfg.enc s.cfg.endian [0xA0, 0x01, 0x34, 0x12] = .ok (.ldImm .r3 0x3412, [])) :=
  ⟨⟨by decide, ⟨rfl, rfl, rfl, trivial⟩, undecided_snoc (undecided_one rfl) rfl, rfl⟩, by decide,
    ⟨rfl, rfl, rfl, rfl, trivial⟩, undecided_snoc (undecided_snoc (undecided_one rfl) rfl) rfl, rfl⟩

/-- At the top of memory, so that the bytes wrap (V174). -/
theorem witness_StepRunsInstructionStoredAtPc :
    let s := { before [] 0x0000 [(0xFFFF, [0x10, 0xAA, 0xBB])] [] with pc := 0xFFFF }
    s.stepKind = .instruction ∧ s.cfg.enc = .encP ∧ FetchesAt s.beginStep s.pc (encode s.cfg.endian (.ldImm .r0 0xBBAA)) :=
  ⟨by decide, rfl, rfl, rfl, rfl, trivial⟩

theorem witness_UnassignedFetchFaults_one_byte :
    let s := before [] 0x0000 [] [0x0D]
    s.stepKind = .instruction ∧ s.cfg.enc = .encP ∧ s.beginStep.readByte .fetch s.pc = .ok 0x0D := ⟨by decide, rfl, rfl⟩

theorem witness_UnassignedFetchFaults_prefixed :
    let s := before [] 0x0000 [] [0x0F, 0x80]
    s.stepKind = .instruction ∧ s.cfg.enc = .encP ∧ s.beginStep.readByte .fetch s.pc = .ok 0x0F#8 ∧
      s.beginStep.readByte .fetch (s.pc + 1#16) = .ok 0x80#8 ∧ 0x80 ≤ (0x80#8).toNat := ⟨by decide, rfl, rfl, rfl, by decide⟩

theorem witness_UnassignedFetchFaults_other :
    let s := withOtherEnc .little (before [] 0x0000 [] [0xA0, 0x02])
    s.stepKind = .instruction ∧ FetchesAt s.beginStep s.pc [0xA0, 0x02] ∧ Undecided s [0xA0] ∧
      decodeWith s.cfg.enc s.cfg.endian [0xA0, 0x02] = .error .unassigned :=
  ⟨by decide, ⟨rfl, rfl, trivial⟩, undecided_one rfl, rfl⟩

/-- A step that stores (ST.w). -/
theorem witness_EveryStepKeepsCanonicalMemory :
    let s := before [(.r4, 0xFFFE), (.r5, 0xABCD)] 0x0000 [] [0x0E, 0xA5]
    Inv s ∧ ∃ t, step s = .next t := ⟨by decide, _, rfl⟩

theorem witness_NoStepChangesReservedBitsOrParameters :
    ∃ t, step (irqState 0x0123 0xD000 true false true none) = .next t := ⟨_, rfl⟩

theorem witness_InterruptEnableChangesOnlyAsListed_entry :
    let s := irqState 0x0123 0xD000 true false true none
    ∃ t, step s = .next t ∧ t.ime ≠ s.ime := ⟨_, rfl, by decide⟩

theorem witness_InterruptEnableChangesOnlyAsListed_di :
    let s := withIme true (before [] 0x0000 [] [0x02])
    ∃ t, step s = .next t ∧ t.ime ≠ s.ime := ⟨_, rfl, by decide⟩

theorem witness_InterruptEnableChangesOnlyAsListed_ei :
    let s := withIme false (before [] 0x0000 [] [0x03])
    ∃ t, step s = .next t ∧ t.ime ≠ s.ime := ⟨_, rfl, by decide⟩

theorem witness_InterruptEnableChangesOnlyAsListed_reti :
    let s := withIme false (before [(.r7, 0xFFFE)] 0x0000 [] [0x05])
    ∃ t, step s = .next t ∧ t.ime ≠ s.ime := ⟨_, rfl, by decide⟩

theorem witness_HaltStateChangesOnlyAsListed_set :
    let s := before [] 0x0000 [] [0x01]
    ∃ t, step s = .next t ∧ s.halted = false ∧ t.halted = true := ⟨_, rfl, rfl, by decide⟩

theorem witness_HaltStateChangesOnlyAsListed_cleared :
    let s := irqState 0x0301 0xD000 true true false none
    ∃ t, step s = .next t ∧ s.halted = true ∧ t.halted = false := ⟨_, rfl, rfl, by decide⟩

theorem witness_FlagsChangeOnlyAsListed :
    ∃ t, exec (.incReg .r2) (before [(.r2, 0xFFFF)] 0x2000 [] []) = .next t ∧ (flagRow .unchanged (.incReg .r2)).c = false :=
  ⟨_, rfl, rfl⟩

/-- A taken call, and a byte outside the two it stores to. -/
theorem witness_MemoryChangesOnlyAsListed :
    let s := before [(.r7, 0xD000)] 0x2000 [] []
    (∃ t, exec (.callc 0x2000) s = .next t) ∧ (0xCFFD : Word) ∉ storedBytes s (.callc 0x2000) := ⟨⟨_, rfl⟩, by decide⟩

theorem witness_RegistersChangeOnlyAsListed :
    let s := before [(.r7, 0xCFFE)] 0x0000 [] []
    (∃ t, exec (.pop .r1) s = .next t) ∧ Reg.r0 ∉ writtenRegs s (.pop .r1) := ⟨⟨_, rfl⟩, by decide⟩

/-- Both sides: the fault, and the access it comes from. -/
theorem witness_BusErrorExactlyWhenWordAccessIsOdd :
    let s := before [(.r7, 0x0001)] 0x8000 [] []
    faultOf (exec (.callz 0x2000) s) = some (.busError 0xFFFF 0x0100) ∧ wordAccess s (.callz 0x2000) = some 0xFFFF :=
  ⟨by decide, by decide⟩

theorem witness_WellFormedInstructionIsNeverRefused : Instr.wellFormed (.bit .r7 15) = true := by decide

/-- V27, V31, V103, V104. -/
theorem witness_RefusedOperandForms :
    let s := before [(.r7, 0xD000)] 0x0000 [] []
    s.cfg.spOperand = .refuse ∧ s.cfg.bitIndex = .refuse ∧ 15 < (16 : Byte).toNat ∧ 15 < (255 : Byte).toNat := by decide

theorem witness_FreePolicyRunsPushAndPopOfSp :
    let s := withCfg { Config.default with spOperand := .free } (before [(.r7, 0x0000)] 0x0000 [] [])
    s.cfg.spOperand = .free ∧ UsableWord s (s.sp - 2#16) ∧ UsableWord s s.sp :=
  ⟨rfl, ⟨by decide, .inl (by decide), .inl (by decide)⟩, by decide, by unfold Usable; decide, by unfold Usable; decide⟩

/-- The last word of memory, and an odd address beside it. -/
theorem witness_WordLoadsReadTheWord :
    let s := before [(.r3, 0xFFFE), (.r4, 0xFFFF)] 0x0000 [] []
    UsableWord s (s.reg .r3) ∧ (s.reg .r4).toNat % 2 = 1 ∧ UsableWord s 0xFFFE ∧ (0xFFFF : Word).toNat % 2 = 1 :=
  ⟨⟨by decide, by unfold Usable; decide, by unfold Usable; decide⟩, by decide,
    ⟨by decide, by unfold Usable; decide, by unfold Usable; decide⟩, by decide⟩

/-- A device's byte, and a byte of plain memory at an odd address. -/
theorem witness_ByteLoadZeroExtends :
    Usable (mappedState [(.r3, 0x8006)] []) ((mappedState [(.r3, 0x8006)] []).reg .r3) ∧
      Usable (mappedState [(.r3, 0x8007)] []) ((mappedState [(.r3, 0x8007)] []).reg .r3) := by unfold Usable; decide

/-- A word whose first byte is in a device region and whose second is plain memory, and an odd address. -/
theorem witness_WordStoresWriteTheWord :
    let s := mappedState [(.r4, 0x8006), (.r5, 0xC001)] []
    UsableWord s (s.reg .r4) ∧ (s.reg .r5).toNat % 2 = 1 ∧ UsableWord s 0xFFFE ∧ (0xFFFF : Word).toNat % 2 = 1 :=
  ⟨⟨by decide, .inr (by decide), .inl (by decide)⟩, by decide, ⟨by decide, .inl (by decide), .inl (by decide)⟩, by decide⟩

theorem witness_ByteStoreWritesOneByte :
    Usable (before [(.r4, 0xC101)] 0x0000 [] []) ((before [(.r4, 0xC101)] 0x0000 [] []).reg .r4) := .inl (by decide)

/-- `sp` at 0, so that the new `sp` wraps; and an odd `sp`. -/
theorem witness_PushStoresAtTheNewTop :
    let s := before [(.r7, 0x0000)] 0x0000 [] []
    Reg.r6 ≠ .r7 ∧ UsableWord s (s.sp - 2#16) ∧ (before [(.r7, 0x0001)] 0x0000 [] []).sp.toNat % 2 = 1 :=
  ⟨by decide, ⟨by decide, .inl (by decide), .inl (by decide)⟩, by decide⟩

theorem witness_PopReadsTheTop :
    let s := before [(.r7, 0xFFFE)] 0x0000 [] []
    Reg.r0 ≠ .r7 ∧ UsableWord s s.sp ∧ (before [(.r7, 0xFFFF)] 0x0000 [] []).sp.toNat % 2 = 1 :=
  ⟨by decide, ⟨by decide, by unfold Usable; decide, by unfold Usable; decide⟩, by decide⟩

theorem witness_PopAfterPushRestores :
    let s := before [(.r0, 0x1234), (.r7, 0x0000)] 0x0000 [] []
    s.regionAt (s.sp - 2#16) = .plain ∧ s.regionAt (s.sp - 2#16 + 1#16) = .plain ∧ ∃ t, exec (.push .r0) s = .next t :=
  ⟨by decide, by decide, _, rfl⟩

theorem witness_RotatesUndoEachOther :
    let s := before [(.r0, 0x8001)] 0x0000 [] []
    (∃ t u, exec (.rol .r0) s = .next t ∧ exec (.ror .r0) t = .next u) ∧
      ∃ t u, exec (.ror .r0) s = .next t ∧ exec (.rol .r0) t = .next u := ⟨⟨_, _, rfl, rfl⟩, _, _, rfl, rfl⟩

/-- Either value of each parameter that a clause on shifts or on C after a subtraction names. -/
theorem witness_parameters :
    let c := Config.default
    c.shiftZNV = .unchanged ∧ { c with shiftZNV := .fromResult }.shiftZNV = .fromResult ∧ c.subCarry = .borrow ∧
      { c with subCarry := .notBorrow }.subCarry = .notBorrow := ⟨rfl, rfl, rfl, rfl⟩

/-- Index 15; 16 under `mod16`; 255 under `zero`. -/
theorem witness_BitTestSetsZero :
    (15 : Byte).toNat ≤ 15 ∧
    (let s := withCfg { Config.default with bitIndex := .mod16 } (before [] 0x0000 [] [])
     s.cfg.bitIndex ≠ .refuse ∧ 15 < (16 : Byte).toNat ∧ s.cfg.bitIndex = .mod16) ∧
    (let s := withCfg { Config.default with bitIndex := .zero } (before [] 0x0000 [] [])
     s.cfg.bitIndex ≠ .refuse ∧ 15 < (255 : Byte).toNat ∧ s.cfg.bitIndex = .zero) := by decide

/-- R175: what BIT answers there, and V102 (index 15). -/
theorem test_bit_policies :
    (after (exec (.bit .r0 16) (withCfg { Config.default with bitIndex := .mod16 } (before [(.r0, 0x0001)] 0x8000 [] [])))
        (fun t => t.f.z),
      after (exec (.bit .r0 255) (withCfg { Config.default with bitIndex := .zero } (before [(.r0, 0xFFFF)] 0x0000 [] [])))
        (fun t => t.f.z),
      refusalOf (exec (.bit .r0 16) (before [(.r0, 0xFFFF)] 0x0000 [] [])),
      after (exec (.bit .r3 15) (before [(.r3, 0x7FFF)] 0x0000 [] [])) (fun t => t.f.z)) =
    (some false, some true, some (.bitIndex 16), some true) := by decide

/-- Each condition holds of one of these two F registers and fails of the other. -/
theorem witness_ConditionalJumps :
    [Cond.z, .nz, .c, .nc, .n, .nn, .v, .nv].all (fun cc =>
      (FReg.ofWord 0xF000).holds cc != (FReg.ofWord 0x0000).holds cc) = true ∧
    CondHolds (FReg.ofWord 0xF000) .z ∧ ¬ CondHolds (FReg.ofWord 0x0000) .z :=
  ⟨by decide, by unfold CondHolds; decide, by unfold CondHolds; decide⟩

theorem witness_ConditionalRelativeJumps :
    CondHolds (before [] 0x0000 [] []).f .nv ∧ ¬ CondHolds (before [] 0x1000 [] []).f .nv :=
  ⟨by unfold CondHolds; decide, by unfold CondHolds; decide⟩

theorem witness_CallPushesReturnAddress :
    UsableWord (before [(.r7, 0x0000)] 0x0000 [] []) ((before [(.r7, 0x0000)] 0x0000 [] []).sp - 2#16) ∧
      (before [(.r7, 0xD001)] 0x0000 [] []).sp.toNat % 2 = 1 :=
  ⟨⟨by decide, .inl (by decide), .inl (by decide)⟩, by decide⟩

/-- Taken with an even and with an odd `sp`, and not taken with an odd `sp` (V147, V149, V150). -/
theorem witness_ConditionalCalls :
    (let s := before [(.r7, 0xD000)] 0x2000 [] []
     CondHolds s.f .c ∧ UsableWord s (s.sp - 2#16)) ∧
    (let s := before [(.r7, 0xD001)] 0x2000 [] []
     CondHolds s.f .c ∧ s.sp.toNat % 2 = 1 ∧ ¬ CondHolds s.f .nc) :=
  ⟨⟨by unfold CondHolds; decide, by decide, .inl (by decide), .inl (by decide)⟩,
    by unfold CondHolds; decide, by decide, by unfold CondHolds; decide⟩

theorem witness_ReturnPopsProgramCounter :
    UsableWord (before [(.r7, 0xFFFE)] 0x0000 [] []) (before [(.r7, 0xFFFE)] 0x0000 [] []).sp ∧
      (before [(.r7, 0xCFFF)] 0x0000 [] []).sp.toNat % 2 = 1 :=
  ⟨⟨by decide, by unfold Usable; decide, by unfold Usable; decide⟩, by decide⟩

/-- The hypotheses of RETI's statement are those of RET's. -/
theorem witness_ReturnFromInterruptEnables :
    UsableWord (before [(.r7, 0xCFFE)] 0x0000 [] []) (before [(.r7, 0xCFFE)] 0x0000 [] []).sp ∧
      (before [(.r7, 0x0001)] 0x0000 [] []).sp.toNat % 2 = 1 :=
  ⟨⟨by decide, by unfold Usable; decide, by unfold Usable; decide⟩, by decide⟩

theorem witness_ReturnAfterCallResumes :
    let s := before [(.r7, 0x0000)] 0x0000 [] []
    s.regionAt (s.sp - 2#16) = .plain ∧ s.regionAt (s.sp - 2#16 + 1#16) = .plain ∧ ∃ t, exec (.call 0x2000) s = .next t :=
  ⟨by decide, by decide, _, rfl⟩

/-- IME = 0; no request; IME = 1 with either choice of the oracle. -/
theorem witness_AcceptanceAtStepBoundary :
    (let s := irqState 0x0100 0xD000 false false true none
     s.halted = false ∧ s.ime = false) ∧
    (let s := withIme true (before [] 0x0000 [] [])
     s.halted = false ∧ s.pending = none) ∧
    (let s := irqState 0x0100 0xD000 true false true none
     s.halted = false ∧ s.ime = true ∧ s.pending = some ⟨1, some 0x0040⟩ ∧ s.chosen = true) ∧
    (let s := irqState 0x0100 0xD000 true false false none
     s.halted = false ∧ s.ime = true ∧ s.pending = some ⟨1, some 0x0040⟩ ∧ s.chosen = false) := by decide

/-- A source with a vector, over an even and over an odd `sp`, and a source without one. -/
theorem witness_InterruptEntrySavesPcAlone :
    (let s := irqState 0x0123 0x0000 true false true none
     s.stepKind = .entry ⟨1, some 0x0040⟩ ∧ UsableWord s (s.sp - 2#16)) ∧
    (let s := irqState 0x0123 0xD001 true false true none
     s.stepKind = .entry ⟨1, some 0x0040⟩ ∧ s.sp.toNat % 2 = 1) ∧
    (withCfg { Config.default with intSources := [⟨1, none⟩] } (irqState 0x0123 0xD000 true false true none)).stepKind =
      .entry ⟨1, none⟩ :=
  ⟨⟨by decide, by decide, .inl (by decide), .inl (by decide)⟩, by decide, by decide⟩

theorem witness_ReturnUndoesInterruptEntry :
    let s := irqState 0x0123 0xD000 true false true none
    s.ime = true ∧ s.stepKind = .entry ⟨1, some 0x0040⟩ ∧ s.regionAt (s.sp - 2#16) = .plain ∧
      s.regionAt (s.sp - 2#16 + 1#16) = .plain ∧ ∃ t, step s = .next t := ⟨by decide, by decide, by decide, by decide, _, rfl⟩

/-- No request; a request with IME = 1; a request with IME = 0 under each value of HALT_WAKE_MASKED. -/
theorem witness_HaltedCpuFollowsWakeRule :
    (let s := { before [] 0x0000 [] [] with halted := true }
     s.halted = true ∧ s.pending = none) ∧
    (let s := irqState 0x0100 0xD000 true true false none
     s.halted = true ∧ s.pending = some ⟨1, some 0x0040⟩ ∧ s.ime = true) ∧
    ([some .wake, some .stay, none].all fun w =>
      let s := irqState 0x0100 0xD000 false true false w
      s.halted && s.pending == some ⟨1, some 0x0040⟩ && !s.ime && s.cfg.haltWake == w) = true := by decide

theorem witness_EndOfRunIsQuiescent : EndOfRun { before [] 0x0000 [] [] with halted := true } := ⟨rfl, rfl, rfl⟩

/-- Each clause at an edge of its range: byte accesses to an unmapped and to a read-only byte; a word whose first byte, and one
whose second byte alone, is shut; a fetch whose first, second or third byte is shut; an entry whose stack word is half shut. -/
theorem witness_PlatformRangesFault :
    (let s := mappedState [(.r3, 0x8003), (.r4, 0x8005)] []
     ¬ Usable s (s.reg .r3) ∧ ¬ Usable s (s.reg .r4)) ∧
    (let s := mappedState [(.r3, 0x8002), (.r4, 0x8004)] []
     wordAccess s (.ldwInd .r0 .r3) = some 0x8002 ∧ FirstOfTwo (fun x => ¬ Usable s x) 0x8002 0x8002 ∧
     wordAccess s (.stwInd .r4 .r0) = some 0x8004 ∧ FirstOfTwo (fun x => ¬ Usable s x) 0x8004 0x8005) ∧
    ¬ Usable { mappedState [] [] with pc := 0x8000 } 0x8000 ∧
    (let s := fetchEdge 0x8004 [0x10]
     s.stepKind = .instruction ∧ FetchesAt s.beginStep s.pc [0x10] ∧ Undecided s [0x10] ∧ ¬ Usable s 0x8005) ∧
    (let s := fetchEdge 0x7FFE [0x10, 0xAA]
     s.stepKind = .instruction ∧ FetchesAt s.beginStep s.pc [0x10, 0xAA] ∧ Undecided s [0x10, 0xAA] ∧ ¬ Usable s 0x8000) ∧
    (let s := entryEdge 0x8006
     s.stepKind = .entry ⟨1, some 0x0040⟩ ∧ s.sp.toNat % 2 = 0 ∧ FirstOfTwo (fun x => ¬ Usable s x) (s.sp - 2#16) 0x8005) :=
  ⟨by unfold Usable; decide, by unfold FirstOfTwo Usable; decide, by unfold Usable; decide,
    ⟨by decide, ⟨rfl, trivial⟩, undecided_one rfl, by unfold Usable; decide⟩,
    ⟨by decide, ⟨rfl, rfl, trivial⟩, undecided_snoc (undecided_one rfl) rfl, by unfold Usable; decide⟩,
    by decide, by decide, by unfold FirstOfTwo Usable; decide⟩

/-- U18, D23: a read-only byte may neither be read as data nor be fetched, as the second or the third byte of an instruction no
more than as the first; nor may an interrupt entry push there. -/
theorem test_shut_bytes :
    (faultOf (step (mappedState [(.r3, 0x8005)] [0x0E, 0x53])), faultOf (step (fetchEdge 0x8004 [0x10])),
      faultOf (step (fetchEdge 0x7FFE [0x10, 0xAA])), faultOf (step (entryEdge 0x8006))) =
    (some (.readOnly 0x8005 0x0100), some (.readOnly 0x8005 0x8004), some (.unmapped 0x8000 0x7FFE),
      some (.readOnly 0x8005 0x0123)) := by decide

theorem witness_FetchSeesStoredByte :
    let s := before [(.r4, 0x0101), (.r5, 0x12AB)] 0x0000 [] []
    s.regionAt (s.reg .r4) = .plain ∧ ∃ t, exec (.stbInd .r4 .r5) s = .next t := ⟨by decide, _, rfl⟩

end Sys2Proof.Tests
end

section
/-! PROOFS. Decoding under ENC_P: how many bytes it takes, which beginnings it finds too short, and that it reads back what the
encoder writes. -/

namespace Sys2Proof

/-! ## The fields of an encoded byte -/

/-- Bits 7:3 of a first byte are its group (R85). -/
@[simp] theorem extractLsb'_group (g : BitVec 5) (c : BitVec 3) : (g ++ c : Byte).extractLsb' 3 5 = g :=
  BitVec.extractLsb'_append_eq_left

/-- Bits 2:0 of a first byte are its low field (R85). -/
@[simp] theorem extractLsb'_low (g : BitVec 5) (c : BitVec 3) : (g ++ c : Byte).extractLsb' 0 3 = c :=
  BitVec.extractLsb'_append_eq_right

/-- Bits 7:6 of a second byte select the operation, or the part of the page (R86, R87). -/
@[simp] theorem extractLsb'_pageTop (p : BitVec 2) (m c : BitVec 3) : (p ++ m ++ c : Byte).extractLsb' 6 2 = p := by
  revert p m c
  decide

/-- Bits 5:3 of a second byte are its middle field (R86, R87). -/
@[simp] theorem extractLsb'_pageMid (p : BitVec 2) (m c : BitVec 3) : (p ++ m ++ c : Byte).extractLsb' 3 3 = m := by
  revert p m c
  decide

/-- Bits 2:0 of a second byte are its low field (R86, R87). -/
@[simp] theorem extractLsb'_pageLow (p : BitVec 2) (m c : BitVec 3) : (p ++ m ++ c : Byte).extractLsb' 0 3 = c :=
  BitVec.extractLsb'_append_eq_right

/-! ## What the decoder makes of the bytes after the first -/

theorem decode_plain {e : Endian} {b0 : Byte} {rest : List Byte} {i : Instr} (h : openByte b0 = .plain i) :
    decode e (b0 :: rest) = .ok (i, rest) := by
  simp only [decode, h]

theorem decode_imm8 {e : Endian} {b0 n8 : Byte} {rest : List Byte} {k : Byte → Instr} (h : openByte b0 = .imm8 k) :
    decode e (b0 :: n8 :: rest) = .ok (k n8, rest) := by
  simp only [decode, h]

theorem decode_imm16 {e : Endian} {b0 : Byte} {n16 : Word} {rest : List Byte} {k : Word → Instr} (h : openByte b0 = .imm16 k) :
    decode e (b0 :: (immBytes e n16 ++ rest)) = .ok (k n16, rest) := by
  simp only [decode, h, immBytes, List.cons_append, List.nil_append, Machine.joinWord_wordBytes]

theorem decode_pageA (e : Endian) (b1 : Byte) (rest : List Byte) :
    decode e (prefixA :: b1 :: rest) = .ok (decodePageA b1, rest) := rfl

theorem decode_pageB {e : Endian} {b1 : Byte} {rest : List Byte} {i : Instr} (h : decodePageB b1 = .ok i) :
    decode e (prefixB :: b1 :: rest) = .ok (i, rest) := by
  have hp : openByte prefixB = .pageB := rfl
  simp only [decode, hp, h]

/-- Everything the bytes of an instruction can be (R82): its first byte says what follows it. -/
theorem decode_cons_ok {e : Endian} {b0 : Byte} {tail rest : List Byte} {i : Instr} (h : decode e (b0 :: tail) = .ok (i, rest)) :
    (openByte b0 = .plain i ∧ tail = rest) ∨
    (∃ k n8, openByte b0 = .imm8 k ∧ i = k n8 ∧ tail = n8 :: rest) ∨
    (∃ k a b, openByte b0 = .imm16 k ∧ i = k (joinWord e a b) ∧ tail = a :: b :: rest) ∨
    (∃ b1, openByte b0 = .pageA ∧ i = decodePageA b1 ∧ tail = b1 :: rest) ∨
    (∃ b1, openByte b0 = .pageB ∧ decodePageB b1 = .ok i ∧ tail = b1 :: rest) := by
  cases ho : openByte b0 with
  | plain j =>
    rw [decode_plain ho] at h
    cases h
    exact .inl ⟨rfl, rfl⟩
  | imm8 k =>
    simp only [decode, ho] at h
    split at h <;> cases h
    exact .inr (.inl ⟨k, _, rfl, rfl, rfl⟩)
  | imm16 k =>
    simp only [decode, ho] at h
    split at h <;> cases h
    exact .inr (.inr (.inl ⟨k, _, _, rfl, rfl, rfl⟩))
  | pageA =>
    simp only [decode, ho] at h
    split at h <;> cases h
    exact .inr (.inr (.inr (.inl ⟨_, rfl, rfl, rfl⟩)))
  | pageB =>
    simp only [decode, ho] at h
    split at h
    · split at h <;> cases h
      rename_i hi
      exact .inr (.inr (.inr (.inr ⟨_, rfl, hi, rfl⟩)))
    · cases h
  | unassigned =>
    simp only [decode, ho] at h
    cases h

/-! ## Lengths -/

/-- An instruction takes the bytes that its first one tells (R82, R95). -/
theorem length_of_decode_ok {e : Endian} {b0 : Byte} {tail rest : List Byte} {i : Instr}
    (h : decode e (b0 :: tail) = .ok (i, rest)) : tail.length + 1 = fetchLength b0 + rest.length := by
  obtain ⟨ho, rfl⟩ | ⟨k, n8, ho, rfl, rfl⟩ | ⟨k, a, b, ho, rfl, rfl⟩ | ⟨b1, ho, rfl, rfl⟩ | ⟨b1, ho, _, rfl⟩ :=
    decode_cons_ok h
  all_goals
    simp only [fetchLength, ho, List.length_cons]
    omega

/-- Fewer bytes than the first one tells are neither an instruction nor illegal: more have to be read (R82). -/
theorem decode_truncated_of_short {e : Endian} {b0 : Byte} {tail : List Byte} (h : tail.length + 1 < fetchLength b0) :
    decode e (b0 :: tail) = .error .truncated := by
  cases ho : openByte b0 with
  | plain _ | unassigned => simp [fetchLength, ho] at h
  | imm16 k =>
    match tail with
    | [] | [_] => simp only [decode, ho]
    | _ :: _ :: _ =>
      simp only [fetchLength, ho, List.length_cons] at h
      omega
  | imm8 _ | pageA | pageB =>
    match tail with
    | [] => simp only [decode, ho]
    | _ :: _ => simp [fetchLength, ho] at h

/-- No instruction is a proper beginning of another one's bytes, and no such beginning is illegal. -/
theorem decode_take_truncated {e : Endian} {bytes : List Byte} {i : Instr} {n : Nat} (h : decode e bytes = .ok (i, []))
    (h0 : 0 < n) (hn : n < bytes.length) : decode e (bytes.take n) = .error .truncated := by
  match bytes, n with
  | b0 :: tail, n + 1 =>
    have hl := length_of_decode_ok h
    refine decode_truncated_of_short ?_
    simp only [List.length_cons, List.length_nil, List.length_take] at hl hn ⊢
    omega

/-! ## The decoder reads the encoder's bytes back -/

/-- Decoding undoes encoding, whatever bytes follow (R82), format by format (R84). -/
theorem decode_encode (e : Endian) (i : Instr) (rest : List Byte) : decode e (encode e i ++ rest) = .ok (i, rest) := by
  cases i with
  | ret | reti | nop | halt | di | ei => exact decode_plain rfl
  | push | pop | addReg | subReg | andReg | orReg | xorReg | incReg | decReg | cmpReg | shl | shr | rol | ror | jmpReg =>
    exact decode_plain (by simp [openByte])
  | addbImm r _ => exact decode_imm8 (k := .addbImm r) (by simp [openByte])
  | cmpbImm r _ => exact decode_imm8 (k := .cmpbImm r) (by simp [openByte])
  | bit r _ => exact decode_imm8 (k := .bit r) (by simp [openByte])
  | ldImm r _ => exact decode_imm16 (k := .ldImm r) (by simp [openByte])
  | ldwAbs r _ => exact decode_imm16 (k := .ldwAbs r) (by simp [openByte])
  | stwAbs _ r => exact decode_imm16 (k := (.stwAbs · r)) (by simp [openByte])
  | addImm r _ => exact decode_imm16 (k := .addImm r) (by simp [openByte])
  | subImm r _ => exact decode_imm16 (k := .subImm r) (by simp [openByte])
  | andImm r _ => exact decode_imm16 (k := .andImm r) (by simp [openByte])
  | orImm r _ => exact decode_imm16 (k := .orImm r) (by simp [openByte])
  | xorImm r _ => exact decode_imm16 (k := .xorImm r) (by simp [openByte])
  | cmpImm r _ => exact decode_imm16 (k := .cmpImm r) (by simp [openByte])
  | jr | jrz | jrnz | jrc | jrnc | jrn | jrnn | jrv | jrnv => exact decode_imm8 rfl
  | jmp | call | jz | jnz | jc | jnc | jn | jnn | jv | jnv | callz | callnz | callc | callnc | calln | callnn | callv
  | callnv => exact decode_imm16 rfl
  | ldwInd | ldbInd | stwInd | stbInd => simp [encode, decode_pageA, decodePageA]
  | ldReg rd rs => exact decode_pageB (by simp [decodePageB])
  | addbReg r | subbReg r | andbReg r | orbReg r | xorbReg r | incbReg r | decbReg r | cmpbReg r =>
    exact decode_pageB (by cases r <;> rfl)

end Sys2Proof
end

section
/-! PROOFS. The fetch reads on while its bytes do not decide, and runs the instruction once they do (R11 (3), R58). -/

namespace Sys2Proof.Machine

open Claims

/-! ## The bytes of the fetch -/

/-- The address after a byte and those that follow it is counted from the byte or from its successor, modulo 2^16. -/
theorem add_ofNat_length_cons (a : Word) (b : Byte) (bytes : List Byte) :
    a + BitVec.ofNat 16 (b :: bytes).length = a + 1#16 + BitVec.ofNat 16 bytes.length := by
  rw [List.length_cons, Nat.add_comm, BitVec.ofNat_add, BitVec.add_assoc]

theorem fetchesAt_append {s : State} {a : Word} {xs ys : List Byte} :
    FetchesAt s a (xs ++ ys) ↔ FetchesAt s a xs ∧ FetchesAt s (a + BitVec.ofNat 16 xs.length) ys := by
  induction xs generalizing a with
  | nil => simp [FetchesAt]
  | cons b xs ih =>
    simp only [List.cons_append, FetchesAt, ih, add_ofNat_length_cons, and_assoc]

theorem fetchesAt_singleton {s : State} {a : Word} {b : Byte} : FetchesAt s a [b] ↔ s.readByte .fetch a = .ok b := by
  simp only [FetchesAt, and_true]

/-- A beginning of undecided bytes that is not empty is too short for the decoder. -/
theorem truncated_of_undecided {s : State} {xs ys : List Byte} (h : Undecided s (xs ++ ys)) (hx : xs ≠ []) :
    decodeWith s.cfg.enc s.cfg.endian xs = .error .truncated := by
  have hn := h xs.length (List.length_pos_iff.mpr hx) (by simp)
  rwa [List.take_left] at hn

/-- Undecided bytes are fewer than the fetch may read. -/
theorem length_lt_longest_of_undecided {s : State} {got : List Byte} (h : Undecided s got) : got.length < s.cfg.enc.longest := by
  by_cases hg : got = []
  · subst hg
    exact one_le_longest s.cfg.enc
  · exact decodeWith_truncated (truncated_of_undecided (ys := []) (by simpa using h) hg)

/-- Under ENC_P the bytes before the last one of an instruction do not decide. -/
theorem undecided_of_decode {s : State} {got : List Byte} {b : Byte} {i : Instr} (hp : s.cfg.enc = .encP)
    (h : decode s.cfg.endian (got ++ [b]) = .ok (i, [])) : Undecided s got := by
  intro n h0 hn
  have ht := decode_take_truncated h h0 (hn.trans_lt (by simp))
  rwa [List.take_append_of_le_length hn, ← decodeWith_encP, ← hp] at ht

/-! ## The fetch -/

/-- The fetch reads on over undecided bytes. -/
theorem fetchMore_undecided {s : State} {a : Word} {got more : List Byte} (n : Nat) (hf : FetchesAt s a more)
    (hu : Undecided s (got ++ more)) :
    s.fetchMore a got (more.length + n) = s.fetchMore (a + BitVec.ofNat 16 more.length) (got ++ more) n := by
  induction more generalizing a got with
  | nil => simp
  | cons b more ih =>
    obtain ⟨hb, hf⟩ := hf
    have hsplit : got ++ b :: more = (got ++ [b]) ++ more := by simp
    rw [hsplit] at hu ⊢
    calc s.fetchMore a got ((b :: more).length + n)
        = s.fetchMore a got (more.length + n + 1) := by rw [List.length_cons, Nat.add_right_comm]
      _ = s.fetchMore (a + 1#16) (got ++ [b]) (more.length + n) := fetchMore_truncated hb (truncated_of_undecided hu (by simp))
      _ = _ := by rw [ih hf hu, add_ofNat_length_cons]

/-- Once its bytes do not decide, the fetch at `pc` reads at least one more. -/
theorem fetchInstr_undecided {s : State} {got : List Byte} (hf : FetchesAt s s.pc got) (hu : Undecided s got) :
    ∃ n, s.fetchInstr = s.fetchMore (s.pc + BitVec.ofNat 16 got.length) got (n + 1) := by
  obtain ⟨n, hn⟩ := Nat.exists_eq_add_of_lt (length_lt_longest_of_undecided hu)
  refine ⟨n, ?_⟩
  rw [State.fetchInstr, hn, Nat.add_assoc]
  exact fetchMore_undecided (got := []) (n + 1) hf hu

/-- The fetch answers the instruction that its bytes decode to once the last one is read. -/
theorem fetchInstr_ok {s : State} {got rest : List Byte} {b : Byte} {i : Instr} (hf : FetchesAt s s.pc (got ++ [b]))
    (hu : Undecided s got) (hd : decodeWith s.cfg.enc s.cfg.endian (got ++ [b]) = .ok (i, rest)) : s.fetchInstr = .ok i := by
  obtain ⟨hgot, hb⟩ := fetchesAt_append.mp hf
  obtain ⟨n, hn⟩ := fetchInstr_undecided hgot hu
  rw [hn]
  exact fetchMore_ok (fetchesAt_singleton.mp hb) hd

/-! ## The step -/

theorem runInstr_of_fetchInstr_ok {s : State} {i : Instr} (h : s.fetchInstr = .ok i) : runInstr s = exec i s := by
  simp only [runInstr, h]

theorem step_of_instruction {s : State} (h : s.stepKind = .instruction) : step s = runInstr s.beginStep := by
  simp only [step, h]

/-- Settles O6: the fetch reads on over the undecided bytes and answers `i` at the last one. -/
theorem stepRunsDecodedInstruction : Obligations.StepRunsDecodedInstruction := by
  intro s got rest b i hk hf hu hd
  have hi : s.beginStep.fetchInstr = .ok i := fetchInstr_ok hf hu hd
  rw [step_of_instruction hk, runInstr_of_fetchInstr_ok hi]

/-- Settles O7, from O6: the decoder reads the encoding back, and finds every beginning of it too short. -/
theorem stepRunsInstructionStoredAtPc : Obligations.StepRunsInstructionStoredAtPc := by
  intro s i hk hp hf
  have hd : decode s.cfg.endian (encode s.cfg.endian i) = .ok (i, []) := by
    simpa using decode_encode s.cfg.endian i []
  obtain hnil | ⟨got, b, hsnoc⟩ := (encode s.cfg.endian i).eq_nil_or_concat'
  · rw [hnil] at hd
    cases hd
  · rw [hsnoc] at hd hf
    have hdw : decodeWith s.cfg.enc s.cfg.endian (got ++ [b]) = .ok (i, []) := by rw [hp]; exact hd
    exact stepRunsDecodedInstruction s got [] b i hk hf (undecided_of_decode hp hd) hdw

end Sys2Proof.Machine
end

section
/-! PROOFS. What an instruction or an interrupt entry may change, said once for all of them as a footprint; the invariants and
the lists of writers of spec/10_state.md follow from it. -/

namespace Sys2Proof.Machine

open Claims

/-! ## Flag writers (R36) -/

/-- No flag changes but those a row of R36 names, and F bits 11:0 keep their value (R32). -/
structure FlagsKeptBut (row : FlagRow) (f g : FReg) : Prop where
  z : row.z = false → g.z = f.z
  n : row.n = false → g.n = f.n
  c : row.c = false → g.c = f.c
  v : row.v = false → g.v = f.v
  reserved : g.reserved = f.reserved

theorem FlagsKeptBut.refl (row : FlagRow) (f : FReg) : FlagsKeptBut row f f :=
  ⟨fun _ => rfl, fun _ => rfl, fun _ => rfl, fun _ => rfl, rfl⟩

theorem FReg.arith_keeps (f : FReg) {w : Nat} (o : AluOut w) : FlagsKeptBut ⟨true, true, true, true⟩ f (f.arith o) :=
  ⟨nofun, nofun, nofun, nofun, rfl⟩

theorem FReg.count_keeps (f : FReg) {w : Nat} (o : AluOut w) : FlagsKeptBut ⟨true, true, false, true⟩ f (f.count o) :=
  ⟨nofun, nofun, fun _ => rfl, nofun, rfl⟩

theorem FReg.logic_keeps (f : FReg) {w : Nat} (res : BitVec w) :
    FlagsKeptBut ⟨true, true, false, false⟩ f (f.logic res) :=
  ⟨nofun, nofun, fun _ => rfl, fun _ => rfl, rfl⟩

theorem FReg.bitTest_keeps (f : FReg) (tested : Bool) : FlagsKeptBut ⟨true, false, false, false⟩ f (f.bitTest tested) :=
  ⟨nofun, fun _ => rfl, fun _ => rfl, fun _ => rfl, rfl⟩

/-- The row of the shifts and rotates, its letter P read by `SHIFT_ZNV` (R170). -/
theorem FReg.shifted_keeps (f : FReg) (p : ShiftZNV) (tick : Nat) (o : ShiftOut) :
    FlagsKeptBut ⟨p != .unchanged, p != .unchanged, true, p == .draw⟩ f (f.shifted p tick o) := by
  cases p with
  | unchanged => exact ⟨fun _ => rfl, fun _ => rfl, nofun, fun _ => rfl, rfl⟩
  | fromResult => exact ⟨nofun, nofun, nofun, fun _ => rfl, rfl⟩
  | draw => exact ⟨nofun, nofun, nofun, nofun, rfl⟩

/-! ## Footprints -/

/-- What may change: the registers, flags and bytes of memory that may be written, and the values that IME and the halt state
end with. -/
structure Footprint where
  regs : List Reg
  flags : FlagRow
  bytes : List Word
  ime : Bool
  halted : Bool

/-- `t` is reached from `s` within a footprint; the parameters are kept, and so is the memory's canonical form. -/
structure Footprint.Covers (w : Footprint) (s t : State) : Prop where
  regs : RegsKeptBut w.regs s t
  flags : FlagsKeptBut w.flags s.f t.f
  bytes : ∀ b, b ∉ w.bytes → t.mem.read b = s.mem.read b
  wf : s.mem.wf = true → t.mem.wf = true
  ime : t.ime = w.ime
  halted : t.halted = w.halted
  cfg : t.cfg = s.cfg

namespace Footprint

variable {w : Footprint} {s t u : State}

theorem Covers.refl (hi : s.ime = w.ime) (hh : s.halted = w.halted) : w.Covers s s :=
  ⟨fun _ _ => rfl, .refl _ _, fun _ _ => rfl, id, hi, hh, rfl⟩

theorem Covers.setPc (h : w.Covers s t) (a : Word) : w.Covers s (t.setPc a) :=
  ⟨h.regs, h.flags, h.bytes, h.wf, h.ime, h.halted, h.cfg⟩

theorem Covers.advance (h : w.Covers s t) (i : Instr) : w.Covers s (t.advance i) := h.setPc _

theorem Covers.setReg (h : w.Covers s t) {d : Reg} (hd : d ∈ w.regs) (v : Word) : w.Covers s (t.setReg d v) where
  __ := h
  regs r hr := (State.reg_setReg_other t (fun e : r = d => hr (e ▸ hd)) v).trans (h.regs r hr)

theorem Covers.setF (h : w.Covers s t) {f : FReg} (hf : FlagsKeptBut w.flags s.f f) : w.Covers s (t.setF f) where
  __ := h
  flags := hf

theorem Covers.setIme (h : w.Covers s t) (b : Bool) : Covers { w with ime := b } s (t.setIme b) where
  __ := h
  ime := rfl

theorem Covers.setHalted (h : w.Covers s t) (b : Bool) : Covers { w with halted := b } s (t.setHalted b) where
  __ := h
  halted := rfl

/-- A new memory that differs at bytes of the footprint alone. -/
theorem Covers.setMem (h : w.Covers s t) {m : Memory} (hb : ∀ b, b ∉ w.bytes → m.read b = t.mem.read b)
    (hw : t.mem.wf = true → m.wf = true) : w.Covers s (t.setMem m) where
  __ := h
  bytes b hn := (hb b hn).trans (h.bytes b hn)
  wf := hw ∘ h.wf

theorem Covers.memWrite8 (h : w.Covers s t) {a : Word} {v : Byte} (hu : t.memWrite8 a v = .ok u) (ha : a ∈ w.bytes) :
    w.Covers s u := by
  obtain ⟨he, hb, _⟩ := writeByte_frame hu
  rw [he]
  exact h.setMem (fun b hn => hb b fun e => hn (e ▸ ha)) (writeByte_wf hu)

theorem Covers.memWrite16 (h : w.Covers s t) {a v : Word} (hu : t.memWrite16 a v = .ok u) (ha : a ∈ w.bytes)
    (ha' : a + 1#16 ∈ w.bytes) : w.Covers s u := by
  obtain ⟨_, he, hb, _⟩ := memWrite16_frame hu
  rw [he]
  exact h.setMem (fun b hn => hb b (fun e => hn (e ▸ ha)) fun e => hn (e ▸ ha')) (memWrite16_wf hu)

theorem Covers.push16 (h : w.Covers s t) {v : Word} (hu : t.push16 v = .ok u) (hr : .r7 ∈ w.regs)
    (ha : t.sp - 2#16 ∈ w.bytes) (ha' : t.sp - 2#16 + 1#16 ∈ w.bytes) : w.Covers s u :=
  (h.setReg hr _).memWrite16 hu ha ha'

theorem Covers.pop16 (h : w.Covers s t) {p : Word × State} (hp : t.pop16 = .ok p) (hr : .r7 ∈ w.regs) : w.Covers s p.2 := by
  rw [(pop16_ok.mp hp).2]
  exact h.setReg hr _

/-! ## The shared last steps of the meanings -/

theorem Covers.putFlags (h : w.Covers s t) (i : Instr) {f : FReg} (hf : FlagsKeptBut w.flags s.f f) :
    w.Covers s (t.putFlags i f) := (h.setF hf).advance i

theorem Covers.putWord (h : w.Covers s t) (i : Instr) {d : Reg} (hd : d ∈ w.regs) (res : Word) {f : FReg}
    (hf : FlagsKeptBut w.flags s.f f) : w.Covers s (t.putWord i d res f) := ((h.setReg hd res).setF hf).advance i

theorem Covers.putLow (h : w.Covers s t) (i : Instr) {d : Reg} (hd : d ∈ w.regs) (res : Byte) {f : FReg}
    (hf : FlagsKeptBut w.flags s.f f) : w.Covers s (t.putLow i d res f) := h.putWord i hd _ hf

theorem covers_jumpIf {cc : Cond} {i : Instr} {target : Word} (h : s.jumpIf cc i target = .next t) (hi : s.ime = w.ime)
    (hh : s.halted = w.halted) : w.Covers s t := by
  cases hc : s.f.holds cc with
  | true =>
    rw [jumpIf_taken hc] at h
    cases h
    exact (Covers.refl hi hh).setPc _
  | false =>
    rw [jumpIf_notTaken hc] at h
    cases h
    exact (Covers.refl hi hh).advance _

theorem covers_callTo {i : Instr} {target : Word} (h : s.callTo i target = .next t) (hi : s.ime = w.ime)
    (hh : s.halted = w.halted) (hr : .r7 ∈ w.regs) (hb : w.bytes = [s.sp - 2#16, s.sp - 2#16 + 1#16]) : w.Covers s t := by
  obtain ⟨u, hu, rfl⟩ := callTo_next.mp h
  exact ((Covers.refl hi hh).push16 hu hr (by simp [hb]) (by simp [hb])).setPc _

/-- A conditional call needs the footprint of a call only where its condition holds. -/
theorem covers_callIf {cc : Cond} {i : Instr} {target : Word} (h : s.callIf cc i target = .next t) (hi : s.ime = w.ime)
    (hh : s.halted = w.halted) (hr : s.f.holds cc = true → .r7 ∈ w.regs)
    (hb : s.f.holds cc = true → w.bytes = [s.sp - 2#16, s.sp - 2#16 + 1#16]) : w.Covers s t := by
  cases hc : s.f.holds cc with
  | true =>
    rw [callIf_taken hc] at h
    exact covers_callTo h hi hh (hr hc) (hb hc)
  | false =>
    rw [callIf_notTaken hc] at h
    cases h
    exact (Covers.refl hi hh).advance _

end Footprint

/-! ## Instructions with more than one outcome -/

/-- A PUSH that answers a next state pushes some word, under either policy for `PUSH R7`. -/
theorem execPush_next {r : Reg} {s t : State} (h : execPush r s = .next t) :
    ∃ v u, s.push16 v = .ok u ∧ t = u.advance (.push r) := by
  unfold execPush at h
  split at h
  · split at h
    · cases h
    · exact ⟨_, conclude_next.mp h⟩
  · exact ⟨_, conclude_next.mp h⟩

/-- A POP that answers a next state pops, and leaves some word in its register, under either policy for `POP R7`. -/
theorem execPop_next {r : Reg} {s t : State} (h : execPop r s = .next t) :
    ∃ p v, s.pop16 = .ok p ∧ t = (p.2.setReg r v).advance (.pop r) := by
  unfold execPop at h
  split at h
  · rename_i hr
    subst hr
    split at h
    · cases h
    · obtain ⟨p, hp, ht⟩ := conclude_next.mp h
      exact ⟨p, _, hp, ht⟩
  · obtain ⟨p, hp, ht⟩ := conclude_next.mp h
    exact ⟨p, _, hp, ht⟩

theorem execBit_next {r : Reg} {n8 : Byte} {s t : State} (h : execBit r n8 s = .next t) :
    ∃ tested, bitTested s.cfg.bitIndex (s.reg r) n8 = some tested ∧ t = s.putFlags (.bit r n8) (s.f.bitTest tested) := by
  unfold execBit at h
  split at h
  · rename_i tested hb
    cases h
    exact ⟨tested, hb, rfl⟩
  · cases h

/-! ## The footprint of an instruction -/

/-- IME after an instruction, from IME before it: DI, EI and RETI write it (R33). -/
def imeAfter (i : Instr) (ime : Bool) : Bool :=
  match i with
  | .di => false
  | .ei | .reti => true
  | _ => ime

/-- The halt state after an instruction, from the one before it: HALT sets it (R34). -/
def haltedAfter (i : Instr) (halted : Bool) : Bool :=
  match i with
  | .halt => true
  | _ => halted

theorem imeAfter_cases (i : Instr) (ime : Bool) :
    (i = .di ∧ imeAfter i ime = false) ∨ (i = .ei ∧ imeAfter i ime = true) ∨ (i = .reti ∧ imeAfter i ime = true) ∨
      imeAfter i ime = ime := by
  unfold imeAfter
  split <;> simp

theorem haltedAfter_cases (i : Instr) (halted : Bool) :
    (i = .halt ∧ haltedAfter i halted = true) ∨ haltedAfter i halted = halted := by
  unfold haltedAfter
  split <;> simp

/-- The footprint of an instruction, by the lists the statements give for it. -/
def footprint (s : State) (i : Instr) : Footprint where
  regs := writtenRegs s i
  flags := flagRow s.cfg.shiftZNV i
  bytes := storedBytes s i
  ime := imeAfter i s.ime
  halted := haltedAfter i s.halted

open Footprint in
/-- Every instruction that answers a next state stays within its footprint. -/
theorem exec_covers {i : Instr} {s t : State} (h : exec i s = .next t) : (footprint s i).Covers s t := by
  cases i with
  | ldReg | ldImm =>
    cases h
    exact .advance (.setReg (.refl rfl rfl) List.mem_cons_self _) _
  | ldwInd | ldbInd | ldwAbs =>
    obtain ⟨_, _, rfl⟩ := conclude_next.mp h
    exact .advance (.setReg (.refl rfl rfl) List.mem_cons_self _) _
  | stwInd | stwAbs =>
    obtain ⟨_, hu, rfl⟩ := conclude_next.mp h
    exact .advance (.memWrite16 (.refl rfl rfl) hu (by simp [footprint, storedBytes]) (by simp [footprint, storedBytes])) _
  | stbInd =>
    obtain ⟨_, hu, rfl⟩ := conclude_next.mp h
    exact .advance (.memWrite8 (.refl rfl rfl) hu List.mem_cons_self) _
  | push =>
    obtain ⟨_, _, hu, rfl⟩ := execPush_next h
    exact .advance (.push16 (.refl rfl rfl) hu (by simp [footprint, writtenRegs]) (by simp [footprint, storedBytes])
      (by simp [footprint, storedBytes])) _
  | pop =>
    obtain ⟨_, _, hp, rfl⟩ := execPop_next h
    exact .advance (.setReg (.pop16 (.refl rfl rfl) hp (by simp [footprint, writtenRegs])) List.mem_cons_self _) _
  | addReg | addImm | subReg | subImm =>
    cases h
    exact .putWord (.refl rfl rfl) _ List.mem_cons_self _ (FReg.arith_keeps _ _)
  | andReg | andImm | orReg | orImm | xorReg | xorImm =>
    cases h
    exact .putWord (.refl rfl rfl) _ List.mem_cons_self _ (FReg.logic_keeps _ _)
  | incReg | decReg =>
    cases h
    exact .putWord (.refl rfl rfl) _ List.mem_cons_self _ (FReg.count_keeps _ _)
  | addbReg | addbImm | subbReg =>
    cases h
    exact .putLow (.refl rfl rfl) _ List.mem_cons_self _ (FReg.arith_keeps _ _)
  | andbReg | orbReg | xorbReg =>
    cases h
    exact .putLow (.refl rfl rfl) _ List.mem_cons_self _ (FReg.logic_keeps _ _)
  | incbReg | decbReg =>
    cases h
    exact .putLow (.refl rfl rfl) _ List.mem_cons_self _ (FReg.count_keeps _ _)
  | cmpReg | cmpImm | cmpbReg | cmpbImm =>
    cases h
    exact .putFlags (.refl rfl rfl) _ (FReg.arith_keeps _ _)
  | shl | shr | rol | ror =>
    cases h
    exact .putWord (.refl rfl rfl) _ List.mem_cons_self _ (FReg.shifted_keeps _ _ _ _)
  | bit =>
    obtain ⟨_, _, rfl⟩ := execBit_next h
    exact .putFlags (.refl rfl rfl) _ (FReg.bitTest_keeps _ _)
  | jmp | jmpReg | jr =>
    cases h
    exact .setPc (.refl rfl rfl) _
  | jz | jnz | jc | jnc | jn | jnn | jv | jnv | jrz | jrnz | jrc | jrnc | jrn | jrnn | jrv | jrnv =>
    exact covers_jumpIf h rfl rfl
  | call => exact covers_callTo h rfl rfl List.mem_cons_self rfl
  | callz | callnz | callc | callnc | calln | callnn | callv | callnv =>
    exact covers_callIf h rfl rfl (by simp +contextual [footprint, writtenRegs, FReg.holds])
      (by simp +contextual [footprint, storedBytes, FReg.holds])
  | ret =>
    obtain ⟨_, hp, rfl⟩ := conclude_next.mp h
    exact .setPc (.pop16 (.refl rfl rfl) hp List.mem_cons_self) _
  | reti =>
    obtain ⟨p, hp, rfl⟩ := conclude_next.mp h
    exact .setIme (w := { footprint s .reti with ime := s.ime })
      (.setPc (.pop16 (.refl rfl rfl) hp List.mem_cons_self) _) true
  | nop =>
    cases h
    exact .advance (.refl rfl rfl) _
  | halt =>
    cases h
    exact .advance (.setHalted (w := { footprint s .halt with halted := s.halted }) (.refl rfl rfl) true) _
  | di =>
    cases h
    exact .advance (.setIme (w := { footprint s .di with ime := s.ime }) (.refl rfl rfl) false) _
  | ei =>
    cases h
    exact .advance (.setIme (w := { footprint s .ei with ime := s.ime }) (.refl rfl rfl) true) _

/-! ## The footprint of an interrupt entry -/

/-- The footprint of an interrupt entry (R219): the stack word that takes `pc`, R7, IME and the halt state. -/
def entryFootprint (s : State) : Footprint where
  regs := [.r7]
  flags := ⟨false, false, false, false⟩
  bytes := [s.sp - 2#16, s.sp - 2#16 + 1#16]
  ime := false
  halted := false

theorem takeInterrupt_covers {src : IntSource} {s t : State} (h : takeInterrupt src s = .next t) :
    (entryFootprint s).Covers s t := by
  obtain ⟨_, u, _, hu, rfl⟩ := takeInterrupt_next.mp h
  have h0 : { entryFootprint s with ime := s.ime, halted := s.halted }.Covers s s := .refl rfl rfl
  have hs : (entryFootprint s).Covers s ((s.setHalted false).setIme false) := (h0.setHalted false).setIme false
  exact (hs.push16 hu List.mem_cons_self List.mem_cons_self (by simp [entryFootprint, State.sp])).setPc _

/-! ## The footprint of a step -/

/-- A footprint does not speak of the boundaries or of the counter, which is all that the beginning of a step changes. -/
theorem Footprint.Covers.of_beginStep {w : Footprint} {s t : State} (h : w.Covers s.beginStep t) : w.Covers s t :=
  ⟨h.regs, h.flags, h.bytes, h.wf, h.ime, h.halted, h.cfg⟩

theorem Footprint.Covers.passBoundary {w : Footprint} {s t : State} (h : w.Covers s t) : w.Covers s t.passBoundary :=
  ⟨h.regs, h.flags, h.bytes, h.wf, h.ime, h.halted, h.cfg⟩

/-- The footprint of a step that only passes a boundary: nothing. -/
def idleFootprint (s : State) : Footprint where
  regs := []
  flags := ⟨false, false, false, false⟩
  bytes := []
  ime := s.ime
  halted := s.halted

theorem idle_covers (s : State) : (idleFootprint s).Covers s s.passBoundary := (Footprint.Covers.refl rfl rfl).passBoundary

/-- Every step that answers a next state is of one of four kinds, each within its footprint (R11, R219, R222). -/
theorem step_covers {s t : State} (h : step s = .next t) :
    (s.stepKind = .instruction ∧ ∃ i, s.beginStep.fetchInstr = .ok i ∧ (footprint s.beginStep i).Covers s t) ∨
    (∃ src, s.stepKind = .entry src ∧ (entryFootprint s).Covers s t) ∨
    (s.stepKind = .wake ∧ { idleFootprint s with halted := false }.Covers s t) ∨
    (s.stepKind = .idle ∧ (idleFootprint s).Covers s t) := by
  obtain ⟨hk, i, hi, he⟩ | ⟨src, hk, he⟩ | ⟨hk, rfl⟩ | ⟨hk, rfl⟩ := step_next.mp h
  · exact .inl ⟨hk, i, hi, (exec_covers he).of_beginStep⟩
  · exact .inr (.inl ⟨src, hk, (takeInterrupt_covers he).of_beginStep⟩)
  · exact .inr (.inr (.inl ⟨hk, (idle_covers s).setHalted false⟩))
  · exact .inr (.inr (.inr ⟨hk, idle_covers s⟩))

/-- What is kept whatever the footprint is, every step keeps. -/
theorem exists_step_covers {s t : State} (h : step s = .next t) : ∃ w : Footprint, w.Covers s t := by
  obtain ⟨_, _, _, hw⟩ | ⟨_, _, hw⟩ | ⟨_, hw⟩ | ⟨_, hw⟩ := step_covers h
  all_goals exact ⟨_, hw⟩

/-! ## The statements -/

/-- Settles O9: a step is within a footprint, and no footprint leaves the canonical form. -/
theorem everyStepKeepsCanonicalMemory : Obligations.EveryStepKeepsCanonicalMemory := by
  intro s t hs h
  obtain ⟨w, hw⟩ := exists_step_covers h
  exact hw.wf hs

/-- Settles O10: the memory of `State.reset` lists no byte. -/
theorem resetMemoryIsCanonical : Obligations.ResetMemoryIsCanonical :=
  (Memory.wf_iff _).mpr ⟨.nil, nofun⟩

/-- Settles O12: a step is within a footprint, and no footprint holds F bits 11:0 or a parameter. -/
theorem noStepChangesReservedBitsOrParameters : Obligations.NoStepChangesReservedBitsOrParameters := by
  intro s t h
  obtain ⟨w, hw⟩ := exists_step_covers h
  exact ⟨hw.flags.reserved, hw.cfg⟩

/-- Settles O13: of the four kinds of step an entry clears IME, a wake and an idle step keep it, and of the instructions only
the three that `imeAfter` names write it. -/
theorem interruptEnableChangesOnlyAsListed : Obligations.InterruptEnableChangesOnlyAsListed := by
  intro s t h hne
  obtain ⟨hk, i, hi, hw⟩ | ⟨src, hk, hw⟩ | ⟨_, hw⟩ | ⟨_, hw⟩ := step_covers h
  · have ht : t.ime = imeAfter i s.ime := hw.ime
    obtain ⟨rfl, he⟩ | ⟨rfl, he⟩ | ⟨rfl, he⟩ | he := imeAfter_cases i s.ime
    · exact .inr (.inl ⟨hk, hi, ht.trans he⟩)
    · exact .inr (.inr (.inl ⟨hk, hi, ht.trans he⟩))
    · exact .inr (.inr (.inr ⟨hk, hi, ht.trans he⟩))
    · exact absurd (ht.trans he) hne
  · exact .inl ⟨src, hk, hw.ime⟩
  · exact absurd hw.ime hne
  · exact absurd hw.ime hne

/-- Settles O14: an entry and a wake clear the halt state, an idle step keeps it, and of the instructions only HALT writes it,
to set it. -/
theorem haltStateChangesOnlyAsListed : Obligations.HaltStateChangesOnlyAsListed := by
  intro s t h
  obtain ⟨hk, i, hi, hw⟩ | ⟨src, hk, hw⟩ | ⟨hk, hw⟩ | ⟨_, hw⟩ := step_covers h
  · have ht : t.halted = haltedAfter i s.halted := hw.halted
    obtain ⟨rfl, he⟩ | he := haltedAfter_cases i s.halted
    · exact ⟨fun _ _ => ⟨hk, hi⟩, fun _ hf => by simp [ht, he] at hf⟩
    · have hkept : t.halted = s.halted := ht.trans he
      exact ⟨fun hf hset => by simp [hkept, hf] at hset, fun hset hf => by simp [hkept, hset] at hf⟩
  · have hcleared : t.halted = false := hw.halted
    exact ⟨fun _ hset => by simp [hcleared] at hset, fun _ _ => .inl ⟨src, hk⟩⟩
  · have hcleared : t.halted = false := hw.halted
    exact ⟨fun _ hset => by simp [hcleared] at hset, fun _ _ => .inr hk⟩
  · have hkept : t.halted = s.halted := hw.halted
    exact ⟨fun hf hset => by simp [hkept, hf] at hset, fun hset hf => by simp [hkept, hset] at hf⟩

/-- Settles O15, from the footprint of each instruction, whose flags are its row of R36. -/
theorem flagsChangeOnlyAsListed : Obligations.FlagsChangeOnlyAsListed := by
  intro i s t h
  obtain ⟨hz, hn, hc, hv, _⟩ := (exec_covers h).flags
  exact ⟨hz, hn, hc, hv⟩

/-- Settles O17, from the footprint of each instruction, whose registers are those its rule writes. -/
theorem registersChangeOnlyAsListed : Obligations.RegistersChangeOnlyAsListed :=
  fun _ _ _ h => (exec_covers h).regs

end Sys2Proof.Machine
end

section
/-! PROOFS. Which faults a data access can end in, said once for the accesses and once for all instructions (R53, R62, R212);
the statements on Bus Error and on MEMMAP follow from it. -/

namespace Sys2Proof.Machine

open Claims

/-! ## The fault of an access -/

/-- `e` is the fault of a byte access at `a` (R212): `a` may not be used. -/
def ByteFault (s : State) (a : Word) (e : Fault) : Prop := ¬ Usable s a ∧ e = shutFault s a

/-- `e` is the fault of a word access at `a` (R53, R212): Bus Error at an odd address, else the fault of the first of its two
bytes that may not be used. -/
def WordFault (s : State) (a : Word) (e : Fault) : Prop :=
  (misaligned a = true ∧ e = .busError a s.pc) ∨
    (misaligned a = false ∧ ∃ b, FirstOfTwo (fun x => ¬ Usable s x) a b ∧ e = shutFault s b)

/-- The fault of a shut address, by the kind of its range. -/
theorem byteFault_iff {s : State} {a : Word} {e : Fault} :
    ByteFault s a e ↔ (s.regionAt a = .readOnly ∧ e = .readOnly a s.pc) ∨ (s.regionAt a = .unmapped ∧ e = .unmapped a s.pc) := by
  unfold ByteFault Usable shutFault
  cases s.regionAt a <;> simp

theorem readByte_fault {s : State} {k : AccessKind} {a : Word} {e : Fault} : s.readByte k a = .error e ↔ ByteFault s a e :=
  readByte_error.trans byteFault_iff.symm

theorem writeByte_fault {s : State} {a : Word} {v : Byte} {e : Fault} : s.writeByte a v = .error e ↔ ByteFault s a e :=
  writeByte_error.trans byteFault_iff.symm

theorem usable_of_writeByte_ok {s t : State} {a : Word} {v : Byte} (h : s.writeByte a v = .ok t) : Usable s a :=
  (writeByte_ok.mp h).imp And.left And.left

theorem shutFault_ne_busError (s : State) (b a p : Word) : shutFault s b ≠ .busError a p := by
  unfold shutFault
  split <;> simp

theorem wordFault_busError {s : State} {a b p : Word} :
    WordFault s a (.busError b p) ↔ misaligned a = true ∧ b = a ∧ p = s.pc := by
  simp [WordFault, (shutFault_ne_busError _ _ _ _).symm]

/-- At an even address the lower byte is looked at first, and the upper one where the lower one may be used (log 34). -/
theorem wordFault_of_aligned {s : State} {a : Word} {e : Fault} (hm : misaligned a = false) :
    WordFault s a e ↔ ByteFault s a e ∨ (Usable s a ∧ ByteFault s (a + 1#16) e) := by
  constructor
  · rintro (⟨hodd, _⟩ | ⟨_, b, ⟨rfl, hb⟩ | ⟨rfl, ha, hb⟩, rfl⟩)
    · simp [hm] at hodd
    · exact .inl ⟨hb, rfl⟩
    · exact .inr ⟨not_not.mp ha, hb, rfl⟩
  · rintro (⟨ha, rfl⟩ | ⟨ha, hb, rfl⟩)
    · exact .inr ⟨hm, a, .inl ⟨rfl, ha⟩, rfl⟩
    · exact .inr ⟨hm, a + 1#16, .inr ⟨rfl, not_not.mpr ha, hb⟩, rfl⟩

theorem wordFault_of_misaligned {s : State} {a : Word} {e : Fault} (hm : misaligned a = true) :
    WordFault s a e ↔ e = .busError a s.pc := by
  simp [WordFault, hm]

/-- The faults of a word read (R54). -/
theorem memRead16_fault {s : State} {a : Word} {e : Fault} : s.memRead16 a = .error e ↔ WordFault s a e := by
  cases hm : misaligned a with
  | true => rw [memRead16_odd hm, wordFault_of_misaligned hm, Except.error.injEq, eq_comm]
  | false =>
    rw [wordFault_of_aligned hm, State.memRead16, if_neg (by simp [hm]), ← readByte_fault (k := .data),
      ← readByte_fault (k := .data)]
    cases h0 : s.readByte .data a with
    | error e0 => simp [(readByte_fault.mp h0).1]
    | ok b0 =>
      have ha : Usable s a := (readByte_ok.mp h0).1
      cases h1 : s.readByte .data (a + 1#16) <;> simp [ha]

/-- The faults of a word write (R55). -/
theorem memWrite16_fault {s : State} {a v : Word} {e : Fault} : s.memWrite16 a v = .error e ↔ WordFault s a e := by
  cases hm : misaligned a with
  | true => rw [memWrite16_odd v hm, wordFault_of_misaligned hm, Except.error.injEq, eq_comm]
  | false =>
    rw [wordFault_of_aligned hm, State.memWrite16, if_neg (by simp [hm]),
      ← writeByte_fault (v := (wordBytes s.cfg.endian v).1)]
    cases h0 : s.writeByte a (wordBytes s.cfg.endian v).1 with
    | error e0 => simp [(writeByte_fault.mp h0).1]
    | ok u =>
      have hu : ByteFault u (a + 1#16) e ↔ ByteFault s (a + 1#16) e := by
        rw [(writeByte_frame h0).1]
        rfl
      simp [writeByte_fault, hu, usable_of_writeByte_ok h0]

/-- The faults of a push (R60). -/
theorem push16_fault {s : State} {v : Word} {e : Fault} : s.push16 v = .error e ↔ WordFault s (s.sp - 2#16) e :=
  memWrite16_fault (s := s.setReg .r7 (s.sp - 2#16))

/-- The faults of a pop (R61). -/
theorem pop16_fault {s : State} {e : Fault} : s.pop16 = .error e ↔ WordFault s s.sp e :=
  pop16_error.trans memRead16_fault

/-! ## The fault of an instruction -/

/-- The address of the byte access an instruction makes (R113, R115), beside `wordAccess`. -/
def byteAccess (s : State) : Instr → Option Word
  | .ldbInd _ rs => some (s.reg rs)
  | .stbInd rd _ => some (s.reg rd)
  | _ => none

/-- `e` is the fault of the data access an instruction makes. -/
def AccessFault (s : State) (i : Instr) (e : Fault) : Prop :=
  (∃ a, wordAccess s i = some a ∧ WordFault s a e) ∨ ∃ a, byteAccess s i = some a ∧ ByteFault s a e

theorem accessFault_of_wordAccess {s : State} {i : Instr} {a : Word} {e : Fault} (hw : wordAccess s i = some a)
    (hb : byteAccess s i = none) : AccessFault s i e ↔ WordFault s a e := by
  simp [AccessFault, hw, hb]

theorem accessFault_of_byteAccess {s : State} {i : Instr} {a : Word} {e : Fault} (hw : wordAccess s i = none)
    (hb : byteAccess s i = some a) : AccessFault s i e ↔ ByteFault s a e := by
  simp [AccessFault, hw, hb]

theorem not_accessFault {s : State} {i : Instr} {e : Fault} (hw : wordAccess s i = none) (hb : byteAccess s i = none) :
    ¬ AccessFault s i e := by
  simp [AccessFault, hw, hb]

/-- An access made under a condition faults where the condition holds and the access faults. -/
theorem accessFault_of_conditional {s : State} {i : Instr} {a : Word} {e : Fault} {p : Prop} [Decidable p]
    (hw : wordAccess s i = if p then some a else none) (hb : byteAccess s i = none) :
    AccessFault s i e ↔ p ∧ WordFault s a e := by
  by_cases hp : p
  · rw [accessFault_of_wordAccess (hw.trans (if_pos hp)) hb, and_iff_right hp]
  · simp [not_accessFault (hw.trans (if_neg hp)) hb, hp]

theorem jumpIf_ne_fault {s : State} {cc : Cond} {i : Instr} {target : Word} {e : Fault} :
    s.jumpIf cc i target ≠ .fault e := by
  unfold State.jumpIf
  split <;> simp

theorem callIf_fault {s : State} {cc : Cond} {i : Instr} {target : Word} {e : Fault} :
    s.callIf cc i target = .fault e ↔ s.f.holds cc = true ∧ WordFault s (s.sp - 2#16) e := by
  cases hc : s.f.holds cc with
  | true => simp [callIf_taken hc, State.callTo, conclude_fault, push16_fault]
  | false => simp [callIf_notTaken hc]

theorem execPush_fault {r : Reg} {s : State} {e : Fault} :
    execPush r s = .fault e ↔ ¬ (r = .r7 ∧ s.cfg.spOperand = .refuse) ∧ WordFault s (s.sp - 2#16) e := by
  unfold execPush
  by_cases hr : r = .r7
  · cases hp : s.cfg.spOperand <;> simp [hr, conclude_fault, push16_fault]
  · simp [hr, conclude_fault, push16_fault]

theorem execPop_fault {r : Reg} {s : State} {e : Fault} :
    execPop r s = .fault e ↔ ¬ (r = .r7 ∧ s.cfg.spOperand = .refuse) ∧ WordFault s s.sp e := by
  unfold execPop
  by_cases hr : r = .r7
  · cases hp : s.cfg.spOperand <;> simp [hr, conclude_fault, pop16_fault]
  · simp [hr, conclude_fault, pop16_fault]

theorem execBit_ne_fault {r : Reg} {n8 : Byte} {s : State} {e : Fault} : execBit r n8 s ≠ .fault e := by
  unfold execBit
  split <;> simp

/-- An instruction ends in a fault exactly when its data access does, and in the fault of that access. -/
theorem exec_fault {i : Instr} {s : State} {e : Fault} : exec i s = .fault e ↔ AccessFault s i e := by
  cases i with
  | ldwInd | ldwAbs => exact (conclude_fault.trans memRead16_fault).trans (accessFault_of_wordAccess rfl rfl).symm
  | stwInd | stwAbs => exact (conclude_fault.trans memWrite16_fault).trans (accessFault_of_wordAccess rfl rfl).symm
  | ldbInd => exact (conclude_fault.trans readByte_fault).trans (accessFault_of_byteAccess rfl rfl).symm
  | stbInd => exact (conclude_fault.trans writeByte_fault).trans (accessFault_of_byteAccess rfl rfl).symm
  | push => exact execPush_fault.trans (accessFault_of_conditional (by simp only [wordAccess, ite_not]) rfl).symm
  | pop => exact execPop_fault.trans (accessFault_of_conditional (by simp only [wordAccess, ite_not]) rfl).symm
  | call => exact (conclude_fault.trans push16_fault).trans (accessFault_of_wordAccess rfl rfl).symm
  | callz | callc | calln | callv => exact callIf_fault.trans (accessFault_of_conditional rfl rfl).symm
  | callnz | callnc | callnn | callnv =>
    exact callIf_fault.trans (accessFault_of_conditional (by simp only [wordAccess, FReg.holds, Bool.not_eq_true',
      ← Bool.not_eq_true, ite_not]) rfl).symm
  | ret | reti => exact (conclude_fault.trans pop16_fault).trans (accessFault_of_wordAccess rfl rfl).symm
  | jz | jnz | jc | jnc | jn | jnn | jv | jnv | jrz | jrnz | jrc | jrnc | jrn | jrnn | jrv | jrnv =>
    exact iff_of_false jumpIf_ne_fault (not_accessFault rfl rfl)
  | bit => exact iff_of_false execBit_ne_fault (not_accessFault rfl rfl)
  | ldReg | ldImm | addReg | addImm | subReg | subImm | andReg | andImm | orReg | orImm | xorReg | xorImm | incReg | decReg
  | cmpReg | cmpImm | addbReg | addbImm | subbReg | andbReg | orbReg | xorbReg | incbReg | decbReg | cmpbReg | cmpbImm | shl
  | shr | rol | ror | jmp | jmpReg | jr | nop | halt | di | ei => exact iff_of_false nofun (not_accessFault rfl rfl)

/-! ## The fault of the fetch and of an interrupt entry -/

theorem runInstr_of_fetchInstr_error {s : State} {e : Fault} (h : s.fetchInstr = .error e) : runInstr s = .fault e := by
  simp only [runInstr, h]

/-- A fetch that comes to a shut address faults there (R58, R62). -/
theorem fetchInstr_shut {s : State} {got : List Byte} {e : Fault} (hf : FetchesAt s s.pc got) (hu : Undecided s got)
    (he : ByteFault s (s.pc + BitVec.ofNat 16 got.length) e) : s.fetchInstr = .error e := by
  obtain ⟨n, hn⟩ := fetchInstr_undecided hf hu
  rw [hn]
  exact fetchMore_fault (readByte_fault.mpr he)

/-- The faults of an interrupt entry are those of its push (R219). -/
theorem takeInterrupt_fault {src : IntSource} {s : State} {v : Word} {e : Fault} (hv : src.vector = some v) :
    takeInterrupt src s = .fault e ↔ WordFault s (s.sp - 2#16) e := by
  simp only [takeInterrupt, hv, conclude_fault]
  exact push16_fault

theorem step_of_entry {s : State} {src : IntSource} (h : s.stepKind = .entry src) : step s = takeInterrupt src s.beginStep := by
  simp only [step, h]

/-! ## The stack and the fetch after a store -/

theorem execPush_of_ne {r : Reg} (h : r ≠ .r7) (s : State) :
    execPush r s = conclude (s.push16 (s.reg r)) (fun u => u.advance (.push r)) := if_neg h

theorem execPop_of_ne {r : Reg} (h : r ≠ .r7) (s : State) :
    execPop r s = conclude s.pop16 (fun p => (p.2.setReg r p.1).advance (.pop r)) := if_neg h

/-- The low byte of a word by its number (R8). -/
theorem Word.lo_eq_byte (w : Word) : Word.lo w = byte (w.toNat % 256) := by
  apply BitVec.eq_of_toNat_eq
  rw [Word.lo_toNat]
  simp [byte]

/-- In plain memory every kind of read, the fetch among them, reads the byte of memory (R59). -/
theorem readByte_plain {s : State} {a : Word} (h : s.regionAt a = .plain) (k : AccessKind) :
    s.readByte k a = .ok (s.mem.read a) :=
  readByte_ok.mpr ⟨.inl h, (byteAt_memory (by simp [h])).symm⟩

theorem writeByte_plain {s : State} {a : Word} (h : s.regionAt a = .plain) (v : Byte) :
    s.writeByte a v = .ok (s.setMem (s.mem.write a v)) := writeByte_ok.mpr (.inl ⟨h, rfl⟩)

/-! ## The statements -/

/-- Settles O16, from the footprint of each instruction, whose bytes are those it stores to. -/
theorem memoryChangesOnlyAsListed : Obligations.MemoryChangesOnlyAsListed :=
  fun _ _ _ h => (exec_covers h).bytes

/-- Settles O18: an instruction's faults are those of its data access, and of these Bus Error is the one of a word access at an
odd address. -/
theorem busErrorExactlyWhenWordAccessIsOdd : Obligations.BusErrorExactlyWhenWordAccessIsOdd := by
  intro i s a p
  rw [exec_fault]
  constructor
  · rintro (⟨b, hw, hf⟩ | ⟨b, _, _, he⟩)
    · obtain ⟨hodd, rfl, rfl⟩ := wordFault_busError.mp hf
      exact ⟨hw, (misaligned_iff _).mp hodd, rfl⟩
    · exact absurd he.symm (shutFault_ne_busError s b a p)
  · rintro ⟨hw, hodd, rfl⟩
    exact .inl ⟨a, hw, wordFault_busError.mpr ⟨(misaligned_iff a).mpr hodd, rfl, rfl⟩⟩

/-- Settles O29: the POP reads back the word that the PUSH stored. -/
theorem popAfterPushRestores : Obligations.PopAfterPushRestores := by
  intro q r s t hq hr h0 h1 h
  obtain ⟨u, hu, rfl⟩ := conclude_next.mp ((execPush_of_ne hq s).symm.trans h)
  have hpop := pop16_after_push16 (t := u.advance (.push q)) h0 h1 hu rfl rfl rfl
  refine ⟨_, (execPop_of_ne hr _).trans (conclude_next.mpr ⟨_, hpop, rfl⟩), ?_, ?_⟩
  · simp
  · simp [State.sp, State.reg_setReg_other _ hr.symm]

/-- Settles O59: the access, the fetch or the push of the entry comes to the shut address first, and every access there is its
fault. -/
theorem platformRangesFault : Obligations.PlatformRangesFault := by
  intro s
  refine ⟨fun rd rs h => ?load, fun rd rs h => ?store, fun i a b hw heven hb => ?word, fun got hk hf hu h => ?fetch,
    fun src v b hk hv heven hb => ?entry⟩
  case load => exact exec_fault.mpr (.inr ⟨_, rfl, h, rfl⟩)
  case store => exact exec_fault.mpr (.inr ⟨_, rfl, h, rfl⟩)
  case word => exact exec_fault.mpr (.inl ⟨a, hw, .inr ⟨(aligned_iff a).mpr heven, b, hb, rfl⟩⟩)
  case fetch =>
    rw [step_of_instruction hk]
    exact runInstr_of_fetchInstr_error (fetchInstr_shut hf hu ⟨h, rfl⟩)
  case entry =>
    have haligned : misaligned (s.sp - 2#16) = false := by
      rw [aligned_iff, BitVec.toNat_sub]
      simp
      omega
    rw [step_of_entry hk]
    exact (takeInterrupt_fault hv).mpr (.inr ⟨haligned, b, hb, rfl⟩)

/-- Settles O60: the store writes the byte of memory that the fetch reads. -/
theorem fetchSeesStoredByte : Obligations.FetchSeesStoredByte := by
  intro rd rs s t hplain h
  obtain ⟨u, hu, rfl⟩ := conclude_next.mp h
  obtain rfl : s.setMem (s.mem.write (s.reg rd) (s.low rs)) = u := Except.ok.inj ((writeByte_plain hplain _).symm.trans hu)
  rw [readByte_plain]
  · simp [State.low, Word.lo_eq_byte]
  · exact hplain

end Sys2Proof.Machine
end

section
/-! PROOFS. ENC_P in the other direction: the bytes that the decoder reads an instruction from are its encoding, and those it
rejects are the unassigned ones (R82, R93); from both, lengths under any encoding (R83, R95) and the fault of fetching an
unassigned encoding (R213). -/

namespace Sys2Proof

/-! ## The maps of ENC_P backwards -/

/-- The first bytes that ENC_P leaves unassigned (R93). -/
def UnassignedFirst (b0 : Byte) : Prop :=
  b0.toNat = 0x06 ∨ b0.toNat = 0x07 ∨ b0.toNat = 0x0B ∨ b0.toNat = 0x0C ∨ b0.toNat = 0x0D

/-- What a first byte is, by what the first-byte map says of it: the first byte of the encodings of what it opens, the byte
that opens a page, or an unassigned one. -/
def Opened.IsFrom (e : Endian) (b0 : Byte) : Opened → Prop
  | .plain i => encode e i = [b0]
  | .imm8 k => ∀ n8, encode e (k n8) = [b0, n8]
  | .imm16 k => ∀ n16, encode e (k n16) = b0 :: immBytes e n16
  | .pageA => b0 = prefixA
  | .pageB => b0 = prefixB
  | .unassigned => UnassignedFirst b0

theorem encode_jcc (e : Endian) (k : Cond) (n16 : Word) :
    encode e (Instr.jcc k n16) = (0b11101#5 ++ k.code) :: immBytes e n16 := by
  cases k <;> rfl

theorem encode_jrcc (e : Endian) (k : Cond) (n8 : Byte) : encode e (Instr.jrcc k n8) = [0b11110#5 ++ k.code, n8] := by
  cases k <;> rfl

theorem encode_callcc (e : Endian) (k : Cond) (n16 : Word) :
    encode e (Instr.callcc k n16) = (0b11111#5 ++ k.code) :: immBytes e n16 := by
  cases k <;> rfl

/-- The groups whose low field is part of the opcode (R85): CPU control, and the jumps, the call and the two pages. -/
theorem openByte_isFrom_of_group_lt_two (e : Endian) {g : BitVec 5} (c : BitVec 3) (h : g.toNat < 2) :
    (openByte (g ++ c)).IsFrom e (g ++ c) := by
  obtain ⟨r, rfl⟩ : ∃ r : Reg, c = r.code := ⟨Reg.ofCode c, by simp⟩
  obtain hg | hg : g.toNat = 0 ∨ g.toNat = 1 := by omega
  · obtain rfl : g = 0#5 := BitVec.eq_of_toNat_eq hg
    cases r with
    | r0 | r1 | r2 | r3 | r4 | r5 => rfl
    | r6 => exact .inl rfl
    | r7 => exact .inr (.inl rfl)
  · obtain rfl : g = 1#5 := BitVec.eq_of_toNat_eq hg
    cases r with
    | r0 | r1 | r2 => exact fun _ => rfl
    | r3 => exact .inr (.inr (.inl rfl))
    | r4 => exact .inr (.inr (.inr (.inl rfl)))
    | r5 => exact .inr (.inr (.inr (.inr rfl)))
    | r6 | r7 => rfl

/-- The first-byte map (R85), group by group. -/
theorem openByte_isFrom (e : Endian) (b0 : Byte) : (openByte b0).IsFrom e b0 := by
  obtain ⟨g, c, rfl⟩ : ∃ (g : BitVec 5) (c : BitVec 3), b0 = g ++ c := ⟨_, _, (group_append_low b0).symm⟩
  by_cases hlow : g.toNat < 2
  · exact openByte_isFrom_of_group_lt_two e c hlow
  · have field {n : Nat} (h : g.toNat = n) : g = BitVec.ofNat 5 n := (BitVec.toNat_eq_nat.mp h).2
    simp only [openByte, extractLsb'_group, extractLsb'_low]
    split
    case h_1 h | h_2 h => omega
    case h_30 h => simp [Opened.IsFrom, encode_jcc, field h]
    case h_31 h => simp [Opened.IsFrom, encode_jrcc, field h]
    case h_32 =>
      have h : g.toNat = 31 := by
        simp only [imp_false] at *
        omega
      simp [Opened.IsFrom, encode_callcc, field h]
    all_goals
      rename_i h
      simp [Opened.IsFrom, encode, field h]

/-- A second byte is its three fields (R86, R87). -/
theorem exists_pageFields (b1 : Byte) : ∃ (p : BitVec 2) (m c : Reg), b1 = p ++ m.code ++ c.code := by
  have fields : ∀ b : Byte, b = b.extractLsb' 6 2 ++ b.extractLsb' 3 3 ++ b.extractLsb' 0 3 := by decide
  exact ⟨b1.extractLsb' 6 2, .ofCode (b1.extractLsb' 3 3), .ofCode (b1.extractLsb' 0 3), by simpa using fields b1⟩

/-- Bit 7 of a second byte is the upper bit of its top field. -/
theorem pageFields_toNat_lt_iff (p : BitVec 2) (m c : BitVec 3) : (p ++ m ++ c : Byte).toNat < 0x80 ↔ p.toNat < 2 := by
  revert p m c
  decide

theorem pageTop_cases (p : BitVec 2) : p = 0b00#2 ∨ p = 0b01#2 ∨ p = 0b10#2 ∨ p = 0b11#2 := by
  revert p
  decide

/-- Page A (R86), operation by operation. -/
theorem encode_decodePageA (e : Endian) (b1 : Byte) : encode e (decodePageA b1) = [prefixA, b1] := by
  obtain ⟨p, m, c, rfl⟩ := exists_pageFields b1
  obtain rfl | rfl | rfl | rfl := pageTop_cases p
  all_goals simp [decodePageA, encode]

/-- Page B (R87): a second byte with bit 7 clear is that of an instruction's encoding, and one with bit 7 set is
unassigned (R93). -/
theorem decodePageB_cases (e : Endian) (b1 : Byte) :
    (∃ i, decodePageB b1 = .ok i ∧ encode e i = [prefixB, b1] ∧ b1.toNat < 0x80) ∨
    (decodePageB b1 = .error .unassigned ∧ 0x80 ≤ b1.toNat) := by
  obtain ⟨p, m, c, rfl⟩ := exists_pageFields b1
  have hbit7 := pageFields_toNat_lt_iff p m.code c.code
  simp only [decodePageB, extractLsb'_pageTop, extractLsb'_pageMid, extractLsb'_pageLow, Reg.ofCode_code]
  obtain rfl | rfl | rfl | rfl := pageTop_cases p
  · exact .inl ⟨.ldReg m c, rfl, rfl, hbit7.mpr (by decide)⟩
  · have hlt := hbit7.mpr (by decide)
    refine .inl ?_
    cases m with
    | r0 => exact ⟨.addbReg c, rfl, rfl, hlt⟩
    | r1 => exact ⟨.subbReg c, rfl, rfl, hlt⟩
    | r2 => exact ⟨.andbReg c, rfl, rfl, hlt⟩
    | r3 => exact ⟨.orbReg c, rfl, rfl, hlt⟩
    | r4 => exact ⟨.xorbReg c, rfl, rfl, hlt⟩
    | r5 => exact ⟨.cmpbReg c, rfl, rfl, hlt⟩
    | r6 => exact ⟨.incbReg c, rfl, rfl, hlt⟩
    | r7 => exact ⟨.decbReg c, rfl, rfl, hlt⟩
  all_goals exact .inr ⟨rfl, not_lt.mp (hbit7.not.mpr (by decide))⟩

theorem encode_of_decodePageB_ok (e : Endian) {b1 : Byte} {i : Instr} (h : decodePageB b1 = .ok i) :
    encode e i = [prefixB, b1] := by
  obtain ⟨j, hj, hb, _⟩ | ⟨hu, _⟩ := decodePageB_cases e b1
  · cases hj.symm.trans h
    exact hb
  · cases hu.symm.trans h

theorem decodePageB_error_iff {b1 : Byte} {err : DecodeError} :
    decodePageB b1 = .error err ↔ err = .unassigned ∧ 0x80 ≤ b1.toNat := by
  obtain ⟨j, hj, _, hlt⟩ | ⟨hu, hle⟩ := decodePageB_cases .little b1
  · simp [hj, hlt]
  · simp [hu, hle, eq_comm]

/-! ## What decodes is its own encoding -/

/-- The encoder writes back the bytes that the decoder read (R82), whatever the first of them says. -/
theorem eq_encode_of_decode_ok {e : Endian} {bytes rest : List Byte} {i : Instr} (h : decode e bytes = .ok (i, rest)) :
    bytes = encode e i ++ rest := by
  cases bytes with
  | nil => cases h
  | cons b0 tail =>
    have hfrom := openByte_isFrom e b0
    obtain ⟨ho, rfl⟩ | ⟨k, n8, ho, rfl, rfl⟩ | ⟨k, a, b, ho, rfl, rfl⟩ | ⟨b1, ho, rfl, rfl⟩ | ⟨b1, ho, hi, rfl⟩ :=
      decode_cons_ok h
    all_goals simp only [ho, Opened.IsFrom] at hfrom
    · rw [hfrom, List.singleton_append]
    · rw [hfrom, List.cons_append, List.singleton_append]
    · simp [hfrom, immBytes]
    · simp [hfrom, encode_decodePageA]
    · simp [hfrom, encode_of_decodePageB_ok e hi]

/-! ## What is rejected -/

/-- The decoder rejects an unassigned first byte at once (R93). -/
theorem decode_unassignedFirst {b0 : Byte} (e : Endian) (tail : List Byte) (h : UnassignedFirst b0) :
    decode e (b0 :: tail) = .error .unassigned := by
  obtain h | h | h | h | h := h
  all_goals
    rw [(BitVec.toNat_eq_nat.mp h).2]
    rfl

/-- It rejects the byte of page B before a second byte with bit 7 set (R93). -/
theorem decode_unassignedSecond {b1 : Byte} (e : Endian) (tail : List Byte) (h : 0x80 ≤ b1.toNat) :
    decode e (prefixB :: b1 :: tail) = .error .unassigned := by
  have hp : openByte prefixB = .pageB := rfl
  simp only [decode, hp, decodePageB_error_iff.mpr ⟨rfl, h⟩]

/-- Nothing else is rejected of three bytes or more, which no instruction exceeds. -/
theorem unassigned_of_decode_error {e : Endian} {b0 b1 b2 : Byte} {rest : List Byte} {err : DecodeError}
    (h : decode e (b0 :: b1 :: b2 :: rest) = .error err) : UnassignedFirst b0 ∨ (b0 = prefixB ∧ 0x80 ≤ b1.toNat) := by
  have hfrom := openByte_isFrom e b0
  cases ho : openByte b0 with
  | plain _ | imm8 _ | imm16 _ | pageA => simp [decode, ho] at h
  | pageB =>
    rw [ho] at hfrom
    simp only [decode, ho] at h
    split at h
    · cases h
    · rename_i hb
      exact .inr ⟨hfrom, (decodePageB_error_iff.mp hb).2⟩
  | unassigned =>
    rw [ho] at hfrom
    exact .inl hfrom

/-! ## Lengths under ENC_P and under any encoding -/

theorem length_encode (e : Endian) (i : Instr) : (encode e i).length = i.ilen := by
  cases i <;> rfl

theorem fetchLength_le_three (b0 : Byte) : fetchLength b0 ≤ 3 := by
  unfold fetchLength
  split <;> decide

/-- An encoding is not empty, and as long as its first byte tells (R95). -/
theorem exists_encode_cons (e : Endian) (i : Instr) : ∃ b0 tail, encode e i = b0 :: tail ∧ fetchLength b0 = tail.length + 1 := by
  have hd : decode e (encode e i) = .ok (i, []) := by simpa using decode_encode e i []
  cases hb : encode e i with
  | nil =>
    rw [hb] at hd
    cases hd
  | cons b0 tail =>
    rw [hb] at hd
    exact ⟨b0, tail, rfl, (length_of_decode_ok hd).symm⟩

/-- Decoding takes `ilen` bytes, by the length function of the encoding (R6, R83). -/
theorem length_of_decodeWith_ok {enc : Encoding} {e : Endian} {bytes rest : List Byte} {i : Instr} (hw : enc.WellFormed)
    (h : decodeWith enc e bytes = .ok (i, rest)) : bytes.length = enc.ilen i + rest.length := by
  cases enc with
  | encP => rw [eq_encode_of_decode_ok h, List.length_append, length_encode, ilen_encP]
  | table rows =>
    obtain ⟨row, hrow, hread⟩ := decodeRows_ok h
    obtain ⟨hfor, hlength⟩ := EncRow.read_ok hread
    rw [hlength, Encoding.ilen, rowsIlen_eq hw hrow hfor]

end Sys2Proof

namespace Sys2Proof.Machine

open Claims

/-! ## Fetching an unassigned encoding -/

/-- The fetch ends in IllegalInstruction(pc) at the byte with which its bytes turn out to be illegal (R213). -/
theorem fetchInstr_unassigned {s : State} {got : List Byte} {b : Byte} (hf : FetchesAt s s.pc (got ++ [b]))
    (hu : Undecided s got) (hd : decodeWith s.cfg.enc s.cfg.endian (got ++ [b]) = .error .unassigned) :
    s.fetchInstr = .error (.illegalInstruction s.pc) := by
  obtain ⟨hgot, hb⟩ := fetchesAt_append.mp hf
  obtain ⟨n, hn⟩ := fetchInstr_undecided hgot hu
  rw [hn]
  exact fetchMore_unassigned (fetchesAt_singleton.mp hb) hd

theorem undecided_nil (s : State) : Undecided s [] := fun _ h0 hn => absurd h0 (Nat.not_lt.mpr hn)

/-- The byte of page B alone does not decide, being the beginning of an instruction. -/
theorem undecided_prefixB {s : State} (hp : s.cfg.enc = .encP) : Undecided s [prefixB] :=
  undecided_of_decode (b := 0x00#8) (i := .ldReg .r0 .r0) hp rfl

theorem step_unassigned {s : State} {got : List Byte} {b : Byte} (hk : s.stepKind = .instruction)
    (hf : FetchesAt s.beginStep s.pc (got ++ [b])) (hu : Undecided s got)
    (hd : decodeWith s.cfg.enc s.cfg.endian (got ++ [b]) = .error .unassigned) : step s = .fault (.illegalInstruction s.pc) := by
  rw [step_of_instruction hk]
  exact runInstr_of_fetchInstr_error (fetchInstr_unassigned hf hu hd)

/-! ## The statements -/

/-- Settles O1, format by format. -/
theorem encodedInstructionDecodesBack : Obligations.EncodedInstructionDecodesBack := decode_encode

/-- Settles O2: each byte that the decoder looks at is written again by the encoder, by the first-byte map and the two pages read
backwards. -/
theorem decodedBytesAreTheEncoding : Obligations.DecodedBytesAreTheEncoding :=
  fun _ _ _ _ => eq_encode_of_decode_ok

/-- Settles O3: what the first-byte map and page B leave unassigned is rejected, and three bytes are never too few. -/
theorem rejectedExactlyWhenUnassigned : Obligations.RejectedExactlyWhenUnassigned := by
  intro e b0 b1 b2 rest
  have hB : b0 = prefixB ↔ b0.toNat = 0x0F := BitVec.toNat_inj.symm
  have key : (∃ err, decode e (b0 :: b1 :: b2 :: rest) = .error err) ↔
      UnassignedFirst b0 ∨ (b0 = prefixB ∧ 0x80 ≤ b1.toNat) := by
    constructor
    · rintro ⟨err, h⟩
      exact unassigned_of_decode_error h
    · rintro (h | ⟨rfl, h⟩)
      · exact ⟨_, decode_unassignedFirst e _ h⟩
      · exact ⟨_, decode_unassignedSecond e _ h⟩
  rw [key, UnassignedFirst, hB]
  simp only [or_assoc]

/-- Settles O4: decoding the encoding takes what its first byte tells, and a table's rows what they have. -/
theorem firstByteTellsLength : Obligations.FirstByteTellsLength := by
  refine ⟨fun e i => ?_, fun enc e bytes rest i => length_of_decodeWith_ok⟩
  obtain ⟨b0, tail, hb, hl⟩ := exists_encode_cons e i
  have hilen := length_encode e i
  have hmax := fetchLength_le_three b0
  rw [hb, List.length_cons] at hilen
  exact ⟨b0, tail, hb, hl, hilen.symm, by omega⟩

/-- Settles O8: the encodings that ENC_P leaves unassigned are cases of the clause on any ENC. -/
theorem unassignedFetchFaults : Obligations.UnassignedFetchFaults := by
  intro s hk
  refine ⟨fun b0 hp h0 hb => ?first, fun b1 hp h0 h1 hb => ?second, fun got b => step_unassigned hk⟩
  case first =>
    refine step_unassigned (got := []) hk ⟨h0, trivial⟩ (undecided_nil s) ?_
    rw [hp]
    exact decode_unassignedFirst s.cfg.endian [] hb
  case second =>
    refine step_unassigned (got := [prefixB]) hk ⟨h0, h1, trivial⟩ (undecided_prefixB hp) ?_
    rw [hp]
    exact decode_unassignedSecond s.cfg.endian [] hb

/-- Settles O5, by running the decoder on each word. -/
theorem wordsOfTheSpecDecode : Obligations.WordsOfTheSpecDecode :=
  ⟨rfl, rfl, rfl, rfl, rfl, rfl, rfl, rfl, rfl⟩

end Sys2Proof.Machine
end

section
/-! PROOFS. Load and store (spec/40_load_store.md): the bytes of an instruction by their numbers, what each data access answers
at an address it may use, and from these the instructions that load, store, push and pop. -/

namespace Sys2Proof.Machine

open Claims

/-! ## The bytes of an instruction by their numbers -/

/-- An instruction's form is its bytes and its cycles: the length under ENC_P is the number of its bytes (R83). -/
theorem hasForm_of_encode {i : Instr} {bytes : Endian → List Byte} {met notMet : Nat} (hb : ∀ e, encode e i = bytes e)
    (hc : instrCycles i = ⟨met, notMet⟩) : HasForm i bytes met notMet :=
  ⟨fun e => ⟨hb e, by rw [← hb e, length_encode, ilen_encP]⟩, hc⟩

theorem byte_toNat (b : Byte) : byte b.toNat = b := by
  simp [byte]

theorem Reg.code_toNat (r : Reg) : r.code.toNat = regNum r := by
  cases r <;> rfl

/-- A first byte with a register in its low field (R85). -/
theorem group_append_code (g : BitVec 5) (r : Reg) : (g ++ r.code : Byte) = byte (8 * g.toNat + regNum r) := by
  have h := toNat_append g r.code
  rw [Reg.code_toNat] at h
  rw [show 8 * g.toNat + regNum r = (g ++ r.code).toNat by omega]
  exact (byte_toNat _).symm

/-- A second byte with a register in each of its lower fields (R86, R87). -/
theorem pageTop_append_codes (p : BitVec 2) (m c : Reg) :
    (p ++ m.code ++ c.code : Byte) = byte (64 * p.toNat + 8 * regNum m + regNum c) := by
  have h := toNat_append p m.code
  have h' := toNat_append (p ++ m.code) c.code
  rw [Reg.code_toNat] at h h'
  rw [show 64 * p.toNat + 8 * regNum m + regNum c = (p ++ m.code ++ c.code).toNat by omega]
  exact (byte_toNat _).symm

/-- The high byte of a word by its number (R8). -/
theorem Word.hi_eq_byte (w : Word) : Word.hi w = byte (w.toNat / 256) := by
  rw [← Word.hi_toNat, byte_toNat]

/-- The bytes of a word by their numbers, in either order (R52). -/
theorem wordBytes_eq (e : Endian) (w : Word) : wordBytes e w = (firstByte e w, secondByte e w) := by
  cases e <;> simp [wordBytes, firstByte, secondByte, Word.lo_eq_byte, Word.hi_eq_byte]

theorem immBytes_eq (e : Endian) (n16 : Word) : immBytes e n16 = [firstByte e n16, secondByte e n16] := by
  rw [immBytes, wordBytes_eq]

/-! ## What an instruction leaves unchanged -/

theorem Claims.Frame.refl (ds : List Reg) (s : State) : Frame ds s s :=
  ⟨fun _ _ => rfl, fun _ => rfl, ⟨rfl, rfl, rfl, rfl, rfl⟩, rfl⟩

theorem Claims.RegsKeptBut.setReg {ds : List Reg} {s t : State} (h : RegsKeptBut ds s t) {d : Reg} (hd : d ∈ ds) (v : Word) :
    RegsKeptBut ds s (t.setReg d v) :=
  fun r hr => (State.reg_setReg_other t (fun e : r = d => hr (e ▸ hd)) v).trans (h r hr)

theorem Claims.Frame.setReg {ds : List Reg} {s t : State} (h : Frame ds s t) {d : Reg} (hd : d ∈ ds) (v : Word) :
    Frame ds s (t.setReg d v) :=
  h.imp_left (·.setReg hd v)

theorem Claims.Frame.advance {ds : List Reg} {s t : State} (h : Frame ds s t) (i : Instr) : Frame ds s (t.advance i) := h

/-! ## The data accesses at an address that may be used -/

/-- The number of the word that two bytes make (R52). -/
theorem joinWord_toNat (e : Endian) (a b : Byte) : (joinWord e a b).toNat = wordValue e a b := by
  cases e with
  | little => exact joinWord_little_toNat a b
  | big => exact joinWord_big_toNat a b

/-- A word read completes (R54), with the word whose number `loaded` gives. -/
theorem memRead16_usable {s : State} {a : Word} (h : UsableWord s a) : ∃ w, s.memRead16 a = .ok w ∧ w.toNat = loaded s a := by
  obtain ⟨heven, h0, h1⟩ := h
  exact ⟨_, memRead16_ok.mpr ⟨(aligned_iff a).mpr heven, h0, h1, rfl⟩, joinWord_toNat _ _ _⟩

theorem memRead8_usable {s : State} {a : Word} (h : Usable s a) : s.memRead8 a = .ok (s.byteAt .data a) :=
  memRead8_ok.mpr ⟨h, rfl⟩

/-- A byte write completes (R55), and writes nothing but the byte at its address. -/
theorem memWrite8_usable {s : State} {a : Word} (v : Byte) (h : Usable s a) :
    ∃ m, s.memWrite8 a v = .ok (s.setMem m) ∧ (∀ b, b ≠ a → m.read b = s.mem.read b) ∧
      m.read a = if s.regionAt a = .plain then v else s.mem.read a := by
  obtain ⟨t, ht⟩ : ∃ t, s.writeByte a v = .ok t := by
    obtain h | h := h
    · exact ⟨_, writeByte_ok.mpr (.inl ⟨h, rfl⟩)⟩
    · exact ⟨_, writeByte_ok.mpr (.inr ⟨h, rfl⟩)⟩
  obtain ⟨he, hother, hat⟩ := writeByte_frame ht
  exact ⟨t.mem, ht.trans (congrArg Except.ok he), hother, hat⟩

/-- A word write completes (R55), and writes nothing but the two bytes of its word. -/
theorem memWrite16_usable {s : State} {a : Word} (v : Word) (h : UsableWord s a) :
    ∃ m, s.memWrite16 a v = .ok (s.setMem m) ∧ StoresWord s (s.setMem m) a v := by
  obtain ⟨heven, h0, h1⟩ := h
  obtain ⟨t, ht⟩ := memWrite16_completes v ((aligned_iff a).mpr heven) h0 h1
  obtain ⟨_, he, hother, hfirst, hsecond⟩ := memWrite16_frame ht
  rw [wordBytes_eq] at hfirst hsecond
  exact ⟨t.mem, ht.trans (congrArg Except.ok he), hother, hfirst, hsecond⟩

/-- A push completes (R60): the word at the new `sp`, and nothing else. -/
theorem push16_usable {s : State} (v : Word) (h : UsableWord s (s.sp - 2#16)) :
    ∃ m, s.push16 v = .ok ((s.setReg .r7 (s.sp - 2#16)).setMem m) ∧ StoresWord s (s.setMem m) (s.sp - 2#16) v :=
  memWrite16_usable (s := s.setReg .r7 (s.sp - 2#16)) v h

/-- A pop completes (R61) with the word at `sp`. -/
theorem pop16_usable {s : State} (h : UsableWord s s.sp) :
    ∃ w, s.pop16 = .ok (w, s.setReg .r7 (s.sp + 2#16)) ∧ w.toNat = loaded s s.sp := by
  obtain ⟨w, hw, hn⟩ := memRead16_usable h
  exact ⟨w, pop16_ok.mpr ⟨hw, rfl⟩, hn⟩

/-! ## Loads and stores -/

/-- An instruction that ends with a value in a register and `pc <- npc` changes nothing else. -/
theorem does_of_exec_setReg {i : Instr} {s : State} {d : Reg} {v : Word} (h : exec i s = .next ((s.setReg d v).advance i)) :
    Does i s fun t => t.reg d = v ∧ t.pc = nextPc i s ∧ t.f = s.f ∧ Frame [d] s t :=
  ⟨_, h, State.reg_setReg_same s d v, rfl, rfl, ((Frame.refl _ s).setReg List.mem_cons_self v).advance i⟩

/-- What an instruction does follows from anything stronger that it does. -/
theorem Claims.Does.mono {i : Instr} {s : State} {P Q : State → Prop} (h : Does i s P) (hPQ : ∀ t, P t → Q t) : Does i s Q :=
  Exists.imp (fun t => And.imp_right (hPQ t)) h

/-- A word load into `d` from `a` (R112, R116). -/
theorem does_wordLoad {i : Instr} {s : State} {d : Reg} {a : Word}
    (h : exec i s = conclude (s.memRead16 a) fun w => (s.setReg d w).advance i) (hu : UsableWord s a) :
    Does i s fun t => (t.reg d).toNat = loaded s a ∧ t.pc = nextPc i s ∧ t.f = s.f ∧ Frame [d] s t := by
  obtain ⟨w, hw, hn⟩ := memRead16_usable hu
  have hnext : exec i s = .next ((s.setReg d w).advance i) := h.trans (conclude_next.mpr ⟨w, hw, rfl⟩)
  exact (does_of_exec_setReg hnext).mono fun t => And.imp_left fun hd => (congrArg BitVec.toNat hd).trans hn

/-- A word store of `v` to `a` (R114, R117). -/
theorem does_wordStore {i : Instr} {s : State} {a v : Word}
    (h : exec i s = conclude (s.memWrite16 a v) fun u => u.advance i) (hu : UsableWord s a) :
    Does i s fun t => StoresWord s t a v ∧ t.pc = nextPc i s ∧ t.f = s.f ∧ RegsKeptBut [] s t ∧ ControlKept s t := by
  obtain ⟨m, hm, hstores⟩ := memWrite16_usable v hu
  exact ⟨_, h.trans (conclude_next.mpr ⟨_, hm, rfl⟩), hstores, rfl, rfl, fun _ _ => rfl, rfl, rfl, rfl, rfl, rfl⟩

/-- A word access at an odd address is a Bus Error (R53). -/
theorem exec_busError_of_odd {i : Instr} {s : State} {a : Word} (hw : wordAccess s i = some a) (hodd : a.toNat % 2 = 1) :
    exec i s = .fault (.busError a s.pc) :=
  (busErrorExactlyWhenWordAccessIsOdd i s a s.pc).mpr ⟨hw, hodd, rfl⟩

/-! ## The statements -/

/-- Settles O22: each form ends with its operand in its destination. -/
theorem registerLoadsCopy : Obligations.RegisterLoadsCopy := by
  refine ⟨fun rd rs => ?copyForm, fun rd rs s => does_of_exec_setReg rfl, fun r n16 => ?immForm,
    fun r n16 s => does_of_exec_setReg rfl⟩
  case copyForm => exact hasForm_of_encode (fun e => by simp [encode, prefixB, pageTop_append_codes]) rfl
  case immForm => exact hasForm_of_encode (fun e => by simp [encode, group_append_code, immBytes_eq]) rfl

/-- Settles O23: both forms are a word load, from the address in `rs` and from `n16`. -/
theorem wordLoadsReadTheWord : Obligations.WordLoadsReadTheWord := by
  refine ⟨fun rd rs => ?indForm, fun rd rs s => ⟨does_wordLoad rfl, exec_busError_of_odd rfl⟩, fun r n16 => ?absForm,
    fun r n16 s => ⟨does_wordLoad rfl, exec_busError_of_odd rfl⟩⟩
  case indForm => exact hasForm_of_encode (fun e => by simp [encode, prefixA, pageTop_append_codes]) rfl
  case absForm => exact hasForm_of_encode (fun e => by simp [encode, group_append_code, immBytes_eq]) rfl

/-- Settles O24: the byte read, extended to a word, has the byte's number. -/
theorem byteLoadZeroExtends : Obligations.ByteLoadZeroExtends := by
  refine ⟨fun rd rs => ?form, fun rd rs s hu => ?loads⟩
  case form => exact hasForm_of_encode (fun e => by simp [encode, prefixA, pageTop_append_codes]) rfl
  case loads =>
    have hnext : exec (.ldbInd rd rs) s =
        .next ((s.setReg rd ((s.byteAt .data (s.reg rs)).zeroExtend 16)).advance (.ldbInd rd rs)) :=
      conclude_next.mpr ⟨_, memRead8_usable hu, rfl⟩
    exact (does_of_exec_setReg hnext).mono fun t => And.imp_left fun hd => by
      rw [hd]
      exact BitVec.toNat_setWidth_of_le (by decide)

/-- Settles O25: both forms are a word store, to the address in `rd` and to `n16`. -/
theorem wordStoresWriteTheWord : Obligations.WordStoresWriteTheWord := by
  refine ⟨fun rd rs => ?indForm, fun rd rs s => ⟨does_wordStore rfl, exec_busError_of_odd rfl⟩, fun n16 r => ?absForm,
    fun n16 r s => ⟨does_wordStore rfl, exec_busError_of_odd rfl⟩⟩
  case indForm => exact hasForm_of_encode (fun e => by simp [encode, prefixA, pageTop_append_codes]) rfl
  case absForm => exact hasForm_of_encode (fun e => by simp [encode, group_append_code, immBytes_eq]) rfl

/-- Settles O26: the byte written is the low byte of `rs`. -/
theorem byteStoreWritesOneByte : Obligations.ByteStoreWritesOneByte := by
  refine ⟨fun rd rs => ?form, fun rd rs s hu => ?stores⟩
  case form => exact hasForm_of_encode (fun e => by simp [encode, prefixA, pageTop_append_codes]) rfl
  case stores =>
    obtain ⟨m, hm, hother, hat⟩ := memWrite8_usable (s.low rs) hu
    rw [State.low, Word.lo_eq_byte] at hat
    exact ⟨_, conclude_next.mpr ⟨_, hm, rfl⟩, hother, hat, rfl, rfl, fun _ _ => rfl, rfl, rfl, rfl, rfl, rfl⟩

/-- Settles O27: for a register but R7, PUSH is `Push16` of its value. -/
theorem pushStoresAtTheNewTop : Obligations.PushStoresAtTheNewTop := by
  refine ⟨fun r => ?form, fun r s hr => ⟨fun hu => ?pushes, fun hodd => ?odd⟩⟩
  case form => exact hasForm_of_encode (fun e => by simp [encode, group_append_code]) rfl
  case pushes =>
    obtain ⟨m, hm, hstores⟩ := push16_usable (s.reg r) hu
    have hregs : RegsKeptBut [.r7] s (s.setReg .r7 (s.sp - 2#16)) :=
      RegsKeptBut.setReg (fun _ _ => rfl) List.mem_cons_self _
    exact ⟨_, (execPush_of_ne hr s).trans (conclude_next.mpr ⟨_, hm, rfl⟩), State.reg_setReg_same s .r7 _, hstores, rfl, rfl,
      hregs, rfl, rfl, rfl, rfl, rfl⟩
  case odd => exact (execPush_of_ne hr s).trans (conclude_fault.mpr (push16_odd _ hodd))

/-- Settles O28: for a register but R7, POP is `Pop16` into it, which leaves the new `sp`. -/
theorem popReadsTheTop : Obligations.PopReadsTheTop := by
  refine ⟨fun r => ?form, fun r s hr => ⟨fun hu => ?pops, exec_busError_of_odd (by simp [wordAccess, hr])⟩⟩
  case form => exact hasForm_of_encode (fun e => by simp [encode, group_append_code]) rfl
  case pops =>
    obtain ⟨w, hw, hn⟩ := pop16_usable hu
    have hframe : Frame [r, .r7] s ((s.setReg .r7 (s.sp + 2#16)).setReg r w) :=
      ((Frame.refl _ s).setReg (by simp) _).setReg List.mem_cons_self w
    refine ⟨_, (execPop_of_ne hr s).trans (conclude_next.mpr ⟨_, hw, rfl⟩), ?_, ?_, rfl, rfl, hframe.advance _⟩
    · simpa using hn
    · simp [State.sp, State.reg_setReg_other _ hr.symm]

end Sys2Proof.Machine
end

section
/-! PROOFS. 16-bit arithmetic and logic (spec/41_alu16.md): what an instruction leaves that ends with a word result and flags,
the numbers and flags of R10 in the words of the statements, for any width, and from these the fourteen instructions. -/

namespace Sys2Proof.Machine

open Claims

/-! ## Results and flags -/

/-- Writing F stays in a frame where F bits 11:0 are written with their own value (R32). -/
theorem Claims.Frame.setF {ds : List Reg} {s t : State} (h : Frame ds s t) {f : FReg} (hf : f.reserved = s.f.reserved) :
    Frame ds s (t.setF f) := by
  obtain ⟨hregs, hmem, hcontrol, _⟩ := h
  exact ⟨hregs, hmem, hcontrol, hf⟩

/-- An instruction that ends with a word in a register, the flags and `pc <- npc` changes nothing else. -/
theorem does_of_exec_putWord {i : Instr} {s : State} {d : Reg} {res : Word} {f : FReg}
    (h : exec i s = .next (s.putWord i d res f)) (hf : f.reserved = s.f.reserved) :
    Does i s fun t => t.reg d = res ∧ t.f = f ∧ t.pc = nextPc i s ∧ Frame [d] s t :=
  ⟨_, h, State.reg_setReg_same s d res, rfl, rfl, (((Frame.refl _ s).setReg List.mem_cons_self res).setF hf).advance i⟩

/-- An instruction that ends with the flags and `pc <- npc` changes nothing else, and no register. -/
theorem does_of_exec_putFlags {i : Instr} {s : State} {f : FReg} (h : exec i s = .next (s.putFlags i f))
    (hf : f.reserved = s.f.reserved) : Does i s fun t => t.f = f ∧ t.pc = nextPc i s ∧ Frame [] s t :=
  ⟨_, h, rfl, rfl, ((Frame.refl _ s).setF hf).advance i⟩

/-! ## The arithmetic of R10 in numbers -/

theorem znOf_setZN (f : FReg) {w : Nat} (res : BitVec w) : ZNOf res (f.setZN res) :=
  ⟨f.setZN_z res, f.setZN_n res⟩

theorem isSum_addW {w : Nat} (a b : BitVec w) : IsSum a b (addW w a b).res :=
  BitVec.toNat_add a b

theorem isDiff_subW {w : Nat} (p : SubCarry) (a b : BitVec w) : IsDiff a b (subW p w a b).res := by
  have hb : b.toNat ≤ 2 ^ w := b.isLt.le
  calc ((a - b).toNat : Int) = ((2 ^ w - b.toNat + a.toNat : Nat) : Int) % (2 ^ w : Nat) := by
        rw [BitVec.toNat_sub, Int.natCast_emod]
    _ = ((a.toNat : Int) - b.toNat + (2 ^ w : Nat)) % (2 ^ w : Nat) := by
        congr 1
        omega
    _ = ((a.toNat : Int) - b.toNat) % (2 ^ w : Nat) := Int.add_emod_right _ _

/-- The flags of an addition are those of its sum. -/
theorem sumFlags_arith (f : FReg) {w : Nat} (a b : BitVec w) : SumFlags a b (addW w a b).res (f.arith (addW w a b)) :=
  ⟨znOf_setZN f _, addW_carry a b, addW_ovf a b⟩

/-- C of a subtraction, under either value of `SUB_CARRY`. -/
theorem borrowFlag_arith (f : FReg) (p : SubCarry) {w : Nat} (a b : BitVec w) :
    BorrowFlag p a b (f.arith (subW p w a b)) := by
  cases p with
  | borrow => exact ⟨fun _ => subW_carry_borrow a b, nofun⟩
  | notBorrow => exact ⟨nofun, fun _ => subW_carry_notBorrow a b⟩

/-- The flags of a subtraction are those of its difference. -/
theorem diffFlags_arith (f : FReg) (p : SubCarry) {w : Nat} (a b : BitVec w) :
    DiffFlags p a b (subW p w a b).res (f.arith (subW p w a b)) :=
  ⟨znOf_setZN f _, borrowFlag_arith f p a b, subW_ovf p a b⟩

/-- One more overflows from the greatest signed number alone (R141). -/
theorem addW_one_ovf {w : Nat} (hw : 1 < w) (a : BitVec w) : (addW w a 1#w).ovf = true ↔ a.toNat = 2 ^ (w - 1) - 1 := by
  have hpow : 2 ^ (w - 1) + 2 ^ (w - 1) = 2 ^ w := Nat.two_pow_pred_add_two_pow_pred (by omega)
  have hcast : (2 ^ (w - 1) : Int) = (2 ^ (w - 1) : Nat) := by norm_cast
  have ha := a.isLt
  rw [addW_ovf, BitVec.toInt_one hw, BitVec.toInt_eq_toNat_cond, hcast]
  split <;> omega

/-- One less overflows from the least signed number alone (R142). -/
theorem subW_one_ovf {w : Nat} (hw : 1 < w) (p : SubCarry) (a : BitVec w) :
    (subW p w a 1#w).ovf = true ↔ a.toNat = 2 ^ (w - 1) := by
  have hpow : 2 ^ (w - 1) + 2 ^ (w - 1) = 2 ^ w := Nat.two_pow_pred_add_two_pow_pred (by omega)
  have hcast : (2 ^ (w - 1) : Int) = (2 ^ (w - 1) : Nat) := by norm_cast
  have ha := a.isLt
  rw [subW_ovf, BitVec.toInt_one hw, BitVec.toInt_eq_toNat_cond, hcast]
  split <;> omega

/-! ## The families of instructions -/

theorem adds16_of_exec {i : Instr} {d : Reg} {a b : State → Word}
    (h : ∀ s, exec i s = .next (s.putWord i d (addW 16 (a s) (b s)).res (s.f.arith (addW 16 (a s) (b s))))) :
    Adds16 i d a b := by
  intro s
  refine (does_of_exec_putWord (h s) rfl).mono ?_
  rintro t ⟨hres, hf, hpc, hframe⟩
  rw [hres, hf]
  exact ⟨isSum_addW _ _, sumFlags_arith _ _ _, hpc, hframe⟩

theorem subs16_of_exec {i : Instr} {d : Reg} {a b : State → Word}
    (h : ∀ s, exec i s = .next (s.putWord i d (subW s.cfg.subCarry 16 (a s) (b s)).res
      (s.f.arith (subW s.cfg.subCarry 16 (a s) (b s))))) : Subs16 i d a b := by
  intro s
  refine (does_of_exec_putWord (h s) rfl).mono ?_
  rintro t ⟨hres, hf, hpc, hframe⟩
  rw [hres, hf]
  exact ⟨isDiff_subW _ _ _, diffFlags_arith _ _ _ _, hpc, hframe⟩

theorem compares_of_exec {w : Nat} {i : Instr} {a b : State → BitVec w}
    (h : ∀ s, exec i s = .next (s.putFlags i (s.f.arith (subW s.cfg.subCarry w (a s) (b s))))) : Compares i a b := by
  intro s
  refine (does_of_exec_putFlags (h s) rfl).mono ?_
  rintro t ⟨hf, hpc, hframe⟩
  rw [hf]
  exact ⟨⟨_, isDiff_subW _ _ _, diffFlags_arith _ _ _ _⟩, hpc, hframe⟩

/-- `op` on words writes `bitOp` of each pair of bits, at any position. -/
theorem logics16_of_exec {i : Instr} {op : Word → Word → Word} {bitOp : Bool → Bool → Bool} {d : Reg} {a b : State → Word}
    (hop : ∀ x y k, (op x y).getLsbD k = bitOp (x.getLsbD k) (y.getLsbD k))
    (h : ∀ s, exec i s = .next (s.putWord i d (op (a s) (b s)) (s.f.logic (op (a s) (b s))))) : Logics16 i bitOp d a b := by
  intro s
  refine (does_of_exec_putWord (h s) rfl).mono ?_
  rintro t ⟨hres, hf, hpc, hframe⟩
  rw [hres, hf]
  exact ⟨fun k _ => hop _ _ k, znOf_setZN _ _, rfl, rfl, hpc, hframe⟩

/-- A result by `FReg.count`: Z, N and V from it, and C kept. -/
theorem does_count {i : Instr} {s : State} {d : Reg} {o : AluOut 16}
    (h : exec i s = .next (s.putWord i d o.res (s.f.count o))) :
    Does i s fun t => t.reg d = o.res ∧ ZNOf (t.reg d) t.f ∧ t.f.v = o.ovf ∧ t.f.c = s.f.c ∧ t.pc = nextPc i s ∧
      Frame [d] s t := by
  refine (does_of_exec_putWord h rfl).mono ?_
  rintro t ⟨hres, hf, hpc, hframe⟩
  rw [hres, hf]
  exact ⟨rfl, znOf_setZN s.f o.res, rfl, rfl, hpc, hframe⟩

/-! ## The bytes of the two forms -/

/-- A form of one byte: the group and a register (R84, R85). -/
theorem hasForm_reg {i : Instr} {r : Reg} (g : BitVec 5) {met notMet : Nat} (hb : ∀ e, encode e i = [g ++ r.code])
    (hc : instrCycles i = ⟨met, notMet⟩) : HasForm i (fun _ => [byte (8 * g.toNat + regNum r)]) met notMet :=
  hasForm_of_encode (fun e => by rw [hb, group_append_code]) hc

/-- A form of three bytes: the group and a register, and an immediate in the order `ENDIAN` (R84, R85). -/
theorem hasForm_regImm16 {i : Instr} {r : Reg} {n16 : Word} (g : BitVec 5) {met notMet : Nat}
    (hb : ∀ e, encode e i = (g ++ r.code) :: immBytes e n16) (hc : instrCycles i = ⟨met, notMet⟩) :
    HasForm i (fun e => [byte (8 * g.toNat + regNum r), firstByte e n16, secondByte e n16]) met notMet :=
  hasForm_of_encode (fun e => by rw [hb, group_append_code, immBytes_eq]) hc

/-! ## The statements -/

/-- Settles O30: both forms put the sum of `addW` and its flags. -/
theorem additionsOfWords : Obligations.AdditionsOfWords :=
  ⟨fun _ => ⟨hasForm_reg 0b01000#5 (fun _ => rfl) rfl, adds16_of_exec fun _ => rfl⟩,
    fun _ _ => ⟨hasForm_regImm16 0b10000#5 (fun _ => rfl) rfl, adds16_of_exec fun _ => rfl⟩⟩

/-- Settles O31: both forms put the difference of `subW` and its flags. -/
theorem subtractionsOfWords : Obligations.SubtractionsOfWords :=
  ⟨fun _ => ⟨hasForm_reg 0b01001#5 (fun _ => rfl) rfl, subs16_of_exec fun _ => rfl⟩,
    fun _ _ => ⟨hasForm_regImm16 0b10001#5 (fun _ => rfl) rfl, subs16_of_exec fun _ => rfl⟩⟩

/-- Settles O32: both forms put the flags of `subW` alone. -/
theorem comparisonsOfWords : Obligations.ComparisonsOfWords :=
  ⟨fun _ => ⟨hasForm_reg 0b01101#5 (fun _ => rfl) rfl, compares_of_exec fun _ => rfl⟩,
    fun _ _ => ⟨hasForm_regImm16 0b10101#5 (fun _ => rfl) rfl, compares_of_exec fun _ => rfl⟩⟩

/-- Settles O33: the word operations of the six forms act on each bit by itself. -/
theorem logicOfWords : Obligations.LogicOfWords := by
  refine ⟨fun rs => ?regForms, fun r n16 => ?immForms, fun rs => ?regMeanings, fun r n16 => ?immMeanings⟩
  case regForms =>
    exact ⟨hasForm_reg 0b01010#5 (fun _ => rfl) rfl,
      hasForm_reg 0b01011#5 (fun _ => rfl) rfl,
      hasForm_reg 0b01100#5 (fun _ => rfl) rfl⟩
  case immForms =>
    exact ⟨hasForm_regImm16 0b10010#5 (fun _ => rfl) rfl,
      hasForm_regImm16 0b10011#5 (fun _ => rfl) rfl,
      hasForm_regImm16 0b10100#5 (fun _ => rfl) rfl⟩
  case regMeanings =>
    exact ⟨logics16_of_exec (fun _ _ _ => BitVec.getLsbD_and) fun _ => rfl,
      logics16_of_exec (fun _ _ _ => BitVec.getLsbD_or) fun _ => rfl,
      logics16_of_exec (fun _ _ _ => BitVec.getLsbD_xor) fun _ => rfl⟩
  case immMeanings =>
    exact ⟨logics16_of_exec (fun _ _ _ => BitVec.getLsbD_and) fun _ => rfl,
      logics16_of_exec (fun _ _ _ => BitVec.getLsbD_or) fun _ => rfl,
      logics16_of_exec (fun _ _ _ => BitVec.getLsbD_xor) fun _ => rfl⟩

/-- Settles O34: INC puts the sum with 1 and DEC the difference, and each overflows from one number alone. -/
theorem incrementAndDecrementOfWords : Obligations.IncrementAndDecrementOfWords := by
  refine ⟨fun r => ⟨hasForm_reg 0b01110#5 (fun _ => rfl) rfl, hasForm_reg 0b01111#5 (fun _ => rfl) rfl⟩,
    fun r s => ⟨?inc, ?dec⟩⟩
  case inc =>
    refine (does_count (o := addW 16 (s.reg r) 1#16) rfl).mono ?_
    rintro t ⟨hres, hzn, hv, hrest⟩
    exact ⟨hres ▸ isSum_addW _ _, hzn, hv ▸ addW_one_ovf (by decide) _, hrest⟩
  case dec =>
    refine (does_count (o := subW s.cfg.subCarry 16 (s.reg r) 1#16) rfl).mono ?_
    rintro t ⟨hres, hzn, hv, hrest⟩
    exact ⟨hres ▸ isDiff_subW _ _ _, hzn, hv ▸ subW_one_ovf (by decide) _ _, hrest⟩

end Sys2Proof.Machine
end

section
/-! PROOFS. 8-bit arithmetic and logic (spec/42_alu8.md): what an instruction leaves that ends with a byte result and flags, and
from it the ten instructions. The numbers and flags of R10 are those of the 16-bit instructions, at width 8. -/

namespace Sys2Proof.Machine

open Claims

/-! ## Byte results -/

/-- An instruction that ends with a byte in the low byte of a register, the flags and `pc <- npc` changes nothing else; the
register's upper byte is kept (R24, R150). -/
theorem does_of_exec_putLow {i : Instr} {s : State} {d : Reg} {res : Byte} {f : FReg}
    (h : exec i s = .next (s.putLow i d res f)) (hf : f.reserved = s.f.reserved) :
    Does i s fun t => t.low d = res ∧ UpperKept d s t ∧ t.f = f ∧ t.pc = nextPc i s ∧ Frame [d] s t :=
  ⟨_, h, State.low_setLow s d res, State.upper_setLow s d res, rfl, rfl,
    (((Frame.refl _ s).setReg List.mem_cons_self (Word.hi (s.reg d) ++ res)).setF hf).advance i⟩

/-! ## The families of instructions -/

theorem adds8_of_exec {i : Instr} {d : Reg} {a b : State → Byte}
    (h : ∀ s, exec i s = .next (s.putLow i d (addW 8 (a s) (b s)).res (s.f.arith (addW 8 (a s) (b s))))) :
    Adds8 i d a b := by
  intro s
  refine (does_of_exec_putLow (h s) rfl).mono ?_
  rintro t ⟨hres, hupper, hf, hpc, hframe⟩
  rw [hres, hf]
  exact ⟨isSum_addW _ _, hupper, sumFlags_arith _ _ _, hpc, hframe⟩

theorem subs8_of_exec {i : Instr} {d : Reg} {a b : State → Byte}
    (h : ∀ s, exec i s = .next (s.putLow i d (subW s.cfg.subCarry 8 (a s) (b s)).res
      (s.f.arith (subW s.cfg.subCarry 8 (a s) (b s))))) : Subs8 i d a b := by
  intro s
  refine (does_of_exec_putLow (h s) rfl).mono ?_
  rintro t ⟨hres, hupper, hf, hpc, hframe⟩
  rw [hres, hf]
  exact ⟨isDiff_subW _ _ _, hupper, diffFlags_arith _ _ _ _, hpc, hframe⟩

/-- `op` on bytes writes `bitOp` of each pair of bits, at any position. -/
theorem logics8_of_exec {i : Instr} {op : Byte → Byte → Byte} {bitOp : Bool → Bool → Bool} {d : Reg} {a b : State → Byte}
    (hop : ∀ x y k, (op x y).getLsbD k = bitOp (x.getLsbD k) (y.getLsbD k))
    (h : ∀ s, exec i s = .next (s.putLow i d (op (a s) (b s)) (s.f.logic (op (a s) (b s))))) : Logics8 i bitOp d a b := by
  intro s
  refine (does_of_exec_putLow (h s) rfl).mono ?_
  rintro t ⟨hres, hupper, hf, hpc, hframe⟩
  rw [hres, hf]
  exact ⟨fun k _ => hop _ _ k, hupper, znOf_setZN _ _, rfl, rfl, hpc, hframe⟩

/-- The byte twin of `does_count`: the upper byte is kept, and so is C. -/
theorem does_countLow {i : Instr} {s : State} {d : Reg} {o : AluOut 8}
    (h : exec i s = .next (s.putLow i d o.res (s.f.count o))) :
    Does i s fun t => t.low d = o.res ∧ UpperKept d s t ∧ ZNOf (t.low d) t.f ∧ t.f.v = o.ovf ∧ t.f.c = s.f.c ∧
      t.pc = nextPc i s ∧ Frame [d] s t := by
  refine (does_of_exec_putLow h rfl).mono ?_
  rintro t ⟨hres, hupper, hf, hpc, hframe⟩
  rw [hres, hf]
  exact ⟨rfl, hupper, znOf_setZN s.f o.res, rfl, rfl, hpc, hframe⟩

/-! ## The bytes of the two forms -/

/-- A form of page B with one register: the prefix, then the five bits of the operation and the register (R84, R87). -/
theorem hasForm_pageBReg {i : Instr} {r : Reg} (g : BitVec 5) {met notMet : Nat}
    (hb : ∀ e, encode e i = [prefixB, g ++ r.code]) (hc : instrCycles i = ⟨met, notMet⟩) :
    HasForm i (fun _ => [0x0F#8, byte (8 * g.toNat + regNum r)]) met notMet :=
  hasForm_of_encode (fun e => by rw [hb, group_append_code, prefixB]) hc

/-- A form of two bytes: the group and a register, and an immediate byte (R84, R85). -/
theorem hasForm_regImm8 {i : Instr} {r : Reg} {n8 : Byte} (g : BitVec 5) {met notMet : Nat}
    (hb : ∀ e, encode e i = [g ++ r.code, n8]) (hc : instrCycles i = ⟨met, notMet⟩) :
    HasForm i (fun _ => [byte (8 * g.toNat + regNum r), n8]) met notMet :=
  hasForm_of_encode (fun e => by rw [hb, group_append_code]) hc

/-! ## The statements -/

/-- Settles O35: both forms put the sum of `addW` in the low byte, and its flags. -/
theorem additionsOfBytes : Obligations.AdditionsOfBytes :=
  ⟨fun _ => ⟨hasForm_pageBReg 0b01000#5 (fun _ => rfl) rfl, adds8_of_exec fun _ => rfl⟩,
    fun _ _ => ⟨hasForm_regImm8 0b10110#5 (fun _ => rfl) rfl, adds8_of_exec fun _ => rfl⟩⟩

/-- Settles O36: SUB.b puts the difference of `subW` in the low byte, and its flags; both forms of CMP.b put the flags alone. -/
theorem subtractionAndComparisonsOfBytes : Obligations.SubtractionAndComparisonsOfBytes :=
  ⟨fun _ => ⟨hasForm_pageBReg 0b01001#5 (fun _ => rfl) rfl, subs8_of_exec fun _ => rfl⟩,
    fun _ => ⟨hasForm_pageBReg 0b01101#5 (fun _ => rfl) rfl, compares_of_exec fun _ => rfl⟩,
    fun _ _ => ⟨hasForm_regImm8 0b10111#5 (fun _ => rfl) rfl, compares_of_exec fun _ => rfl⟩⟩

/-- Settles O37: the byte operations of the three forms act on each bit by itself. -/
theorem logicOfBytes : Obligations.LogicOfBytes := by
  refine ⟨fun rs => ?forms, fun rs => ?meanings⟩
  case forms =>
    exact ⟨hasForm_pageBReg 0b01010#5 (fun _ => rfl) rfl,
      hasForm_pageBReg 0b01011#5 (fun _ => rfl) rfl,
      hasForm_pageBReg 0b01100#5 (fun _ => rfl) rfl⟩
  case meanings =>
    exact ⟨logics8_of_exec (fun _ _ _ => BitVec.getLsbD_and) fun _ => rfl,
      logics8_of_exec (fun _ _ _ => BitVec.getLsbD_or) fun _ => rfl,
      logics8_of_exec (fun _ _ _ => BitVec.getLsbD_xor) fun _ => rfl⟩

/-- Settles O38: INC.b puts the sum with 1 in the low byte and DEC.b the difference; each overflows from one number alone. -/
theorem incrementAndDecrementOfBytes : Obligations.IncrementAndDecrementOfBytes := by
  refine ⟨fun r => ⟨hasForm_pageBReg 0b01110#5 (fun _ => rfl) rfl, hasForm_pageBReg 0b01111#5 (fun _ => rfl) rfl⟩,
    fun r s => ⟨?inc, ?dec⟩⟩
  case inc =>
    refine (does_countLow (o := addW 8 (s.low r) 1#8) rfl).mono ?_
    rintro t ⟨hres, hupper, hzn, hv, hrest⟩
    exact ⟨hres ▸ isSum_addW _ _, hupper, hzn, hv ▸ addW_one_ovf (by decide) _, hrest⟩
  case dec =>
    refine (does_countLow (o := subW s.cfg.subCarry 8 (s.low r) 1#8) rfl).mono ?_
    rintro t ⟨hres, hupper, hzn, hv, hrest⟩
    exact ⟨hres ▸ isDiff_subW _ _ _, hupper, hzn, hv ▸ subW_one_ovf (by decide) _ _, hrest⟩

end Sys2Proof.Machine
end

section
/-! PROOFS. The shifts, the rotates and the bit test (spec/43_shift_bit.md): what an instruction leaves that ends with the
outcome of a shift, the ring of 17 bits that a rotate turns, and the bit that BIT tests. -/

namespace Sys2Proof.Machine

open Claims

/-! ## Shifts -/

theorem carryIn_eq_toNat (s : State) : carryIn s = s.f.c.toNat := by
  unfold carryIn
  cases s.f.c <;> rfl

/-- Z, N and V under each value of `SHIFT_ZNV` that fixes them (R170). -/
theorem shiftZNVKept_of_shifted {s t : State} {r : Reg} {o : ShiftOut} (hres : t.reg r = o.res)
    (hf : t.f = s.f.shifted s.cfg.shiftZNV s.tick o) : ShiftZNVKept s t r := by
  refine ⟨fun hp => ?unchanged, fun hp => ?fromResult⟩
  case unchanged =>
    rw [hf, hp]
    exact ⟨rfl, rfl, rfl⟩
  case fromResult =>
    rw [hf, hp, hres]
    exact ⟨znOf_setZN s.f o.res, rfl⟩

/-- An instruction that ends with the outcome of a shift leaves its number, and in C the bit moved out. -/
theorem shifts_of_exec {i : Instr} {r : Reg} {o : State → ShiftOut} {res : State → Nat} {out : State → Prop}
    (h : ∀ s, exec i s = .next (s.putShift i r (o s))) (hres : ∀ s, (o s).res.toNat = res s)
    (hout : ∀ s, (o s).out = true ↔ out s) : Shifts i r res out := by
  intro s
  refine (does_of_exec_putWord (h s) (FReg.shifted_reserved _ _ _ _)).mono ?_
  rintro t ⟨hreg, hf, hpc, hframe⟩
  refine ⟨?result, ?carry, shiftZNVKept_of_shifted hreg hf, hpc, hframe⟩
  case result => rw [hreg, hres]
  case carry => rw [hf, FReg.shifted_c, hout]

/-! ## The ring that a rotate turns -/

theorem rotateLeft_rotateLeft {w : Nat} (x : BitVec w) (m n : Nat) :
    (x.rotateLeft m).rotateLeft n = x.rotateLeft (m + n) := by
  refine BitVec.eq_of_getMsbD_eq fun k hk => ?_
  have hlt : (n + k) % w < w := Nat.mod_lt _ (by omega)
  simp only [BitVec.getMsbD_rotateLeft, hk, hlt, decide_true, Bool.true_and, Nat.add_mod_mod, Nat.add_assoc]

theorem rotateLeft_zero {w : Nat} (x : BitVec w) : x.rotateLeft 0 = x := by
  refine BitVec.eq_of_getMsbD_eq fun k hk => ?_
  simp only [BitVec.getMsbD_rotateLeft, hk, decide_true, Bool.true_and, Nat.zero_add, Nat.mod_eq_of_lt hk]

theorem rotateLeft_width {w : Nat} (x : BitVec w) : x.rotateLeft w = x := by
  rw [← BitVec.rotateLeft_mod_eq_rotateLeft, Nat.mod_self, rotateLeft_zero]

/-- C above the bits of a word: the ring of 17 bits that ROL and ROR turn (R173, R174). -/
def carryRing (c : Bool) (v : Word) : BitVec 17 := BitVec.cons c v

theorem carryRing_inj {c d : Bool} {v w : Word} : carryRing c v = carryRing d w ↔ v = w ∧ c = d := by
  constructor
  case mp =>
    intro h
    have hv := congrArg (BitVec.setWidth 16) h
    have hc := congrArg BitVec.msb h
    simp only [carryRing, BitVec.setWidth_cons, BitVec.msb_cons] at hv hc
    exact ⟨hv, hc⟩
  case mpr =>
    rintro ⟨rfl, rfl⟩
    rfl

/-- Bit 0 is the bit that entered; every other one was a place lower (R171, R173). -/
theorem shiftLeft_res_getLsbD (v : Word) (inn : Bool) {k : Nat} (hk : k < 16) :
    (shiftLeft v inn).res.getLsbD k = if k = 0 then inn else v.getLsbD (k - 1) := by
  have h := BitVec.getLsbD_append (x := v.extractLsb' 0 15) (y := BitVec.ofBool inn) (i := k)
  refine h.trans ?_
  cases k with
  | zero => simp
  | succ k => simp [show k < 15 by omega]

/-- Bit 15 is the bit that entered; every other one was a place higher (R172, R174). -/
theorem shiftRight_res_getLsbD (v : Word) (inn : Bool) {k : Nat} (hk : k < 16) :
    (shiftRight v inn).res.getLsbD k = if k = 15 then inn else v.getLsbD (k + 1) := by
  have h := BitVec.getLsbD_append (x := BitVec.ofBool inn) (y := v.extractLsb' 1 15) (i := k)
  refine h.trans ?_
  obtain hlt | rfl : k < 15 ∨ k = 15 := by omega
  · simp [hlt, hlt.ne, Nat.add_comm]
  · simp

/-- A shift to the left that takes C in turns the ring by one place. -/
theorem carryRing_shiftLeft (c : Bool) (v : Word) :
    carryRing (shiftLeft v c).out (shiftLeft v c).res = (carryRing c v).rotateLeft 1 := by
  refine BitVec.eq_of_getLsbD_eq fun k hk => ?_
  simp only [carryRing, BitVec.getLsbD_cons, BitVec.getLsbD_rotateLeft_of_le (show 1 < 16 + 1 by decide)]
  obtain hlt | rfl : k < 16 ∨ k = 16 := by omega
  · rw [shiftLeft_res_getLsbD v c hlt]
    grind
  · simp [shiftLeft]

/-- A shift to the right that takes C in turns the ring back by one place, which is on by the 16 others. -/
theorem carryRing_shiftRight (c : Bool) (v : Word) :
    carryRing (shiftRight v c).out (shiftRight v c).res = (carryRing c v).rotateLeft 16 := by
  refine BitVec.eq_of_getLsbD_eq fun k hk => ?_
  simp only [carryRing, BitVec.getLsbD_cons, BitVec.getLsbD_rotateLeft_of_le (show 16 < 16 + 1 by decide)]
  obtain hlt | rfl : k < 16 ∨ k = 16 := by omega
  · rw [shiftRight_res_getLsbD v c hlt]
    grind
  · simp [shiftRight]

/-- An instruction that ends with the outcome of a shift leaves it in the ring, whatever `SHIFT_ZNV` is (R170). -/
theorem carryRing_of_exec_putShift {i : Instr} {r : Reg} {s t : State} {o : ShiftOut} (ho : exec i s = .next (s.putShift i r o))
    (h : exec i s = .next t) : carryRing t.f.c (t.reg r) = carryRing o.out o.res := by
  cases ho.symm.trans h
  exact carryRing_inj.mpr ⟨State.reg_setReg_same s r o.res, FReg.shifted_c _ _ _ _⟩

/-- ROL turns the ring by one place (R173). -/
theorem exec_rol_carryRing {r : Reg} {s t : State} (h : exec (.rol r) s = .next t) :
    carryRing t.f.c (t.reg r) = (carryRing s.f.c (s.reg r)).rotateLeft 1 :=
  (carryRing_of_exec_putShift rfl h).trans (carryRing_shiftLeft _ _)

/-- ROR turns the ring back by one place (R174). -/
theorem exec_ror_carryRing {r : Reg} {s t : State} (h : exec (.ror r) s = .next t) :
    carryRing t.f.c (t.reg r) = (carryRing s.f.c (s.reg r)).rotateLeft 16 :=
  (carryRing_of_exec_putShift rfl h).trans (carryRing_shiftRight _ _)

/-- Any number of ROLs complete, and turn the ring by as many places. -/
theorem exists_rotatesLeft (r : Reg) (k : Nat) (s : State) :
    ∃ t, RotatesLeft r k s t ∧ carryRing t.f.c (t.reg r) = (carryRing s.f.c (s.reg r)).rotateLeft k := by
  induction k generalizing s with
  | zero => exact ⟨s, rfl, (rotateLeft_zero _).symm⟩
  | succ k ih =>
    obtain ⟨u, hu⟩ : ∃ u, exec (.rol r) s = .next u := ⟨_, rfl⟩
    obtain ⟨t, ht, hring⟩ := ih u
    refine ⟨t, ⟨u, hu, ht⟩, ?_⟩
    rw [hring, exec_rol_carryRing hu, rotateLeft_rotateLeft, Nat.add_comm]

/-! ## The bit test -/

theorem getLsbD_eq_false_iff {w : Nat} (v : BitVec w) (k : Nat) : v.getLsbD k = false ↔ v.toNat / 2 ^ k % 2 = 0 := by
  rw [← BitVec.testBit_toNat, Nat.testBit_eq_decide_div_mod_eq]
  simp

/-- The bit tested, in numbers: at an index up to 15, and above it by `BIT_INDEX_POLICY` (R175, R92). -/
theorem bitTested_eq_false_iff {p : BitIndexPolicy} {v : Word} {n8 : Byte} {tested : Bool}
    (h : bitTested p v n8 = some tested) :
    (n8.toNat ≤ 15 → (tested = false ↔ v.toNat / 2 ^ n8.toNat % 2 = 0)) ∧
    (15 < n8.toNat → p = .mod16 → (tested = false ↔ v.toNat / 2 ^ (n8.toNat % 16) % 2 = 0)) ∧
    (15 < n8.toNat → p = .zero → tested = false) := by
  unfold bitTested at h
  split at h
  case isTrue hle =>
    cases h
    exact ⟨fun _ => getLsbD_eq_false_iff v _, by omega, by omega⟩
  case isFalse hgt =>
    split at h <;> cases h
    · exact ⟨fun hle => absurd hle hgt, fun _ _ => getLsbD_eq_false_iff v _, nofun⟩
    · exact ⟨fun hle => absurd hle hgt, nofun, fun _ _ => rfl⟩

theorem exists_bitTested {p : BitIndexPolicy} {n8 : Byte} (v : Word) (h : n8.toNat ≤ 15 ∨ p ≠ .refuse) :
    ∃ tested, bitTested p v n8 = some tested := by
  unfold bitTested
  split
  case isTrue => exact ⟨_, rfl⟩
  case isFalse hgt =>
    cases p with
    | refuse => exact absurd rfl (h.resolve_left hgt)
    | mod16 | zero => exact ⟨_, rfl⟩

theorem exec_bit_of_bitTested {r : Reg} {n8 : Byte} {s : State} {tested : Bool}
    (h : bitTested s.cfg.bitIndex (s.reg r) n8 = some tested) :
    exec (.bit r n8) s = .next (s.putFlags (.bit r n8) (s.f.bitTest tested)) := by
  change execBit r n8 s = _
  simp only [execBit, h]

/-! ## The statements -/

/-- Settles O39: each form puts the outcome of a shift by one, SHL and SHR with 0 entering and ROL and ROR with C. -/
theorem shiftsAndRotates : Obligations.ShiftsAndRotates := by
  refine fun r => ⟨hasForm_reg 0b11000#5 (fun _ => rfl) rfl, hasForm_reg 0b11001#5 (fun _ => rfl) rfl,
    hasForm_reg 0b11010#5 (fun _ => rfl) rfl, hasForm_reg 0b11011#5 (fun _ => rfl) rfl, ?shl, ?shr, ?rol, ?ror⟩
  case shl => exact shifts_of_exec (fun _ => rfl) (fun _ => shiftLeft_res_toNat _ _) fun _ => shiftLeft_out _ _
  case shr => exact shifts_of_exec (fun _ => rfl) (fun _ => shiftRight_res_toNat _ _) fun _ => shiftRight_out _ _
  case rol =>
    exact shifts_of_exec (fun _ => rfl) (fun s => carryIn_eq_toNat s ▸ shiftLeft_res_toNat _ _) fun _ => shiftLeft_out _ _
  case ror =>
    exact shifts_of_exec (fun _ => rfl) (fun s => carryIn_eq_toNat s ▸ shiftRight_res_toNat _ _) fun _ => shiftRight_out _ _

/-- Settles O40: ROL turns the ring by 1 place of 17 and ROR by 16, in either order all the way round. -/
theorem rotatesUndoEachOther : Obligations.RotatesUndoEachOther := by
  refine fun r s t u => ⟨fun ht hu => ?rolRor, fun ht hu => ?rorRol⟩
  case rolRor =>
    rw [← carryRing_inj, exec_ror_carryRing hu, exec_rol_carryRing ht, rotateLeft_rotateLeft, rotateLeft_width]
  case rorRol =>
    rw [← carryRing_inj, exec_rol_carryRing hu, exec_ror_carryRing ht, rotateLeft_rotateLeft, rotateLeft_width]

/-- Settles O41: the ring has 17 places. -/
theorem seventeenRotationsRestore : Obligations.SeventeenRotationsRestore := by
  intro r s
  obtain ⟨t, ht, hring⟩ := exists_rotatesLeft r 17 s
  rw [rotateLeft_width, carryRing_inj] at hring
  exact ⟨t, ht, hring⟩

/-- Settles O42: BIT puts the flags alone, and of these it writes Z, with the complement of the bit tested. -/
theorem bitTestSetsZero : Obligations.BitTestSetsZero := by
  refine ⟨fun r n8 => hasForm_regImm8 0b11100#5 (fun _ => rfl) rfl, fun r n8 s hindex => ?_⟩
  obtain ⟨tested, ht⟩ := exists_bitTested (s.reg r) hindex
  have hz : (s.f.bitTest tested).z = true ↔ tested = false := by simp [FReg.bitTest]
  obtain ⟨hbit, hmod16, hzero⟩ := bitTested_eq_false_iff ht
  refine (does_of_exec_putFlags (exec_bit_of_bitTested ht) rfl).mono ?_
  rintro t ⟨hf, hpc, hframe⟩
  rw [hf, hz]
  exact ⟨hbit, hmod16, hzero, rfl, rfl, rfl, hpc, hframe⟩

end Sys2Proof.Machine
end

section
/-! PROOFS. Control flow (spec/44_control_flow.md): what a condition reads, the bytes of the conditional forms, and what a jump,
a call and a return leave, from which the statements on the single instructions follow. -/

namespace Sys2Proof.Machine

open Claims

/-! ## Conditions -/

/-- A condition wants its flag set or clear (R180). -/
theorem holds_iff (f : FReg) (cc : Cond) : f.holds cc = true ↔ CondHolds f cc := by
  cases cc with
  | z | c | n | v => exact Iff.rfl
  | nz | nc | nn | nv => exact .of_eq (Bool.not_eq_true' _)

theorem holds_eq_false_iff (f : FReg) (cc : Cond) : f.holds cc = false ↔ ¬ CondHolds f cc := by
  rw [← holds_iff, Bool.not_eq_true]

/-! ## The bytes of the conditional forms -/

/-- A 3-bit field names a register and a condition by the same number (R88, R89). -/
theorem regNum_ofCode_code (cc : Cond) : regNum (Reg.ofCode cc.code) = condNum cc := by
  cases cc <;> rfl

/-- A first byte with a condition in its low field (R85). -/
theorem group_append_condCode (g : BitVec 5) (cc : Cond) : (g ++ cc.code : Byte) = byte (8 * g.toNat + condNum cc) := by
  rw [← regNum_ofCode_code, ← group_append_code, Reg.code_ofCode]

/-- A form of three bytes: the group and a condition, and an immediate in the order `ENDIAN` (R84, R85). -/
theorem hasForm_condImm16 {i : Instr} {cc : Cond} {n16 : Word} (g : BitVec 5) {met notMet : Nat}
    (hb : ∀ e, encode e i = (g ++ cc.code) :: immBytes e n16) (hc : instrCycles i = ⟨met, notMet⟩) :
    HasForm i (fun e => [byte (8 * g.toNat + condNum cc), firstByte e n16, secondByte e n16]) met notMet :=
  hasForm_of_encode (fun e => by rw [hb, group_append_condCode, immBytes_eq]) hc

theorem instrCycles_jcc (cc : Cond) (n16 : Word) : instrCycles (Instr.jcc cc n16) = ⟨12, 8⟩ := by
  cases cc <;> rfl

theorem instrCycles_jrcc (cc : Cond) (n8 : Byte) : instrCycles (Instr.jrcc cc n8) = ⟨8, 4⟩ := by
  cases cc <;> rfl

theorem instrCycles_callcc (cc : Cond) (n16 : Word) : instrCycles (Instr.callcc cc n16) = ⟨20, 8⟩ := by
  cases cc <;> rfl

/-! ## The conditional forms by their condition -/

theorem exec_jcc (cc : Cond) (n16 : Word) (s : State) :
    exec (Instr.jcc cc n16) s = s.jumpIf cc (Instr.jcc cc n16) n16 := by
  cases cc <;> rfl

theorem exec_jrcc (cc : Cond) (n8 : Byte) (s : State) :
    exec (Instr.jrcc cc n8) s = s.jumpIf cc (Instr.jrcc cc n8) (s.relTarget (Instr.jrcc cc n8) n8) := by
  cases cc <;> rfl

theorem exec_callcc (cc : Cond) (n16 : Word) (s : State) :
    exec (Instr.callcc cc n16) s = s.callIf cc (Instr.callcc cc n16) n16 := by
  cases cc <;> rfl

/-! ## Jumps -/

/-- An instruction that ends with `pc` alone written changes nothing else. -/
theorem goesTo_of_exec_setPc {i : Instr} {s : State} {target : Word} (h : exec i s = .next (s.setPc target)) :
    GoesTo i s target :=
  ⟨_, h, rfl, rfl, Frame.refl [] s⟩

theorem goesTo_of_jumpIf_taken {i : Instr} {cc : Cond} {s : State} {target : Word} (h : exec i s = s.jumpIf cc i target)
    (hc : CondHolds s.f cc) : GoesTo i s target :=
  goesTo_of_exec_setPc (h.trans (jumpIf_taken ((holds_iff _ _).mpr hc)))

theorem goesTo_of_jumpIf_notTaken {i : Instr} {cc : Cond} {s : State} {target : Word} (h : exec i s = s.jumpIf cc i target)
    (hc : ¬ CondHolds s.f cc) : GoesTo i s (nextPc i s) :=
  goesTo_of_exec_setPc (h.trans (jumpIf_notTaken ((holds_eq_false_iff _ _).mpr hc)))

/-- Adding a sign-extended byte adds its signed number, modulo 2^16 (R183). -/
theorem isRelative_add_signExtend (base : Word) (n8 : Byte) : IsRelative (base + n8.signExtend 16) base n8 := by
  have hoffset : ((n8.signExtend 16).toNat : Int) = n8.toInt % 65536 := by
    rw [BitVec.signExtend, BitVec.toNat_ofInt]
    omega
  rw [IsRelative, BitVec.toNat_add]
  omega

/-! ## Calls -/

/-- A call on a usable stack (R186): the push of the address after the instruction, and the target in `pc`. -/
theorem callsTo_of_exec_callTo {i : Instr} {s : State} {target : Word} (h : exec i s = s.callTo i target)
    (hu : UsableWord s (s.sp - 2#16)) : CallsTo i s (nextPc i s) target := by
  obtain ⟨m, hm, hstores⟩ := push16_usable (s.npc i) hu
  have hregs : RegsKeptBut [.r7] s (s.setReg .r7 (s.sp - 2#16)) :=
    RegsKeptBut.setReg (fun _ _ => rfl) List.mem_cons_self _
  exact ⟨_, h.trans (callTo_next.mpr ⟨_, hm, rfl⟩), rfl, State.reg_setReg_same s .r7 _, hstores, rfl, hregs, rfl, rfl, rfl,
    rfl, rfl⟩

/-- A call on an odd stack is the Bus Error of its push (R53, R60). -/
theorem exec_callTo_odd {i : Instr} {s : State} {target : Word} (h : exec i s = s.callTo i target)
    (hodd : s.sp.toNat % 2 = 1) : exec i s = .fault (.busError (s.sp - 2#16) s.pc) :=
  h.trans (conclude_fault.mpr (push16_odd _ hodd))

theorem exec_callcc_taken {cc : Cond} {s : State} (n16 : Word) (hc : CondHolds s.f cc) :
    exec (Instr.callcc cc n16) s = s.callTo (Instr.callcc cc n16) n16 :=
  (exec_callcc cc n16 s).trans (callIf_taken ((holds_iff _ _).mpr hc))

theorem exec_callcc_notTaken {cc : Cond} {s : State} (n16 : Word) (hc : ¬ CondHolds s.f cc) :
    exec (Instr.callcc cc n16) s = .next (s.advance (Instr.callcc cc n16)) :=
  (exec_callcc cc n16 s).trans (callIf_notTaken ((holds_eq_false_iff _ _).mpr hc))

/-! ## The statements -/

/-- Settles O43: both forms write `pc` alone, with the immediate and with the register's value. -/
theorem jumpsGoToTheirTarget : Obligations.JumpsGoToTheirTarget := by
  refine ⟨fun n16 => ?immForm, fun n16 s => goesTo_of_exec_setPc rfl, fun r => hasForm_reg 0b00111#5 (fun _ => rfl) rfl,
    fun r s => goesTo_of_exec_setPc rfl⟩
  case immForm => exact hasForm_of_encode (fun e => by rw [encode, immBytes_eq]) rfl

/-- Settles O44: the target is the address after the JR with the sign-extended offset added. -/
theorem relativeJumpAddsSignedOffset : Obligations.RelativeJumpAddsSignedOffset :=
  ⟨fun _ => hasForm_of_encode (fun _ => rfl) rfl,
    fun n8 s => ⟨s.relTarget (.jr n8) n8, isRelative_add_signExtend _ _, goesTo_of_exec_setPc rfl⟩⟩

/-- Settles O45: each mnemonic is `jumpIf` of its condition and its immediate. -/
theorem conditionalJumps : Obligations.ConditionalJumps :=
  ⟨fun cc n16 => hasForm_condImm16 0b11101#5 (encode_jcc · cc n16) (instrCycles_jcc cc n16),
    fun cc n16 s => ⟨goesTo_of_jumpIf_taken (exec_jcc cc n16 s), goesTo_of_jumpIf_notTaken (exec_jcc cc n16 s)⟩⟩

/-- Settles O46: each mnemonic is `jumpIf` of its condition and the target of a relative jump. -/
theorem conditionalRelativeJumps : Obligations.ConditionalRelativeJumps := by
  refine ⟨fun cc n8 => ?form, fun cc n8 s => ⟨fun hc => ?taken, goesTo_of_jumpIf_notTaken (exec_jrcc cc n8 s)⟩⟩
  case form =>
    exact hasForm_of_encode (fun e => by simp [encode_jrcc, group_append_condCode]) (instrCycles_jrcc cc n8)
  case taken => exact ⟨_, isRelative_add_signExtend _ _, goesTo_of_jumpIf_taken (exec_jrcc cc n8 s) hc⟩

/-- Settles O47: CALL pushes the address after itself, and faults with its push. -/
theorem callPushesReturnAddress : Obligations.CallPushesReturnAddress := by
  refine ⟨fun n16 => ?form, fun n16 s => ⟨callsTo_of_exec_callTo rfl, exec_callTo_odd rfl⟩⟩
  case form => exact hasForm_of_encode (fun e => by rw [encode, immBytes_eq]) rfl

/-- Settles O48: each mnemonic is a call where its condition holds, and writes `pc` alone where not. -/
theorem conditionalCalls : Obligations.ConditionalCalls :=
  ⟨fun cc n16 => hasForm_condImm16 0b11111#5 (encode_callcc · cc n16) (instrCycles_callcc cc n16),
    fun _ n16 _ => ⟨fun hc => callsTo_of_exec_callTo (exec_callcc_taken n16 hc),
      fun hc => exec_callTo_odd (exec_callcc_taken n16 hc),
      fun hc => goesTo_of_exec_setPc (exec_callcc_notTaken n16 hc)⟩⟩

/-- Settles O49: RET pops its target, and faults with its pop. -/
theorem returnPopsProgramCounter : Obligations.ReturnPopsProgramCounter := by
  refine ⟨hasForm_of_encode (fun _ => rfl) rfl, fun s => ⟨fun hu => ?pops, exec_busError_of_odd rfl⟩⟩
  case pops =>
    obtain ⟨w, hw, hn⟩ := pop16_usable hu
    exact ⟨_, conclude_next.mpr ⟨_, hw, rfl⟩, hn, State.reg_setReg_same s .r7 _, rfl,
      (Frame.refl _ s).setReg List.mem_cons_self _⟩

/-- Settles O50: RETI pops its target as RET does, and of the control state it sets IME alone. -/
theorem returnFromInterruptEnables : Obligations.ReturnFromInterruptEnables := by
  refine ⟨hasForm_of_encode (fun _ => rfl) rfl, fun s => ⟨fun hu => ?pops, exec_busError_of_odd rfl⟩⟩
  case pops =>
    obtain ⟨w, hw, hn⟩ := pop16_usable hu
    obtain ⟨hregs, hmem, _⟩ := (Frame.refl [.r7] s).setReg List.mem_cons_self (s.sp + 2#16)
    exact ⟨_, conclude_next.mpr ⟨_, hw, rfl⟩, hn, State.reg_setReg_same s .r7 _, rfl, rfl, hregs, hmem, rfl, rfl, rfl, rfl⟩

/-- Settles O51: the RET pops the word that the CALL pushed. -/
theorem returnAfterCallResumes : Obligations.ReturnAfterCallResumes := by
  intro n16 s t h0 h1 h
  obtain ⟨u, hu, rfl⟩ := callTo_next.mp h
  have hpop := pop16_after_push16 (t := u.setPc n16) h0 h1 hu rfl rfl rfl
  exact ⟨_, conclude_next.mpr ⟨_, hpop, rfl⟩, rfl, State.reg_setReg_same _ .r7 _⟩

end Sys2Proof.Machine
end

section
/-! PROOFS. CPU control (spec/45_cpu_control.md): what an instruction leaves that ends with IME and the halt state set and
`pc <- npc`, from which the statements on HALT, DI and EI follow; NOP writes `pc` alone, as a jump does. -/

namespace Sys2Proof.Machine

open Claims

/-! ## Control writes -/

/-- An instruction that ends with IME, the halt state and `pc` written changes nothing else. -/
theorem does_of_exec_setControl {i : Instr} {s : State} {ime halted : Bool}
    (h : exec i s = .next (((s.setIme ime).setHalted halted).advance i)) :
    Does i s fun t => t.ime = ime ∧ t.halted = halted ∧ t.pc = nextPc i s ∧ t.f = s.f ∧ RegsKeptBut [] s t ∧ MemKept s t ∧
      t.env = s.env ∧ t.cfg = s.cfg ∧ t.tick = s.tick := by
  obtain ⟨hregs, hmem, _⟩ := Frame.refl [] s
  exact ⟨_, h, rfl, rfl, rfl, rfl, hregs, hmem, rfl, rfl, rfl⟩

/-! ## The statements -/

/-- Settles O52: NOP is a transfer of control to the address after it. -/
theorem nopChangesOnlyPc : Obligations.NopChangesOnlyPc :=
  ⟨hasForm_of_encode (fun _ => rfl) rfl, fun s => goesTo_of_exec_setPc (target := nextPc .nop s) rfl⟩

/-- Settles O53: each of the three sets one of IME and the halt state, and the other to the value it had. -/
theorem haltAndInterruptEnableInstructions : Obligations.HaltAndInterruptEnableInstructions := by
  refine ⟨hasForm_of_encode (fun _ => rfl) rfl, hasForm_of_encode (fun _ => rfl) rfl, hasForm_of_encode (fun _ => rfl) rfl,
    fun s => ⟨?halt, ?di, ?ei⟩⟩
  case halt =>
    have hdoes := does_of_exec_setControl (i := .halt) (s := s) (ime := s.ime) (halted := true) rfl
    exact hdoes.mono fun _ ⟨hime, hhalted, hrest⟩ => ⟨hhalted, hime, hrest⟩
  case di => exact does_of_exec_setControl (ime := false) (halted := s.halted) rfl
  case ei => exact does_of_exec_setControl (ime := true) (halted := s.halted) rfl

end Sys2Proof.Machine
end

section
/-! PROOFS. Refusals, interrupts and the halt state (spec/60_exceptions.md): the operands an instruction is refused for, what
the step at a boundary does, and what an interrupt entry leaves and RETI takes back. -/

namespace Sys2Proof.Machine

open Claims

/-! ## Refused operands (R214) -/

/-- The refusal of an instruction for its operands: `PUSH R7` and `POP R7`, and BIT with an index above 15, where the policy of
each is to refuse (R118, R119, R175). -/
def operandRefusal (s : State) : Instr → Option Refusal
  | .push r => if r = .r7 ∧ s.cfg.spOperand = .refuse then some .pushSp else none
  | .pop r => if r = .r7 ∧ s.cfg.spOperand = .refuse then some .popSp else none
  | .bit _ n8 => if 15 < n8.toNat ∧ s.cfg.bitIndex = .refuse then some (.bitIndex n8) else none
  | _ => none

theorem operandRefusal_of_wellFormed {i : Instr} (s : State) (h : i.wellFormed = true) : operandRefusal s i = none := by
  cases i with
  | push r | pop r =>
    have hr : r ≠ .r7 := bne_iff_ne.mp h
    exact if_neg fun hrefused => hr hrefused.1
  | bit r n8 =>
    have hle : n8.toNat ≤ 15 := of_decide_eq_true h
    exact if_neg fun hrefused => Nat.not_lt.mpr hle hrefused.1
  | _ => rfl

theorem jumpIf_ne_refused {s : State} {cc : Cond} {i : Instr} {target : Word} {q : Refusal} :
    s.jumpIf cc i target ≠ .refused q := by
  unfold State.jumpIf
  split <;> simp

theorem callIf_ne_refused {s : State} {cc : Cond} {i : Instr} {target : Word} {q : Refusal} :
    s.callIf cc i target ≠ .refused q := by
  cases hc : s.f.holds cc with
  | true =>
    rw [callIf_taken hc]
    exact conclude_refused
  | false => simp [callIf_notTaken hc]

theorem execPush_refused {r : Reg} {s : State} {q : Refusal} :
    execPush r s = .refused q ↔ operandRefusal s (.push r) = some q := by
  unfold execPush
  by_cases hr : r = .r7
  · cases hp : s.cfg.spOperand <;> simp [operandRefusal, hr, hp, conclude_refused]
  · simp [operandRefusal, hr, conclude_refused]

theorem execPop_refused {r : Reg} {s : State} {q : Refusal} :
    execPop r s = .refused q ↔ operandRefusal s (.pop r) = some q := by
  unfold execPop
  by_cases hr : r = .r7
  · cases hp : s.cfg.spOperand <;> simp [operandRefusal, hr, hp, conclude_refused]
  · simp [operandRefusal, hr, conclude_refused]

theorem bitTested_eq_none_iff {p : BitIndexPolicy} {v : Word} {n8 : Byte} :
    bitTested p v n8 = none ↔ 15 < n8.toNat ∧ p = .refuse := by
  unfold bitTested
  split
  case isTrue hle => simp [Nat.not_lt.mpr hle]
  case isFalse hgt => cases p <;> simp [Nat.not_le.mp hgt]

theorem execBit_refused {r : Reg} {n8 : Byte} {s : State} {q : Refusal} :
    execBit r n8 s = .refused q ↔ operandRefusal s (.bit r n8) = some q := by
  simp only [execBit, operandRefusal, ← bitTested_eq_none_iff (v := s.reg r)]
  cases bitTested s.cfg.bitIndex (s.reg r) n8 <;> simp

/-- An instruction is refused exactly for its operands. -/
theorem exec_refused {i : Instr} {s : State} {q : Refusal} : exec i s = .refused q ↔ operandRefusal s i = some q := by
  cases i with
  | push => exact execPush_refused
  | pop => exact execPop_refused
  | bit => exact execBit_refused
  | ldwInd | ldbInd | stwInd | stbInd | ldwAbs | stwAbs | call | ret | reti => exact iff_of_false conclude_refused nofun
  | jz | jnz | jc | jnc | jn | jnn | jv | jnv | jrz | jrnz | jrc | jrnc | jrn | jrnn | jrv | jrnv =>
    exact iff_of_false jumpIf_ne_refused nofun
  | callz | callnz | callc | callnc | calln | callnn | callv | callnv => exact iff_of_false callIf_ne_refused nofun
  | ldReg | ldImm | addReg | addImm | subReg | subImm | andReg | andImm | orReg | orImm | xorReg | xorImm | incReg | decReg
  | cmpReg | cmpImm | addbReg | addbImm | subbReg | andbReg | orbReg | xorbReg | incbReg | decbReg | cmpbReg | cmpbImm | shl
  | shr | rol | ror | jmp | jmpReg | jr | nop | halt | di | ei => exact iff_of_false nofun nofun

/-! ## The kind of a step (R11, R218, R222) -/

theorem stepKind_of_no_request {s : State} (h : s.pending = none) :
    s.stepKind = if s.halted then .idle else .instruction := by
  simp only [State.stepKind, h]

theorem stepKind_of_enabled {s : State} {src : IntSource} (h : s.pending = some src) (hi : s.ime = true) :
    s.stepKind = if s.halted || s.chosen then .entry src else .instruction := by
  simp only [State.stepKind, h, hi, if_true]

/-- What a halted CPU does with a request while IME = 0, by `HALT_WAKE_MASKED` (R222 c). -/
def maskedWakeKind : Option HaltWake → StepKind
  | some .wake => .wake
  | some .stay => .idle
  | none => .openWake

theorem stepKind_of_masked {s : State} {src : IntSource} (h : s.pending = some src) (hi : s.ime = false) :
    s.stepKind = if s.halted then maskedWakeKind s.cfg.haltWake else .instruction := by
  simp only [State.stepKind, h, hi, Bool.false_eq_true, if_false]
  rfl

/-! ## The steps of a halted CPU -/

theorem step_of_wake {s : State} (h : s.stepKind = .wake) : step s = .next (s.passBoundary.setHalted false) := by
  simp only [step, h]

theorem step_of_idle {s : State} (h : s.stepKind = .idle) : step s = .next s.passBoundary := by
  simp only [step, h]

theorem step_of_openWake {s : State} (h : s.stepKind = .openWake) : step s = .refused .haltWakeOpen := by
  simp only [step, h]

theorem cpuKept_passBoundary (s : State) : CpuKept s s.passBoundary :=
  ⟨fun _ => rfl, rfl, rfl, fun _ => rfl⟩

/-- An idle step of a halted CPU leaves it halted (R222 a). -/
theorem staysHalted_of_idle {s : State} (hk : s.stepKind = .idle) (hh : s.halted = true) :
    ∃ t, step s = .next t ∧ StaysHalted s t :=
  ⟨_, step_of_idle hk, cpuKept_passBoundary s, hh, rfl, rfl, rfl, rfl⟩

/-! ## Interrupt entry and the return from it (R219, R220) -/

theorem takeInterrupt_of_vector {src : IntSource} {v : Word} (h : src.vector = some v) (s : State) :
    takeInterrupt src s = conclude (((s.setHalted false).setIme false).push16 s.pc) fun u => u.setPc v := by
  simp only [takeInterrupt, h]

theorem takeInterrupt_of_no_vector {src : IntSource} (h : src.vector = none) (s : State) :
    takeInterrupt src s = .refused (.intVectorOpen src.id) := by
  simp only [takeInterrupt, h]

/-! ## The statements -/

/-- Settles O19: a well-formed instruction has no operand to be refused for. -/
theorem wellFormedInstructionIsNeverRefused : Obligations.WellFormedInstructionIsNeverRefused := by
  intro i s q hwf h
  have hnone := operandRefusal_of_wellFormed s hwf
  rw [exec_refused.mp h] at hnone
  cases hnone

/-- Settles O55: the entry is the push of `pc` with the halt state and IME cleared, and faults with its push. -/
theorem interruptEntrySavesPcAlone : Obligations.InterruptEntrySavesPcAlone := by
  intro s src hk
  rw [step_of_entry hk]
  refine ⟨fun v hv hu => ?enters, fun v hv hodd => ?odd, fun hv => takeInterrupt_of_no_vector hv _⟩
  case enters =>
    obtain ⟨m, hm, hstores⟩ := push16_usable (s := (s.beginStep.setHalted false).setIme false) s.pc hu
    have hregs : RegsKeptBut [.r7] s (s.setReg .r7 (s.sp - 2#16)) :=
      RegsKeptBut.setReg (fun _ _ => rfl) List.mem_cons_self _
    exact ⟨_, (takeInterrupt_of_vector hv _).trans (conclude_next.mpr ⟨_, hm, rfl⟩), rfl, rfl, rfl,
      State.reg_setReg_same s .r7 _, hstores, rfl, hregs, rfl⟩
  case odd => exact (takeInterrupt_fault hv).mpr (push16_fault.mp (push16_odd (s := s.beginStep) s.pc hodd))

/-- Settles O56: the RETI pops the `pc` that the entry pushed, and puts `sp` back; the entry wrote no other register and no
flag, and the RETI sets the IME that it cleared. -/
theorem returnUndoesInterruptEntry : Obligations.ReturnUndoesInterruptEntry := by
  intro s t src hime hk h0 h1 h
  rw [step_of_entry hk] at h
  obtain ⟨v, u, _, hu, rfl⟩ := takeInterrupt_next.mp h
  have hpop := pop16_after_push16 (s := (s.beginStep.setHalted false).setIme false) (t := u.setPc v) h0 h1 hu rfl rfl rfl
  obtain ⟨_, hframe, _⟩ := push16_frame hu
  have hf : u.f = s.f := by
    rw [hframe]
    rfl
  have hregs : RegsKeptBut [.r7] s u := (takeInterrupt_covers h).of_beginStep.regs
  refine ⟨_, conclude_next.mpr ⟨_, hpop, rfl⟩, rfl, fun r => ?register, hf, hime.symm⟩
  case register =>
    by_cases hr : r = .r7
    · subst hr
      exact State.reg_setReg_same _ .r7 _
    · exact (State.reg_setReg_other _ hr _).trans (hregs r (by simpa using hr))

/-- Settles O57, by the kind of the step of a halted CPU: with no request, with one that IME lets in, and with a masked one. -/
theorem haltedCpuFollowsWakeRule : Obligations.HaltedCpuFollowsWakeRule := by
  intro s hh
  refine ⟨fun hnone => ?quiet, fun src hp hi => ?entry, fun src hp hi => ?masked⟩
  case quiet => exact staysHalted_of_idle ((stepKind_of_no_request hnone).trans (if_pos hh)) hh
  case entry => exact (stepKind_of_enabled hp hi).trans (if_pos (by simp [hh]))
  case masked =>
    have hk : s.stepKind = maskedWakeKind s.cfg.haltWake := (stepKind_of_masked hp hi).trans (if_pos hh)
    refine ⟨fun hw => ?wake, fun hw => ?stay, fun hw => ?unset⟩ <;> rw [hw] at hk
    case wake => exact ⟨_, step_of_wake hk, rfl, hi, cpuKept_passBoundary s⟩
    case stay => exact staysHalted_of_idle hk hh
    case unset => exact step_of_openWake hk

/-- Settles O20: these are the operands that `operandRefusal` names. -/
theorem refusedOperandForms : Obligations.RefusedOperandForms :=
  fun _ => ⟨fun hp => ⟨exec_refused.mpr (if_pos ⟨rfl, hp⟩), exec_refused.mpr (if_pos ⟨rfl, hp⟩)⟩,
    fun _ _ hp hn => exec_refused.mpr (if_pos ⟨hn, hp⟩)⟩

/-- Settles O54, by the kind of the step of a running CPU: an entry only for a request that IME lets in and the oracle has
happen. -/
theorem acceptanceAtStepBoundary : Obligations.AcceptanceAtStepBoundary := by
  intro s hrun
  have hnoRequest : s.pending = none → s.stepKind = .instruction := fun hp => by simp [stepKind_of_no_request hp, hrun]
  refine ⟨?closed, fun src hi hp => ?request⟩
  case closed =>
    rintro (hi | hp)
    · cases hp : s.pending with
      | none => exact hnoRequest hp
      | some src => simp [stepKind_of_masked hp hi, hrun]
    · exact hnoRequest hp
  case request => simp +contextual [stepKind_of_enabled hp hi, hrun]

end Sys2Proof.Machine
end

section
/-! PROOFS. Reset and the end of a run (spec/70_reset_and_hazards.md), and the model's own policy for `PUSH R7` and `POP R7`
(log 7). -/

namespace Sys2Proof.Machine

open Claims

/-! ## The end of a run (R242) -/

/-- No request identifier names a member of an empty `INT_SOURCES` (R215). -/
theorem firstSource_no_sources (irq : List Nat) : firstSource [] irq = none := by
  induction irq with
  | nil => rfl
  | cons k rest ih => exact ih

/-- Under NoIRQ no request is pending, whatever the environment still holds (R215). -/
theorem pending_of_noIRQ {s : State} (h : NoIRQ s) : s.pending = none := by
  cases henv : s.env with
  | nil => simp only [State.pending, henv]
  | cons b rest => simp only [State.pending, henv, h, firstSource_no_sources]

theorem Claims.CpuKept.refl (s : State) : CpuKept s s :=
  ⟨fun _ => rfl, rfl, rfl, fun _ => rfl⟩

theorem Claims.CpuKept.trans {s t u : State} (h : CpuKept s t) (h' : CpuKept t u) : CpuKept s u := by
  obtain ⟨hregs, hpc, hf, hmem⟩ := h
  obtain ⟨hregs', hpc', hf', hmem'⟩ := h'
  exact ⟨fun r => (hregs' r).trans (hregs r), hpc'.trans hpc, hf'.trans hf, fun a => (hmem' a).trans (hmem a)⟩

/-- The step from the end of a run is the one of a halted CPU with no request (R222 a), which keeps what makes it the end. -/
theorem exists_step_of_endOfRun {s : State} (h : EndOfRun s) : ∃ t, step s = .next t ∧ CpuKept s t ∧ EndOfRun t := by
  obtain ⟨hhalted, hime, hnoIRQ⟩ := h
  obtain ⟨hquiet, _⟩ := haltedCpuFollowsWakeRule s hhalted
  obtain ⟨t, ht, hkept, hhalted', hime', _, hcfg, _⟩ := hquiet (pending_of_noIRQ hnoIRQ)
  exact ⟨t, ht, hkept, hhalted', hime'.trans hime, (congrArg Config.intSources hcfg).trans hnoIRQ⟩

/-! ## `PUSH R7` and `POP R7` under the policy `free` (log 7) -/

theorem execPush_sp_of_free {s : State} (h : s.cfg.spOperand = .free) :
    execPush .r7 s = conclude (s.push16 (Config.spWord s.tick s.sp)) fun u => u.advance (.push .r7) := by
  simp [execPush, h]

theorem execPop_sp_of_free {s : State} (h : s.cfg.spOperand = .free) :
    execPop .r7 s = conclude s.pop16 fun p => (p.2.setReg .r7 (Config.spWord s.tick s.sp)).advance (.pop .r7) := by
  simp [execPop, h]

/-- An instruction that pushes `v` and goes on (R60): the word at the new `sp`, and nothing else but `sp` and `pc`. -/
theorem does_wordPush {i : Instr} {s : State} {v : Word} (h : exec i s = conclude (s.push16 v) fun u => u.advance i)
    (hu : UsableWord s (s.sp - 2#16)) :
    Does i s fun t => t.sp = s.sp - 2#16 ∧ StoresWord s t (s.sp - 2#16) v ∧ t.pc = nextPc i s ∧ t.f = s.f ∧
      RegsKeptBut [.r7] s t ∧ ControlKept s t := by
  obtain ⟨m, hm, hstores⟩ := push16_usable v hu
  have hregs : RegsKeptBut [.r7] s (s.setReg .r7 (s.sp - 2#16)) :=
    RegsKeptBut.setReg (fun _ _ => rfl) List.mem_cons_self _
  exact ⟨_, h.trans (conclude_next.mpr ⟨_, hm, rfl⟩), State.reg_setReg_same s .r7 _, hstores, rfl, rfl, hregs, rfl, rfl, rfl,
    rfl, rfl⟩

/-! ## The statements -/

/-- Settles O58, by induction on the number of steps: each leads from an end of the run to another. -/
theorem endOfRunIsQuiescent : Obligations.EndOfRunIsQuiescent := by
  intro s k hend
  induction k with
  | zero => exact ⟨s, .refl s, .refl s, hend⟩
  | succ k ih =>
    obtain ⟨t, hreach, hkept, hend'⟩ := ih
    obtain ⟨u, hstep, hkept', hend''⟩ := exists_step_of_endOfRun hend'
    exact ⟨u, .step hreach hstep, hkept.trans hkept', hend''⟩

/-- Settles O11: these are the fields that `State.resetWith` fills from its parameters. -/
theorem resetLeavesCpuRunning : Obligations.ResetLeavesCpuRunning :=
  fun _ => ⟨rfl, rfl, rfl⟩

/-- Settles O21: `PUSH R7` is `Push16` of the free word, and `POP R7` a `Pop16` whose R7 the free word replaces. -/
theorem freePolicyRunsPushAndPopOfSp : Obligations.FreePolicyRunsPushAndPopOfSp := by
  intro s hfree
  refine ⟨fun hu => ?push, fun hu => ?pop⟩
  case push =>
    have hdoes := does_wordPush (i := .push .r7) (execPush_sp_of_free hfree) hu
    exact hdoes.mono fun t ⟨hsp, hstores, hrest⟩ => ⟨hsp, ⟨_, hstores⟩, hrest⟩
  case pop =>
    obtain ⟨w, hw, _⟩ := pop16_usable hu
    have hframe : Frame [.r7] s ((s.setReg .r7 (s.sp + 2#16)).setReg .r7 (Config.spWord s.tick s.sp)) :=
      ((Frame.refl _ s).setReg List.mem_cons_self _).setReg List.mem_cons_self _
    exact ⟨_, (execPop_sp_of_free hfree).trans (conclude_next.mpr ⟨_, hw, rfl⟩), rfl, rfl, hframe.advance _⟩

end Sys2Proof.Machine
end
